-- ==== Sys2Proof/Word.lean ====
section
/-! DEFINITION. The word types: the block's one cleartext data type, the host's bytes, and the encrypted
word as an opaque handle (spec 00_scope.md R7, R10, R19; 41_word_ops.md R167). -/

namespace Sys2Proof

/-- `Word32`: every arithmetic value of the block is an unsigned 32-bit word (R10, R167). -/
abbrev Word := BitVec 32

/-- A byte on the host's side of the byte-order conventions (20_memory.md R61). -/
abbrev Byte := BitVec 8

/-- An encrypted 32-bit word, "a ciphertext handle" (R19, parameter `EW` of R9). The machine moves handles
and never looks inside one (41_word_ops.md R157). DESIGN CHOICE (log 8): the handle is a number, so that a
state can be written out; what it decrypts to is an argument of every claim, never of the machine. -/
structure EW where
  handle : Nat
  deriving DecidableEq, Repr

end Sys2Proof
end

