-- ==== Sys2Proof/Config.lean ====
section
/-! DEFINITION. What an implementation fixes: the parameters of spec 00_scope.md R9 and the ALU's reason
codes. The values the spec leaves to a draw (the ALU's answers, the order of steps) are not fixed here: they
stand in `State.env` (log 1). -/

namespace Sys2Proof

/-- The parameters "the model takes as arguments" (R9). They are carried in the state and no step changes
them, so a statement about every state is a statement about every value of them (log 3). -/
structure Params where
  /-- `P_INSTANCES`: number of instances sharing one ALU, at least 1. -/
  instances : Nat
  /-- `P_ALU_LANES`: maximum ALU requests one instance has outstanding at once, at least 1. -/
  aluLanes : Nat
  /-- `P_COUNTER_RESET`: reset value of COUNTER, 0 (false) or 1 (true). -/
  counterResetOne : Bool
  /-- `P_ENC_AVAILABLE`: whether the ALU answers ENC requests. -/
  encAvailable : Bool
  /-- `P_ID_VALUE`: value read from the ID register. -/
  idValue : Word
  deriving DecidableEq, Repr

/-- The defaults of R9. -/
def Params.default : Params :=
  { instances := 1, aluLanes := 1, counterResetOne := false, encAvailable := true,
    idValue := 0x48453230#32 }

/-- The ranges R9 gives the two natural parameters. -/
def Params.wf (p : Params) : Bool :=
  decide (1 ≤ p.instances) && decide (1 ≤ p.aluLanes)

/-- `ALUReason`: the ALU's failure reasons, "8-bit codes 1..255" (R9, 41_word_ops.md R153). -/
structure AluReason where
  code : BitVec 8
  nonzero : code ≠ 0#8
  deriving DecidableEq, Repr

end Sys2Proof
end

