-- ==== Sys2Proof/Syntax.lean ====
section
/-! DEFINITION. The commands as syntax: one constructor for each row of the opcode map (spec
30_encoding.md R102), with the fields its format has (R92 to R99). -/

namespace Sys2Proof

/-- A 6-bit EW register field (R100). Values 48 to 63 are reserved. -/
abbrev RegNum := BitVec 6

/-- A 4-bit index into S0..S15 (format Q, R99). -/
abbrev SIndex := BitVec 4

/-- The 21 commands. Field order is the assembler's: destination first (R109). -/
inductive Instr where
  | nop
  | add (rd ra rb : RegNum)
  | xor (rd ra rb : RegNum)
  | and (rd ra rb : RegNum)
  | or (rd ra rb : RegNum)
  | rotl (rd ra : RegNum) (sh : BitVec 5)
  | rotr (rd ra : RegNum) (sh : BitVec 5)
  | mov (rd ra : RegNum)
  | ldx (rd : RegNum)
  | stx (ra : RegNum)
  | enc (rd : RegNum) (sel : BitVec 4)
  | qr (qa qb qc qd : SIndex)
  | dround
  | ff
  | init
  | snap
  | block
  | mix
  | ctrinc
  | clrs
  | clrk
  deriving DecidableEq, Repr

end Sys2Proof
end

