-- ==== Sys2Proof/WellFormed.lean ====
section
/-! DEFINITION. Which commands are well formed: the two operand checks of the decoder, an ENC selector in
0..8 (spec 30_encoding.md R105) and register fields in 0..47 (R106). -/

namespace Sys2Proof

/-- R21, R106: numbers 0 to 47 are implemented, 48 to 63 are reserved. -/
def RegNum.implemented (n : RegNum) : Bool := decide (n.toNat < 48)

/-- R98, R105: the ENC selector is in 0..8; the other commands have no selector. -/
def Instr.selOk : Instr → Bool
  | .enc _ sel => decide (sel.toNat ≤ 8)
  | .nop | .add _ _ _ | .xor _ _ _ | .and _ _ _ | .or _ _ _ | .rotl _ _ _ | .rotr _ _ _ | .mov _ _
  | .ldx _ | .stx _ | .qr _ _ _ _ | .dround | .ff | .init | .snap | .block | .mix | .ctrinc | .clrs
  | .clrk => true

/-- The fields rd, ra, rb that the command's format has (R93 to R98). Format Q has none (R106). -/
def Instr.regFields : Instr → List RegNum
  | .add rd ra rb | .xor rd ra rb | .and rd ra rb | .or rd ra rb => [rd, ra, rb]
  | .rotl rd ra _ | .rotr rd ra _ | .mov rd ra => [rd, ra]
  | .ldx rd | .enc rd _ => [rd]
  | .stx ra => [ra]
  | .nop | .qr _ _ _ _ | .dround | .ff | .init | .snap | .block | .mix | .ctrinc | .clrs | .clrk => []

/-- Every register field names an implemented register (R106). -/
def Instr.regsOk (i : Instr) : Bool := i.regFields.all RegNum.implemented

/-- A command the decoder answers (R108): both operand checks pass. -/
def Instr.wf (i : Instr) : Bool := i.selOk && i.regsOk

end Sys2Proof
end

