-- ==== Sys2Proof/Decode.lean ====
section
/-! DEFINITION. The opcode map and the decoder (spec 30_encoding.md R90 to R108), and after it the encoder
written from the same formats. -/

namespace Sys2Proof

/-- The fields of a command word (R91 to R99). -/
def field.opc (w : Word) : BitVec 6 := w.extractLsb' 26 6
def field.rd (w : Word) : RegNum := w.extractLsb' 20 6
def field.ra (w : Word) : RegNum := w.extractLsb' 14 6
def field.rb (w : Word) : RegNum := w.extractLsb' 8 6
def field.sh (w : Word) : BitVec 5 := w.extractLsb' 0 5
def field.sel (w : Word) : BitVec 4 := w.extractLsb' 0 4
def field.qa (w : Word) : SIndex := w.extractLsb' 12 4
def field.qb (w : Word) : SIndex := w.extractLsb' 8 4
def field.qc (w : Word) : SIndex := w.extractLsb' 4 4
def field.qd (w : Word) : SIndex := w.extractLsb' 0 4

/-- One row of the opcode map of R102: the opcode, `match`, `mask`, and the command read from the word's
fields by the row's format. -/
structure OpcodeRow where
  opc : BitVec 6
  pattern : Word
  mask : Word
  read : Word → Instr

/-- Rows 0x00 to 0x0A of R102: word, transfer and NOP commands. -/
def opcodeRowsLow : List OpcodeRow :=
  [ ⟨0x00#6, 0x00000000#32, 0xFFFFFFFF#32, fun _ => .nop⟩,
    ⟨0x01#6, 0x04000000#32, 0xFC0000FF#32, fun w => .add (field.rd w) (field.ra w) (field.rb w)⟩,
    ⟨0x02#6, 0x08000000#32, 0xFC0000FF#32, fun w => .xor (field.rd w) (field.ra w) (field.rb w)⟩,
    ⟨0x03#6, 0x0C000000#32, 0xFC0000FF#32, fun w => .and (field.rd w) (field.ra w) (field.rb w)⟩,
    ⟨0x04#6, 0x10000000#32, 0xFC0000FF#32, fun w => .or (field.rd w) (field.ra w) (field.rb w)⟩,
    ⟨0x05#6, 0x14000000#32, 0xFC003FE0#32, fun w => .rotl (field.rd w) (field.ra w) (field.sh w)⟩,
    ⟨0x06#6, 0x18000000#32, 0xFC003FE0#32, fun w => .rotr (field.rd w) (field.ra w) (field.sh w)⟩,
    ⟨0x07#6, 0x1C000000#32, 0xFC003FFF#32, fun w => .mov (field.rd w) (field.ra w)⟩,
    ⟨0x08#6, 0x20000000#32, 0xFC0FFFFF#32, fun w => .ldx (field.rd w)⟩,
    ⟨0x09#6, 0x24000000#32, 0xFFF03FFF#32, fun w => .stx (field.ra w)⟩,
    ⟨0x0A#6, 0x28000000#32, 0xFC0FFFF0#32, fun w => .enc (field.rd w) (field.sel w)⟩ ]

/-- Rows 0x10 to 0x1A of R102: round and control commands. -/
def opcodeRowsHigh : List OpcodeRow :=
  [ ⟨0x10#6, 0x40000000#32, 0xFFFF0000#32,
      fun w => .qr (field.qa w) (field.qb w) (field.qc w) (field.qd w)⟩,
    ⟨0x11#6, 0x44000000#32, 0xFFFFFFFF#32, fun _ => .dround⟩,
    ⟨0x12#6, 0x48000000#32, 0xFFFFFFFF#32, fun _ => .ff⟩,
    ⟨0x13#6, 0x4C000000#32, 0xFFFFFFFF#32, fun _ => .init⟩,
    ⟨0x14#6, 0x50000000#32, 0xFFFFFFFF#32, fun _ => .snap⟩,
    ⟨0x15#6, 0x54000000#32, 0xFFFFFFFF#32, fun _ => .block⟩,
    ⟨0x16#6, 0x58000000#32, 0xFFFFFFFF#32, fun _ => .mix⟩,
    ⟨0x18#6, 0x60000000#32, 0xFFFFFFFF#32, fun _ => .ctrinc⟩,
    ⟨0x19#6, 0x64000000#32, 0xFFFFFFFF#32, fun _ => .clrs⟩,
    ⟨0x1A#6, 0x68000000#32, 0xFFFFFFFF#32, fun _ => .clrk⟩ ]

/-- The opcode map of R102. -/
def opcodeMap : List OpcodeRow := opcodeRowsLow ++ opcodeRowsHigh

/-- The three answers of `decode` (R108): a command, or the reason a word is none. `illegal` is reported as
ILLEGAL_CMD (R103 to R105) and `badReg` as BAD_REG (R106). -/
inductive Decoded where
  | command (i : Instr)
  | illegal
  | badReg
  deriving DecidableEq, Repr

/-- The operand checks at the end of R108: the ENC selector first, then the register fields. -/
def checkFields (i : Instr) : Decoded :=
  if !i.selOk then .illegal
  else if !i.regsOk then .badReg
  else .command i

/-- `decode` of R108, total on 32-bit words. The order of the checks fixes which error a word reports. -/
def decode (w : Word) : Decoded :=
  match opcodeMap.find? (fun row => row.opc == field.opc w) with
  | none => .illegal
  | some row => if w &&& row.mask == row.pattern then checkFields (row.read w) else .illegal

/-- The command word of a command, field by field from the formats R92 to R99. -/
def encode : Instr → Word
  | .nop => 0x00#6 ++ 0#26
  | .add rd ra rb => 0x01#6 ++ rd ++ ra ++ rb ++ 0#8
  | .xor rd ra rb => 0x02#6 ++ rd ++ ra ++ rb ++ 0#8
  | .and rd ra rb => 0x03#6 ++ rd ++ ra ++ rb ++ 0#8
  | .or rd ra rb => 0x04#6 ++ rd ++ ra ++ rb ++ 0#8
  | .rotl rd ra sh => 0x05#6 ++ rd ++ ra ++ 0#9 ++ sh
  | .rotr rd ra sh => 0x06#6 ++ rd ++ ra ++ 0#9 ++ sh
  | .mov rd ra => 0x07#6 ++ rd ++ ra ++ 0#14
  | .ldx rd => 0x08#6 ++ rd ++ 0#20
  | .stx ra => 0x09#6 ++ 0#6 ++ ra ++ 0#14
  | .enc rd sel => 0x0A#6 ++ rd ++ 0#16 ++ sel
  | .qr qa qb qc qd => 0x10#6 ++ 0#10 ++ qa ++ qb ++ qc ++ qd
  | .dround => 0x11#6 ++ 0#26
  | .ff => 0x12#6 ++ 0#26
  | .init => 0x13#6 ++ 0#26
  | .snap => 0x14#6 ++ 0#26
  | .block => 0x15#6 ++ 0#26
  | .mix => 0x16#6 ++ 0#26
  | .ctrinc => 0x18#6 ++ 0#26
  | .clrs => 0x19#6 ++ 0#26
  | .clrk => 0x1A#6 ++ 0#26

/-- What the decoder reads from the 32-bit command word whose bits are `w`. Every command is one 32-bit word
(R90), so a table row's bits are the whole command; bits of `w` above 31 are no part of it. -/
def decodeTableWord (_nbits w : Nat) : Option Instr :=
  match decode (BitVec.ofNat 32 w) with
  | .command i => some i
  | .illegal | .badReg => none

end Sys2Proof
end

