-- ==== Sys2Proof/Machine/Cipher.lean ====
section
/-! DEFINITION. The cleartext word operators (spec 00_scope.md R11) and the reference cipher
(42_reference_cipher.md R180 to R193): pure functions on words. The machine uses the constants and the index
quadruples; the rest is what claims compare decrypted values with. -/

namespace Sys2Proof.Machine

/-- `rotl32` of R11, for an amount in 0..31: rotation by 0 is the word itself. -/
def rotl32 (x : Word) (n : Nat) : Word :=
  if n = 0 then x else (x <<< n) ||| (x >>> (32 - n))

/-- `rotr32` of R11. -/
def rotr32 (x : Word) (n : Nat) : Word := rotl32 x ((32 - n) % 32)

/-- The four constant words of R181. PRESUMED: the spec marks the values as general knowledge of ChaCha20
(log 12). -/
def cipherConst : Nat → Word
  | 0 => 0x61707865#32
  | 1 => 0x3320646e#32
  | 2 => 0x79622d32#32
  | _ => 0x6b206574#32

/-- Sixteen cleartext words: the decrypted HEState or a keystream block. -/
abbrev Block := Vector Word 16

/-- Element `i` of a block; indices are 0..15. -/
def Block.word (x : Block) (i : Nat) : Word := (x[i]?).getD 0#32

/-- `s[i] <- v`. -/
def Block.put (x : Block) (i : Nat) (v : Word) : Block := x.setIfInBounds i v

/-- One quarter of R183's text: `s[a] += s[b]; s[d] ^= s[a]; s[d] <<<= n`. -/
def Block.halfStep (x : Block) (a b d n : Nat) : Block :=
  let x1 := x.put a (x.word a + x.word b)
  let x2 := x1.put d (x1.word d ^^^ x1.word a)
  x2.put d (rotl32 (x2.word d) n)

/-- `qr(s, a, b, c, d)` of R183: each statement reads the array as the previous one left it. -/
def Block.qr (x : Block) (a b c d : Nat) : Block :=
  (((x.halfStep a b d 16).halfStep c d b 12).halfStep a b d 8).halfStep c d b 7

/-- Column quadruples of R184. PRESUMED: general knowledge, as the spec marks them (log 12). -/
def columnQuads : List (Nat × Nat × Nat × Nat) :=
  [(0, 4, 8, 12), (1, 5, 9, 13), (2, 6, 10, 14), (3, 7, 11, 15)]

/-- Diagonal quadruples of R185. PRESUMED: general knowledge, as the spec marks them (log 12). -/
def diagonalQuads : List (Nat × Nat × Nat × Nat) :=
  [(0, 5, 10, 15), (1, 6, 11, 12), (2, 7, 8, 13), (3, 4, 9, 14)]

/-- `dround(s)` of R186: the columns, then the diagonals. -/
def Block.dround (x : Block) : Block :=
  (columnQuads ++ diagonalQuads).foldl (fun y (a, b, c, d) => y.qr a b c d) x

/-- `n` double rounds one after another. -/
def Block.drounds : Nat → Block → Block
  | 0, x => x
  | n + 1, x => Block.drounds n x.dround

/-- The feed-forward of R187: word-wise addition mod 2^32 of the pre-round state. -/
def Block.feedForward (x x0 : Block) : Block := Vector.ofFn fun i => x[i] + x0[i]

/-- `init(k, c, n)` of R182. -/
def initBlock (k : Vector Word 8) (c : Word) (n : Vector Word 3) : Block :=
  #v[cipherConst 0, cipherConst 1, cipherConst 2, cipherConst 3,
     k[0], k[1], k[2], k[3], k[4], k[5], k[6], k[7], c, n[0], n[1], n[2]]

/-- `chacha_block(k, c, n)` of R187. -/
def chachaBlock (k : Vector Word 8) (c : Word) (n : Vector Word 3) : Block :=
  let x0 := initBlock k c n
  (x0.drounds 10).feedForward x0

/-- The little-endian reading of four bytes, least significant first (R188, R189; 20_memory.md R61). -/
def wordOfBytes (b0 b1 b2 b3 : Byte) : Word := b3 ++ b2 ++ b1 ++ b0

/-- Byte `k` of a word, the one in bits 8k+7 to 8k (R190; 20_memory.md R71). -/
def byteOfWord (w : Word) (k : Nat) : Byte := w.extractLsb' (8 * k) 8

/-- The 32-bit words of a byte sequence, four bytes each; a short tail gives no word. -/
def wordsOfBytes : List Byte → List Word
  | b0 :: b1 :: b2 :: b3 :: rest => wordOfBytes b0 b1 b2 b3 :: wordsOfBytes rest
  | _ => []

/-- Word `j` of a byte array, as the key words of R188 and the nonce words of R189 are read. -/
def wordAt (bytes : List Byte) (j : Nat) : Word := ((wordsOfBytes bytes)[j]?).getD 0#32

/-- Key bytes to key words (R188). -/
def keyWords (key : Vector Byte 32) : Vector Word 8 := Vector.ofFn fun j => wordAt key.toList j

/-- Nonce bytes to nonce words (R189). PRESUMED byte order, as the spec marks it (log 12). -/
def nonceWords (nonce : Vector Byte 12) : Vector Word 3 := Vector.ofFn fun j => wordAt nonce.toList j

/-- The bytes of a word, least significant first (R190). -/
def bytesOfWord (w : Word) : List Byte :=
  [byteOfWord w 0, byteOfWord w 1, byteOfWord w 2, byteOfWord w 3]

/-- The 64 keystream bytes of a block (R190). -/
def keystreamBytes (x : Block) : List Byte := x.toList.flatMap bytesOfWord

/-- Word view of the transcipher step (R193): a plaintext word against a keystream word. -/
def transcipherWord (p w0 : Word) : Word := p ^^^ w0

end Sys2Proof.Machine
end

