-- ==== Sys2Proof/Machine/State.lean ====
section
/-! DEFINITION. The state of one instance as plain data (spec 10_state.md), the host's transactions and
responses, the ALU's requests and answers, and the reset values (10_state.md R48). -/

namespace Sys2Proof.Machine

/-- STATUS.ERRCODE (60_exceptions.md R270). Codes 7 to 15 are never produced, so they have no name. -/
inductive ErrCode where
  | none
  | illegalCmd
  | badReg
  | keyIncomplete
  | uninitRead
  | ewinEmpty
  | aluError
  deriving DecidableEq, Repr

/-- The binary operations of the Encrypted-Word Algebra (R150). -/
inductive BinOp where
  | add
  | xor
  | and
  | or
  deriving DecidableEq, Repr

/-- One ALU request with its operands (00_scope.md R13). There is no decrypt and no keygen (R158). -/
inductive AluRequest where
  | bin (op : BinOp) (a b : EW)
  | rotl (a : EW) (n : BitVec 5)
  | rotr (a : EW) (n : BitVec 5)
  | enc (v : Word)
  deriving DecidableEq, Repr

/-- An answer of the ALU, `Ok(e)` or `Err(r)` (R13, R153). -/
inductive AluAnswer where
  | ok (e : EW)
  | err (r : AluReason)
  deriving DecidableEq, Repr

/-- The right side of a pseudocode line that issues a request, with its operands named by EW register
number, or by ENC selector for a public word (R160 to R166, R210 to R213). -/
inductive LineOp where
  | bin (op : BinOp) (a b : Nat)
  | rotl (a : Nat) (n : BitVec 5)
  | rotr (a : Nat) (n : BitVec 5)
  | enc (sel : BitVec 4)
  deriving DecidableEq, Repr

/-- A pseudocode line `R[d] <- ALU!(op)`; INIT's lines write two registers (R213). `stage` is the half of a
double round the line stands in, `2r` the columns and `2r + 1` the diagonals of double round `r` counted from
0, which overlap never crosses (R137, R221); a line outside the double rounds of DROUND, BLOCK and MIX has
none. -/
structure Line where
  dsts : List Nat
  op : LineOp
  stage : Option Nat := none
  deriving DecidableEq, Repr

/-- An outstanding ALU request (10_state.md R46): its tag, the registers its answer goes to, the request,
the answer from the moment the ALU has given it until the block receives it (R126, R136), and the stage of its
line. DESIGN CHOICE (log 14): it stays outstanding until the block has received the answer. -/
structure Pending where
  tag : Nat
  dsts : List Nat
  req : AluRequest
  answer : Option AluAnswer
  stage : Option Nat := none
  deriving DecidableEq, Repr

/-- The latches captured at accept (10_state.md R45, 40_command_lifecycle.md R122). -/
structure Latches where
  counter : Word
  nonce0 : Word
  nonce1 : Word
  nonce2 : Word
  data : Word
  ewin : Option EW
  deriving DecidableEq, Repr

/-- A host transaction (00_scope.md R14). A register access carries its width in bits and its byte offset,
so that the accesses 20_memory.md R63 and R64 answer with a bus error can be written. -/
inductive HostTx where
  | regRead (width off : Nat)
  | regWrite (width off : Nat) (v : Word)
  | ewPut (e : EW)
  | ewGet
  deriving DecidableEq, Repr

/-- What the bus or the port answers the host (R63 to R66, R69, R70). `none`: no transaction yet. -/
inductive Response where
  | none
  | data (v : Word)
  | done
  | ew (e : EW)
  | busError
  | portError
  deriving DecidableEq, Repr

/-- One step of one agent (40_command_lifecycle.md R136), or the reset input (70 R310). `issue k`: the block
issues the request of the k-th line not yet issued; `alu tag a`: the ALU answers the outstanding request
`tag`; `receive tag`: the block receives that answer. -/
inductive Event where
  | host (tx : HostTx)
  | issue (k : Nat)
  | alu (tag : Nat) (a : AluAnswer)
  | receive (tag : Nat)
  | reset
  deriving DecidableEq, Repr

/-- The EW register file R[0..47] (10_state.md R21): each register holds one encrypted word or no value. -/
abbrev EwFile := Vector (Option EW) 48

/-- Everything the spec gives one instance (10_state.md), and three fields of the model's own: `nextTag`,
`env`, `resp`. EWIN_V, EWOUT_V, KV and IRQ are views (R33, R36, R283) and CMD holds nothing (R39). -/
structure State where
  /-- The parameters of R9, the ID register's value among them (R26); no step changes them (log 3). -/
  params : Params
  /-- R[0..47]: S0..S15, I0..I15, K0..K7, T0..T7 (R21 to R25). -/
  regs : EwFile
  /-- EWIN (R43). -/
  ewin : Option EW
  /-- EWOUT (R44). -/
  ewout : Option EW
  /-- CTRL.IE_DONE (R27). -/
  ieDone : Bool
  /-- CTRL.IE_ERR (R27). -/
  ieErr : Bool
  /-- STATUS.BUSY (R29). -/
  busy : Bool
  /-- STATUS.DONE (R30). -/
  done : Bool
  /-- STATUS.ERR (R31). -/
  err : Bool
  /-- STATUS.CTRWRAP (R32). -/
  ctrWrap : Bool
  /-- STATUS.OVR (R34). -/
  ovr : Bool
  /-- STATUS.ERRCODE (R35). -/
  errCode : ErrCode
  /-- STATUS.ALU_REASON (R37). -/
  aluReason : BitVec 8
  /-- COUNTER (R40). -/
  counter : Word
  /-- NONCE0 (R41). -/
  nonce0 : Word
  /-- NONCE1 (R41). -/
  nonce1 : Word
  /-- NONCE2 (R41). -/
  nonce2 : Word
  /-- DATA (R42). -/
  data : Word
  /-- CUR, the command word in progress or none (R45). -/
  cur : Option Word
  /-- The latches; `none`: they hold no value (R45, R48). -/
  latch : Option Latches
  /-- The sequencer position (R45): the lines of the command in progress whose request is not yet issued. -/
  todo : List Line
  /-- The outstanding ALU requests (R46). -/
  pending : List Pending
  /-- The tag of the next request. It is never reused, reset included: the "reset epoch (or an equivalent)"
  of 70 R312 (log 5). -/
  nextTag : Nat
  /-- What the agents do next, in order, with the values the outside supplies (log 1). -/
  env : List Event
  /-- The response to the host's last transaction (log 4). -/
  resp : Response
  deriving DecidableEq, Repr

/-- Why a step stops. No state that meets `Safety.Inv` stops (log 6); both are safe. -/
inductive Fault where
  /-- Raised by a block step that would read an EW register holding no value: "a register that holds no
  value is never read as a value" (00_scope.md R12). Safe. -/
  | regHoldsNoValue (n : Nat)
  /-- Raised by a block step that would encrypt a public word the latches do not hold (R45, R166). Safe. -/
  | latchHoldsNoValue (sel : BitVec 4)
  deriving DecidableEq, Repr

/-- Why an instruction has no meaning. -/
inductive Refusal where
  /-- Raised by an arm of `exec` whose instruction has no meaning yet; no arm is left so. Safe. -/
  | notModelled (mnemonic : String)
  deriving DecidableEq, Repr

/-- The answer of one step. -/
abbrev Result := Host.Outcome State Fault Refusal

/-- `P_COUNTER_RESET` as a word (R9, R40). -/
def counterResetWord (p : Params) : Word := if p.counterResetOne then 1#32 else 0#32

/-- The state right after reset with parameters `p` (10_state.md R48), with nothing asked of it yet. -/
def State.resetWith (p : Params) : State :=
  { params := p
    regs := Vector.replicate 48 Option.none
    ewin := Option.none, ewout := Option.none
    ieDone := false, ieErr := false
    busy := false, done := false, err := false, ctrWrap := false, ovr := false
    errCode := .none, aluReason := 0#8
    counter := counterResetWord p
    nonce0 := 0#32, nonce1 := 0#32, nonce2 := 0#32
    data := 0#32
    cur := Option.none, latch := Option.none
    todo := [], pending := [], nextTag := 0
    env := [], resp := .none }

/-- The machine right after reset, at the default parameters (R9, R48). -/
def State.reset : State := State.resetWith Params.default

end Sys2Proof.Machine
end

