-- ==== Sys2Proof/Machine/Operands.lean ====
section
/-! DEFINITION. Every operand form: EW registers and their aliases (spec 00_scope.md R12, 30_encoding.md
R100), the latches and the public words ENC selects (30_encoding.md R98, 40_command_lifecycle.md R122), the
source and destination sets of the commands (40_command_lifecycle.md R127, R131), and the ALU request of a
pseudocode line. -/

namespace Sys2Proof.Machine

/-- Aliases of R12: `S[j] = R[j]`, `I[j] = R[16 + j]`, `K[j] = R[32 + j]`, `T[j] = R[40 + j]`. -/
def sReg (j : Nat) : Nat := j
def iReg (j : Nat) : Nat := 16 + j
def kReg (j : Nat) : Nat := 32 + j
def tReg (j : Nat) : Nat := 40 + j

/-- S0..S15, I0..I15, K0..K7, T0..T7 (R22 to R25). -/
def sRegs : List Nat := (List.range 16).map sReg
def iRegs : List Nat := (List.range 16).map iReg
def kRegs : List Nat := (List.range 8).map kReg
def tRegs : List Nat := (List.range 8).map tReg

/-- `R[i]`, or `none` where the register holds no value; a number that names no register holds none. -/
def readEw (f : EwFile) (n : Nat) : Option EW := (f[n]?).getD none

/-- `R[i] <- e` (for `some e`) and `inval(R[i])` (for `none`) of R12. -/
def writeEw (f : EwFile) (n : Nat) (v : Option EW) : EwFile := f.setIfInBounds n v

/-- The same write to each register of a list. -/
def writeEws (f : EwFile) (ns : List Nat) (v : Option EW) : EwFile :=
  ns.foldl (fun g n => writeEw g n v) f

/-- Register copies `R[d] <- R[a]`, one after another, the same handle in both (R241). -/
def copyEws (f : EwFile) (pairs : List (Nat × Nat)) : EwFile :=
  pairs.foldl (fun g (d, a) => writeEw g d (readEw g a)) f

/-- `R[i]` of a state, and `valid(R[i])` (R12, R21). -/
def State.reg (s : State) (n : Nat) : Option EW := readEw s.regs n
def State.valid (s : State) (n : Nat) : Bool := (s.reg n).isSome

/-- The values the latches take at accept (R122): COUNTER, NONCE0..2, DATA and EWIN as they stand. -/
def State.sample (s : State) : Latches :=
  { counter := s.counter, nonce0 := s.nonce0, nonce1 := s.nonce1, nonce2 := s.nonce2, data := s.data,
    ewin := s.ewin }

/-- The public word ENC selects (R98, R166): a constant, or a latched cleartext register. Selectors 9..15
select none (R105). -/
def publicWord (l : Latches) (sel : BitVec 4) : Option Word :=
  match sel.toNat with
  | 0 => some (cipherConst 0)
  | 1 => some (cipherConst 1)
  | 2 => some (cipherConst 2)
  | 3 => some (cipherConst 3)
  | 4 => some l.counter
  | 5 => some l.nonce0
  | 6 => some l.nonce1
  | 7 => some l.nonce2
  | 8 => some l.data
  | _ => none

/-- Source sets (R127). LDX reads EWIN and ENC reads cleartext, so theirs are empty. -/
def sourceSet : Instr → List Nat
  | .add _ ra rb | .xor _ ra rb | .and _ ra rb | .or _ ra rb => [ra.toNat, rb.toNat]
  | .rotl _ ra _ | .rotr _ ra _ | .mov _ ra | .stx ra => [ra.toNat]
  | .qr qa qb qc qd => [sReg qa.toNat, sReg qb.toNat, sReg qc.toNat, sReg qd.toNat]
  | .dround | .snap => sRegs
  | .ff | .mix => sRegs ++ iRegs
  | .init | .block => kRegs
  | .nop | .ldx _ | .enc _ _ | .ctrinc | .clrs | .clrk => []

/-- Destination sets (R131), as EW registers: STX's destination is EWOUT. -/
def destSet : Instr → List Nat
  | .add rd _ _ | .xor rd _ _ | .and rd _ _ | .or rd _ _ | .rotl rd _ _ | .rotr rd _ _ | .mov rd _
  | .ldx rd | .enc rd _ => [rd.toNat]
  | .qr qa qb qc qd => [sReg qa.toNat, sReg qb.toNat, sReg qc.toNat, sReg qd.toNat]
  | .dround | .ff | .mix => sRegs
  | .snap => iRegs
  | .init | .block => sRegs ++ iRegs
  | .nop | .stx _ | .ctrinc | .clrs | .clrk => []

/-- The destination set of the command in progress, read from CUR. -/
def State.curDests (s : State) : List Nat :=
  match s.cur with
  | none => []
  | some w =>
    match decode w with
    | .command i => destSet i
    | .illegal | .badReg => []

/-- INIT and BLOCK check the key registers (R123 item 3, R128). -/
def needsKey : Instr → Bool
  | .init | .block => true
  | .nop | .add _ _ _ | .xor _ _ _ | .and _ _ _ | .or _ _ _ | .rotl _ _ _ | .rotr _ _ _ | .mov _ _
  | .ldx _ | .stx _ | .enc _ _ | .qr _ _ _ _ | .dround | .ff | .snap | .mix | .ctrinc | .clrs
  | .clrk => false

/-- LDX checks the latched EWIN (R123 item 4). -/
def needsEwin : Instr → Bool
  | .ldx _ => true
  | .nop | .add _ _ _ | .xor _ _ _ | .and _ _ _ | .or _ _ _ | .rotl _ _ _ | .rotr _ _ _ | .mov _ _
  | .stx _ | .enc _ _ | .qr _ _ _ _ | .dround | .ff | .init | .snap | .block | .mix | .ctrinc | .clrs
  | .clrk => false

/-- The registers a line reads and the registers it writes. -/
def Line.srcs (ln : Line) : List Nat :=
  match ln.op with
  | .bin _ a b => [a, b]
  | .rotl a _ | .rotr a _ => [a]
  | .enc _ => []

/-- The encrypted word a line reads: a register that holds no value is never read as a value (R12). -/
def State.operand (s : State) (n : Nat) : Except Fault EW :=
  match s.reg n with
  | some e => .ok e
  | none => .error (.regHoldsNoValue n)

/-- The public word an ENC line encrypts, from the latches only (R122). -/
def State.publicOperand (s : State) (sel : BitVec 4) : Except Fault Word :=
  match s.latch.bind (publicWord · sel) with
  | some v => .ok v
  | none => .error (.latchHoldsNoValue sel)

/-- The ALU request of a line, its operands passed exactly as the block holds them (R157). -/
def State.request (s : State) (ln : Line) : Except Fault AluRequest :=
  match ln.op with
  | .bin op a b => do
    let x ← s.operand a
    let y ← s.operand b
    pure (.bin op x y)
  | .rotl a n => do
    let x ← s.operand a
    pure (.rotl x n)
  | .rotr a n => do
    let x ← s.operand a
    pure (.rotr x n)
  | .enc sel => do
    let v ← s.publicOperand sel
    pure (.enc v)

end Sys2Proof.Machine
end

