-- ==== Sys2Proof/Machine/Flags.lean ====
section
/-! DEFINITION. Every flag computation: the STATUS and CTRL words as the host reads them (spec 10_state.md
R27, R28, 20_memory.md R65), the write-1-to-clear of STATUS (R38), CTRINC's wrap flag (R32, R244) and the
interrupt output (60_exceptions.md R283). No command computes a carry, zero or overflow flag (R47). -/

namespace Sys2Proof.Machine

/-- The 4-bit codes of R270. -/
def ErrCode.bits : ErrCode → BitVec 4
  | .none => 0#4
  | .illegalCmd => 1#4
  | .badReg => 2#4
  | .keyIncomplete => 3#4
  | .uninitRead => 4#4
  | .ewinEmpty => 5#4
  | .aluError => 6#4

/-- STATUS.KV: `KV[j] = valid(K[j])` at every instant (R36). -/
def State.kv (s : State) : BitVec 8 :=
  BitVec.ofBool (s.valid (kReg 7)) ++ BitVec.ofBool (s.valid (kReg 6)) ++
  BitVec.ofBool (s.valid (kReg 5)) ++ BitVec.ofBool (s.valid (kReg 4)) ++
  BitVec.ofBool (s.valid (kReg 3)) ++ BitVec.ofBool (s.valid (kReg 2)) ++
  BitVec.ofBool (s.valid (kReg 1)) ++ BitVec.ofBool (s.valid (kReg 0))

/-- STATUS as the host reads it (R28, R65); EWIN_V and EWOUT_V are views (R33). -/
def State.statusWord (s : State) : Word :=
  s.aluReason ++ s.kv ++ 0#4 ++ s.errCode.bits ++ 0#1 ++ BitVec.ofBool s.ovr ++
  BitVec.ofBool s.ewout.isSome ++ BitVec.ofBool s.ewin.isSome ++ BitVec.ofBool s.ctrWrap ++
  BitVec.ofBool s.err ++ BitVec.ofBool s.done ++ BitVec.ofBool s.busy

/-- CTRL as the host reads it: bits 31:2 read 0 (R27, R65). -/
def State.ctrlWord (s : State) : Word := 0#30 ++ BitVec.ofBool s.ieErr ++ BitVec.ofBool s.ieDone

/-- A host write to CTRL (R27, R66). -/
def State.writeCtrl (v : Word) (s : State) : State :=
  { s with ieDone := v.getLsbD 0, ieErr := v.getLsbD 1 }

/-- A host write of `v` to STATUS (R38): write 1 to clear, each bit by itself; every other bit of `v` is
ignored. Clearing ERR clears ERRCODE and ALU_REASON with it (R31), the recovery of 60_exceptions.md R281. -/
def State.writeStatus (v : Word) (s : State) : State :=
  { s with
    done := if v.getLsbD 1 then false else s.done
    err := if v.getLsbD 2 then false else s.err
    errCode := if v.getLsbD 2 then .none else s.errCode
    aluReason := if v.getLsbD 2 then 0#8 else s.aluReason
    ctrWrap := if v.getLsbD 3 then false else s.ctrWrap
    ovr := if v.getLsbD 6 then false else s.ovr }

/-- CTRINC's flag: set when the incremented counter is 0, never cleared by a command (R32, R244). -/
def wrapFlag (old : Bool) (newCounter : Word) : Bool := old || newCounter == 0#32

/-- The interrupt output, evaluated continuously (R283). -/
def State.irq (s : State) : Bool := (s.done && s.ieDone) || (s.err && s.ieErr)

end Sys2Proof.Machine
end

