-- ==== Sys2Proof/Machine/Ops.lean ====
section
/-! DEFINITION. The operations every command shares: submission, accept, the checks, immediate and ALU
execution, completion and error completion (spec 40_command_lifecycle.md R120 to R137, 60_exceptions.md R270
to R282), the block's and the ALU's steps (R126, R132, R136, 43_round_ops.md R221), and reset
(70_reset_and_hazards.md R310). -/

namespace Sys2Proof.Machine

/-- A dropped command sets OVR and changes nothing else (R34, R121). -/
def State.drop (s : State) : State := { s with ovr := true }

/-- The accept actions of R122, with `l` the values sampled; the sequencer starts afresh. -/
def State.accept (v : Word) (l : Latches) (s : State) : State :=
  { s with done := false, cur := some v, latch := some l, todo := [], pending := [] }

/-- Successful completion (R129). -/
def State.completeOk (s : State) : State := { s with busy := false, done := true, cur := none }

/-- Error completion with code `c` and ALU reason `r` (R130), the "trap entry" of R280: nothing is saved,
there is no handler and no mode; outstanding requests are abandoned (R132). -/
def State.completeFailed (c : ErrCode) (r : BitVec 8) (s : State) : State :=
  { s with busy := false, done := true, err := true, errCode := c, aluReason := r, cur := none,
           todo := [], pending := [] }

/-- A check failure completes in the accept step; ALU_REASON stays 0 (R124, R130). -/
def State.failCheck (c : ErrCode) (s : State) : State := s.completeFailed c 0#8

/-- The checks of R123 in their order; the first that fails gives its code (R279). The first two are the
decoder's (30_encoding.md R108). -/
def State.firstFailure (i : Instr) (l : Latches) (s : State) : Option ErrCode :=
  if !i.selOk then some .illegalCmd
  else if !i.regsOk then some .badReg
  else if needsKey i && !(kRegs.all s.valid) then some .keyIncomplete
  else if needsEwin i && l.ewin.isNone then some .ewinEmpty
  else if !((sourceSet i).all s.valid) then some .uninitRead
  else none

/-- Submission of the command `i` (R120 to R124): dropped while BUSY or ERR, else accepted, checked and run
by `run`, which gets the latched values and the accepted state. -/
def State.submit (i : Instr) (run : Latches → State → State) (s : State) : State :=
  if s.busy || s.err then s.drop
  else
    let l := s.sample
    let t := s.accept (encode i) l
    match t.firstFailure i l with
    | some c => t.failCheck c
    | none => run l t

/-- An immediate command (R125): its whole pseudocode and its completion, in the accept step. -/
def State.immediate (i : Instr) (body : Latches → State → State) (s : State) : Result :=
  .next (s.submit i fun l t => (body l t).completeOk)

/-- An ALU command (R126): the accept step sets BUSY; execution goes on in later block steps, which issue the
requests of `lines`. `pre` is what the pseudocode does without a request (INIT's key copies, log 9). -/
def State.aluCommand (i : Instr) (lines : List Line) (pre : State → State) (s : State) : Result :=
  .next (s.submit i fun _ t => { pre t with busy := true, todo := lines })

/-- Two register lists share no register. -/
def disjoint (xs ys : List Nat) : Bool := xs.all fun x => !ys.contains x

/-- The lines of two stages may overlap: not where both stand in double rounds and in different halves, for
the diagonals come after the columns and "the 10 double-rounds are strictly sequential" (R137, R221). -/
def mayOverlap (a b : Option Nat) : Bool :=
  match a, b with
  | some m, some n => m == n
  | some _, none => true
  | none, some _ => true
  | none, none => true

/-- Whether the request of `ln` may be issued while the earlier lines `before` are not yet issued and
`pend` are outstanding: its operands are final under the canonical order (R221), its destinations are
free of every earlier line, so that overlap changes no value (log 7), and no earlier half of a double round is
unfinished (R137, R221). -/
def independent (ln : Line) (before : List Line) (pend : List Pending) : Bool :=
  (before.all fun b => disjoint b.dsts ln.srcs && disjoint b.dsts ln.dsts && disjoint b.srcs ln.dsts &&
    mayOverlap b.stage ln.stage) &&
  (pend.all fun p => disjoint p.dsts ln.srcs && disjoint p.dsts ln.dsts && mayOverlap p.stage ln.stage)

/-- The outstanding request of the line `ln`, not yet answered (R46, R126). -/
def Line.pend (ln : Line) (tag : Nat) (req : AluRequest) : Pending :=
  { tag := tag, dsts := ln.dsts, req := req, answer := none, stage := ln.stage }

/-- With one lane the requests are issued in exactly the canonical order (R220); a later line than the next
may come first only where there are more (R221). -/
def State.mayChoose (s : State) (k : Nat) : Bool := k == 0 || decide (1 < s.params.aluLanes)

/-- Block step: issue the request of the k-th line not yet issued (R126, R136, R220, R221). Where that is no
step of the block (idle, no such line, out of order with one lane, all lanes in use, operands not final)
nothing happens. DESIGN CHOICE (log 14): a request the ALU has answered holds its lane until the block
receives the answer; R46 says "issued and not yet had answered", R136 makes the answer and its receipt two
steps. -/
def State.issue (k : Nat) (s : State) : Result :=
  match s.todo[k]? with
  | none => .next s
  | some ln =>
    if s.busy && s.mayChoose k && decide (s.pending.length < s.params.aluLanes) &&
        independent ln (s.todo.take k) s.pending then
      match s.request ln with
      | .error f => .fault f
      | .ok req =>
        .next { s with
          todo := s.todo.eraseIdx k
          pending := s.pending ++ [ln.pend s.nextTag req]
          nextTag := s.nextTag + 1 }
    else .next s

/-- What the ALU's contract allows as an answer: any `Ok` or `Err` (R153), but no `Ok` to ENC where
`P_ENC_AVAILABLE` is false (R154). -/
def permitted (p : Params) (req : AluRequest) (a : AluAnswer) : Bool :=
  match req, a with
  | .enc _, .ok _ => p.encAvailable
  | .enc _, .err _ => true
  | .bin _ _ _, _ => true
  | .rotl _ _, _ => true
  | .rotr _ _, _ => true

/-- ALU step: answer the outstanding request `tag` (R136). An answer to a request that is not outstanding,
or has been answered, changes nothing (R132, 70 R312); one the contract does not allow is no step of the ALU
(log 10). -/
def State.aluAnswer (tag : Nat) (a : AluAnswer) (s : State) : State :=
  { s with pending := s.pending.map fun p =>
      if p.tag == tag && p.answer.isNone && permitted s.params p.req a then { p with answer := some a }
      else p }

/-- An ALU failure (R132): the destination set of the command is invalidated and it completes with
ALU_ERROR and the reason; requests still outstanding are abandoned. -/
def State.failAlu (r : AluReason) (s : State) : State :=
  { s with regs := writeEws s.regs s.curDests none }.completeFailed .aluError r.code

/-- The command completes in the step in which its pseudocode ends (R126, R134): nothing is left to issue
and every request issued has been answered. -/
def State.completeIfEnded (s : State) : State :=
  if s.todo.isEmpty && s.pending.isEmpty then s.completeOk else s

/-- Block step: receive the answer of the outstanding request `tag` (R126, R136). Where there is none to
receive nothing happens. -/
def State.receive (tag : Nat) (s : State) : State :=
  match s.pending.find? (fun p => p.tag == tag) with
  | none => s
  | some p =>
    match p.answer with
    | none => s
    | some (.err r) => s.failAlu r
    | some (.ok e) =>
      { s with
        regs := writeEws s.regs p.dsts (some e)
        pending := s.pending.filter fun q => !(q.tag == tag) }.completeIfEnded

/-- What the block does next when no agent outside moves: receive the oldest answer given, else issue the
next request in canonical order (R220). -/
def State.blockStep (s : State) : Result :=
  match s.pending.find? (fun p => p.answer.isSome) with
  | some p => .next (s.receive p.tag)
  | none => s.issue 0

/-- The reset input (R310): every piece of the instance's state takes its reset value in one step. The ALU is
not reset (R311); the parameters are the implementation's; request tags are not used again (R312); what the
outside does next is not the instance's state. -/
def State.resetInput (s : State) : State :=
  { State.resetWith s.params with nextTag := s.nextTag, env := s.env }

end Sys2Proof.Machine
end

