-- ==== Sys2Proof/Machine/RoundOps.lean ====
section
/-! DEFINITION. The round commands (spec 43_round_ops.md R210 to R216): their pseudocode as lists of lines
in canonical order (R220), and their meanings. -/

namespace Sys2Proof.Machine

/-- `S[a] <- ALU!(ADD(S[a], S[b])); S[d] <- ALU!(XOR(S[d], S[a])); S[d] <- ALU!(ROTL(S[d], n))`, a quarter of
R210's lines. -/
def quarterLines (a b d : Nat) (n : BitVec 5) : List Line :=
  [ { dsts := [sReg a], op := .bin .add (sReg a) (sReg b) },
    { dsts := [sReg d], op := .bin .xor (sReg d) (sReg a) },
    { dsts := [sReg d], op := .rotl (sReg d) n } ]

/-- QR-body: the 12 lines of R210. -/
def qrLines (a b c d : Nat) : List Line :=
  quarterLines a b d 16#5 ++ quarterLines c d b 12#5 ++ quarterLines a b d 8#5 ++ quarterLines c d b 7#5

/-- QR-body on each of four quadruples, as the lines of one half of a double round (R211, R221). -/
def halfLines (stage : Nat) (quads : List (Nat × Nat × Nat × Nat)) : List Line :=
  quads.flatMap fun (a, b, c, d) => (qrLines a b c d).map fun ln => { ln with stage := some stage }

/-- DROUND-body: QR-body on the columns, then on the diagonals (R211), as double round `r` of its command. -/
def droundLines (r : Nat) : List Line :=
  halfLines (2 * r) columnQuads ++ halfLines (2 * r + 1) diagonalQuads

/-- "repeat 10 times: DROUND-body" (R215, R216). -/
def roundsLines : List Line := (List.range 10).flatMap droundLines

/-- FF-body (R212). -/
def ffLines : List Line :=
  (List.range 16).map fun i => { dsts := [sReg i], op := .bin .add (sReg i) (iReg i) }

/-- INIT's encryption of the word selector `sel` names, to state word `i` and its snapshot (R213). -/
def initLine (i : Nat) (sel : BitVec 4) : Line := { dsts := [sReg i, iReg i], op := .enc sel }

/-- The 8 requests of INIT-body (R213): the constants, the counter, the nonce words. -/
def initLines : List Line :=
  [ initLine 0 0#4, initLine 1 1#4, initLine 2 2#4, initLine 3 3#4,
    initLine 12 4#4, initLine 13 5#4, initLine 14 6#4, initLine 15 7#4 ]

/-- INIT's key copies `S[4+j] <- K[j]; I[4+j] <- K[j]` (R213): no request, the same handle. -/
def keyCopies : List (Nat × Nat) :=
  (List.range 8).flatMap fun j => [(sReg (4 + j), kReg j), (iReg (4 + j), kReg j)]

/-- The part of INIT-body that issues no request. DEDUCED from R133 (log 9): done in the accept step. -/
def State.copyKeys (s : State) : State := { s with regs := copyEws s.regs keyCopies }

/-- SNAP's copies `I[i] <- S[i]` (R214). -/
def snapCopies : List (Nat × Nat) := (List.range 16).map fun i => (iReg i, sReg i)

/-- QR qa, qb, qc, qd (R210); the indices need not be distinct. -/
def execQr (qa qb qc qd : SIndex) (s : State) : Result :=
  s.aluCommand (.qr qa qb qc qd) (qrLines qa.toNat qb.toNat qc.toNat qd.toNat) id

/-- DROUND (R211). -/
def execDround (s : State) : Result := s.aluCommand .dround (droundLines 0) id

/-- FF (R212). -/
def execFf (s : State) : Result := s.aluCommand .ff ffLines id

/-- INIT (R213). -/
def execInit (s : State) : Result := s.aluCommand .init initLines State.copyKeys

/-- SNAP (R214): immediate. -/
def execSnap (s : State) : Result :=
  s.immediate .snap fun _ t => { t with regs := copyEws t.regs snapCopies }

/-- BLOCK (R215): INIT-body, ten DROUND-bodies, FF-body. -/
def execBlock (s : State) : Result :=
  s.aluCommand .block (initLines ++ roundsLines ++ ffLines) State.copyKeys

/-- MIX (R216): ten DROUND-bodies, FF-body. -/
def execMix (s : State) : Result := s.aluCommand .mix (roundsLines ++ ffLines) id

end Sys2Proof.Machine
end

