-- ==== Sys2Proof/Machine/TransferControl.lean ====
section
/-! DEFINITION. The transfer and control commands (spec 44_transfer_control.md R240 to R246): immediate, no
ALU request. -/

namespace Sys2Proof.Machine

/-- NOP (R240). -/
def execNop (s : State) : Result := s.immediate .nop fun _ t => t

/-- MOV rd, ra (R241): the same handle in both registers. -/
def execMov (rd ra : RegNum) (s : State) : Result :=
  s.immediate (.mov rd ra) fun _ t => { t with regs := copyEws t.regs [(rd.toNat, ra.toNat)] }

/-- LDX rd (R242): EWIN as latched at accept; EWIN stays valid. -/
def execLdx (rd : RegNum) (s : State) : Result :=
  s.immediate (.ldx rd) fun l t => { t with regs := writeEw t.regs rd.toNat l.ewin }

/-- STX ra (R243). -/
def execStx (ra : RegNum) (s : State) : Result :=
  s.immediate (.stx ra) fun _ t => { t with ewout := t.reg ra.toNat }

/-- CTRINC (R244): the latched counter plus 1 mod 2^32. -/
def execCtrinc (s : State) : Result :=
  s.immediate .ctrinc fun l t =>
    { t with counter := l.counter + 1#32, ctrWrap := wrapFlag t.ctrWrap (l.counter + 1#32) }

/-- CLRS (R245): S, I and T hold no value. -/
def execClrs (s : State) : Result :=
  s.immediate .clrs fun _ t => { t with regs := writeEws t.regs (sRegs ++ iRegs ++ tRegs) none }

/-- CLRK (R246): K holds no value. -/
def execClrk (s : State) : Result :=
  s.immediate .clrk fun _ t => { t with regs := writeEws t.regs kRegs none }

end Sys2Proof.Machine
end

