-- ==== Sys2Proof/Machine/WordOps.lean ====
section
/-! DEFINITION. The word commands (spec 41_word_ops.md R160 to R166): one ALU request each. -/

namespace Sys2Proof.Machine

/-- The one line of a word command: `e <- ALU!(op); R[rd] <- e`. -/
def wordLine (rd : RegNum) (op : LineOp) : List Line := [{ dsts := [rd.toNat], op := op }]

/-- ADD rd, ra, rb (R160). -/
def execAdd (rd ra rb : RegNum) (s : State) : Result :=
  s.aluCommand (.add rd ra rb) (wordLine rd (.bin .add ra.toNat rb.toNat)) id

/-- XOR rd, ra, rb (R161). -/
def execXor (rd ra rb : RegNum) (s : State) : Result :=
  s.aluCommand (.xor rd ra rb) (wordLine rd (.bin .xor ra.toNat rb.toNat)) id

/-- AND rd, ra, rb (R162). -/
def execAnd (rd ra rb : RegNum) (s : State) : Result :=
  s.aluCommand (.and rd ra rb) (wordLine rd (.bin .and ra.toNat rb.toNat)) id

/-- OR rd, ra, rb (R163). -/
def execOr (rd ra rb : RegNum) (s : State) : Result :=
  s.aluCommand (.or rd ra rb) (wordLine rd (.bin .or ra.toNat rb.toNat)) id

/-- ROTL rd, ra, #n (R164); amount 0 still issues its request. -/
def execRotl (rd ra : RegNum) (sh : BitVec 5) (s : State) : Result :=
  s.aluCommand (.rotl rd ra sh) (wordLine rd (.rotl ra.toNat sh)) id

/-- ROTR rd, ra, #n (R165). -/
def execRotr (rd ra : RegNum) (sh : BitVec 5) (s : State) : Result :=
  s.aluCommand (.rotr rd ra sh) (wordLine rd (.rotr ra.toNat sh)) id

/-- ENC rd, sel (R166): the public word is read from the latches. -/
def execEnc (rd : RegNum) (sel : BitVec 4) (s : State) : Result :=
  s.aluCommand (.enc rd sel) (wordLine rd (.enc sel)) id

end Sys2Proof.Machine
end

