-- ==== Sys2Proof/Machine/Dispatch.lean ====
section
/-! DEFINITION. One arm per command, each a direct call of its meaning. -/

namespace Sys2Proof.Machine

def exec (i : Instr) (s : State) : Host.Outcome State Fault Refusal :=
  match i with
  | .nop => Sys2Proof.Machine.execNop s
  | .add rd ra rb => Sys2Proof.Machine.execAdd rd ra rb s
  | .xor rd ra rb => Sys2Proof.Machine.execXor rd ra rb s
  | .and rd ra rb => Sys2Proof.Machine.execAnd rd ra rb s
  | .or rd ra rb => Sys2Proof.Machine.execOr rd ra rb s
  | .rotl rd ra sh => Sys2Proof.Machine.execRotl rd ra sh s
  | .rotr rd ra sh => Sys2Proof.Machine.execRotr rd ra sh s
  | .mov rd ra => Sys2Proof.Machine.execMov rd ra s
  | .ldx rd => Sys2Proof.Machine.execLdx rd s
  | .stx ra => Sys2Proof.Machine.execStx ra s
  | .enc rd sel => Sys2Proof.Machine.execEnc rd sel s
  | .qr qa qb qc qd => Sys2Proof.Machine.execQr qa qb qc qd s
  | .dround => Sys2Proof.Machine.execDround s
  | .ff => Sys2Proof.Machine.execFf s
  | .init => Sys2Proof.Machine.execInit s
  | .snap => Sys2Proof.Machine.execSnap s
  | .block => Sys2Proof.Machine.execBlock s
  | .mix => Sys2Proof.Machine.execMix s
  | .ctrinc => Sys2Proof.Machine.execCtrinc s
  | .clrs => Sys2Proof.Machine.execClrs s
  | .clrk => Sys2Proof.Machine.execClrk s

end Sys2Proof.Machine
end

