-- ==== Sys2Proof/Machine/HostPort.lean ====
section
/-! DEFINITION. The host's side of one step: register reads and writes (spec 20_memory.md R62 to R68), the
encrypted-word port (R69, R70), and submission of a command word (40_command_lifecycle.md R120 to R124). -/

namespace Sys2Proof.Machine

/-- The value a read of the register at a mapped offset returns (R62, R65); `none` where nothing is mapped. -/
def State.readRegister (s : State) (off : Nat) : Option Word :=
  match off with
  | 0x00 => some s.params.idValue
  | 0x04 => some s.ctrlWord
  | 0x08 => some s.statusWord
  | 0x0C => some 0#32
  | 0x10 => some s.counter
  | 0x14 => some s.nonce0
  | 0x18 => some s.nonce1
  | 0x1C => some s.nonce2
  | 0x20 => some s.data
  | _ => none

/-- Submission of the command word `v` (R120, R121): a word written while BUSY or ERR is dropped undecoded;
a word that is no command is accepted and fails its check (R123 items 1 and 2); a command runs. -/
def State.submitWord (v : Word) (s : State) : Result :=
  if s.busy || s.err then .next s.drop
  else
    match decode v with
    | .command i => exec i s
    | .illegal => .next ((s.accept v s.sample).failCheck .illegalCmd)
    | .badReg => .next ((s.accept v s.sample).failCheck .badReg)

/-- A write of `v` to the register at a mapped offset (R62, R66); `none` where nothing is mapped. -/
def State.writeRegister (s : State) (off : Nat) (v : Word) : Option Result :=
  match off with
  | 0x00 => some (.next s)
  | 0x04 => some (.next (s.writeCtrl v))
  | 0x08 => some (.next (s.writeStatus v))
  | 0x0C => some (s.submitWord v)
  | 0x10 => some (.next { s with counter := v })
  | 0x14 => some (.next { s with nonce0 := v })
  | 0x18 => some (.next { s with nonce1 := v })
  | 0x1C => some (.next { s with nonce2 := v })
  | 0x20 => some (.next { s with data := v })
  | _ => none

/-- The response the host gets; it is no state of the block (log 4). -/
def State.respond (r : Response) (s : State) : State := { s with resp := r }

/-- An access the block performs: exactly 32 bits wide at a multiple of 4 (R63). -/
def accessOk (width off : Nat) : Bool := width == 32 && off % 4 == 0

/-- One host transaction (R63 to R70). A register access of another width or alignment, or to an unmapped
offset, gets a bus error and changes no state of the block (R63, R64); `EwGet` from an empty EWOUT gets a
port error (R70). -/
def State.hostStep (tx : HostTx) (s : State) : Result :=
  match tx with
  | .regRead width off =>
    if accessOk width off then
      match s.readRegister off with
      | some v => .next (s.respond (.data v))
      | none => .next (s.respond .busError)
    else .next (s.respond .busError)
  | .regWrite width off v =>
    if accessOk width off then
      match (s.respond .done).writeRegister off v with
      | some r => r
      | none => .next (s.respond .busError)
    else .next (s.respond .busError)
  | .ewPut e => .next ({ s with ewin := some e }.respond .done)
  | .ewGet =>
    match s.ewout with
    | some e => .next (s.respond (.ew e))
    | none => .next (s.respond .portError)

/-- The host transaction that submits a command word: `RegWrite(0x0C, v)` (R120). -/
def submission (v : Word) : HostTx := .regWrite 32 0x0C v

/-- One step of one agent (40_command_lifecycle.md R136), or the reset input. -/
def State.event (ev : Event) (s : State) : Result :=
  match ev with
  | .host tx => s.hostStep tx
  | .issue k => s.issue k
  | .alu tag a => .next (s.aluAnswer tag a)
  | .receive tag => .next (s.receive tag)
  | .reset => .next s.resetInput

/-- The next step: the agent `env` names next, or, where it names none, the block itself. -/
def State.advance (s : State) : Result :=
  match s.env with
  | [] => s.blockStep
  | ev :: rest => State.event ev { s with env := rest }

/-- The state whose next step is the host's submission of the command word `v` (log 13). -/
def State.submitNext (v : Word) (s : State) : State :=
  { s with env := .host (submission v) :: s.env }

/-- A register access as a byte-addressed host writes it (R71): the byte at offset + k carries bits 8k+7 to
8k of the value. -/
def registerBytes (v : Word) : List Byte := bytesOfWord v

end Sys2Proof.Machine
end

