-- ==== Sys2Proof/Machine/Step.lean ====
section
/-! DEFINITION. The step of one instance, and the state whose next step runs a given command word. -/

namespace Sys2Proof.Machine

/-- One step of the machine (spec 40_command_lifecycle.md R136). -/
def step (s : State) : Host.Outcome State Fault Refusal := s.advance

/-- `s` with the command word `w` submitted by the host in its very next step (R120, log 13). A command is
one 32-bit word (30_encoding.md R90), so `nbits` says nothing more. -/
def State.withFetchWord (s : State) (_nbits w : Nat) : State := s.submitNext (BitVec.ofNat 32 w)

end Sys2Proof.Machine
end

