-- ==== Sys2Proof/Machine/Assembler.lean ====
section
/-! DEFINITION. The assembler's pseudo-instructions and their expansions (spec 30_encoding.md R110), and the
text of a command (R109). Notation only: the machine sees command words. -/

namespace Sys2Proof.Machine

/-- The pseudo-instructions of R110; `c` is in 0..3. -/
inductive Pseudo where
  | qrcol (c : Fin 4)
  | qrdiag (c : Fin 4)
  | rounds
  | clrall
  deriving DecidableEq, Repr

/-- The expansions of R110. -/
def Pseudo.expand : Pseudo → List Instr
  | .qrcol c =>
    [.qr (.ofNat 4 c) (.ofNat 4 (c + 4)) (.ofNat 4 (c + 8)) (.ofNat 4 (c + 12))]
  | .qrdiag c =>
    [.qr (.ofNat 4 c) (.ofNat 4 (4 + (c + 1) % 4)) (.ofNat 4 (8 + (c + 2) % 4))
      (.ofNat 4 (12 + (c + 3) % 4))]
  | .rounds => List.replicate 10 .dround
  | .clrall => [.clrs, .clrk]

/-- An EW register by its alias, or `R<n>` for a number that has none (R100, R109). -/
def regName (n : RegNum) : String :=
  let k := n.toNat
  if k < 16 then "S" ++ toString k
  else if k < 32 then "I" ++ toString (k - 16)
  else if k < 40 then "K" ++ toString (k - 32)
  else if k < 48 then "T" ++ toString (k - 40)
  else "R" ++ toString k

/-- The selector names of R98. -/
def selName (sel : BitVec 4) : String :=
  match sel.toNat with
  | 0 => "CONST0"
  | 1 => "CONST1"
  | 2 => "CONST2"
  | 3 => "CONST3"
  | 4 => "COUNTER"
  | 5 => "NONCE0"
  | 6 => "NONCE1"
  | 7 => "NONCE2"
  | 8 => "DATA"
  | k => toString k

/-- Operands after a mnemonic, separated by commas. -/
def asmLine (mnemonic : String) (operands : List String) : String :=
  match operands with
  | [] => mnemonic
  | o :: os => os.foldl (fun t u => t ++ ", " ++ u) (mnemonic ++ " " ++ o)

/-- The assembler text of a command (R109): capitals, destination first. -/
def asmText : Instr → String
  | .nop => "NOP"
  | .add rd ra rb => asmLine "ADD" [regName rd, regName ra, regName rb]
  | .xor rd ra rb => asmLine "XOR" [regName rd, regName ra, regName rb]
  | .and rd ra rb => asmLine "AND" [regName rd, regName ra, regName rb]
  | .or rd ra rb => asmLine "OR" [regName rd, regName ra, regName rb]
  | .rotl rd ra sh => asmLine "ROTL" [regName rd, regName ra, "#" ++ toString sh.toNat]
  | .rotr rd ra sh => asmLine "ROTR" [regName rd, regName ra, "#" ++ toString sh.toNat]
  | .mov rd ra => asmLine "MOV" [regName rd, regName ra]
  | .ldx rd => asmLine "LDX" [regName rd]
  | .stx ra => asmLine "STX" [regName ra]
  | .enc rd sel => asmLine "ENC" [regName rd, selName sel]
  | .qr qa qb qc qd =>
    asmLine "QR" [toString qa.toNat, toString qb.toNat, toString qc.toNat, toString qd.toNat]
  | .dround => "DROUND"
  | .ff => "FF"
  | .init => "INIT"
  | .snap => "SNAP"
  | .block => "BLOCK"
  | .mix => "MIX"
  | .ctrinc => "CTRINC"
  | .clrs => "CLRS"
  | .clrk => "CLRK"

end Sys2Proof.Machine
end

