-- ==== Sys2Proof/Machine/System.lean ====
section
/-! DEFINITION. Several instances (spec 20_memory.md R81, 60_exceptions.md R294, R295,
40_command_lifecycle.md R136): `P_INSTANCES` states side by side, no state shared, each with its own host
transactions and ALU answers; a schedule says which instance steps next (log 2). -/

namespace Sys2Proof.Machine

/-- The instances, BLOCK[0] first, and the order in which they step. -/
structure System where
  insts : List State
  sched : List Nat
  deriving DecidableEq, Repr

/-- Instances start together at reset (R294), all with the parameters `p`. -/
def System.resetWith (p : Params) : System :=
  { insts := List.replicate p.instances (State.resetWith p), sched := [] }

/-- One step of the instance the schedule names next; with none named, or a number that is no instance's,
no instance steps. -/
def System.step (y : System) : Host.Outcome System Fault Refusal :=
  match y.sched with
  | [] => .next y
  | k :: rest =>
    match y.insts[k]? with
    | none => .next { y with sched := rest }
    | some s =>
      match Machine.step s with
      | .next t => .next { insts := y.insts.set k t, sched := rest }
      | .fault f => .fault f
      | .refused r => .refused r

/-- `n` steps of the whole, stopping where an instance stops. -/
def System.run : Nat → System → Host.Outcome System Fault Refusal
  | 0, y => .next y
  | n + 1, y =>
    match y.step with
    | .next z => System.run n z
    | .fault f => .fault f
    | .refused r => .refused r

end Sys2Proof.Machine
end

