-- ==== Sys2Proof/Safety.lean ====
section
/-! DEFINITION. The terms claims are stated in: decryption and the ALU's laws (spec 41_word_ops.md R150 to
R157), runs of the machine under any ALU and any order of steps, the invariants of 10_state.md R49, and the
renaming of ciphertexts by which "a model must not compare EW values" (R156) becomes a claim. -/

namespace Sys2Proof.Machine

/-! ### Decryption and the ALU's laws -/

/-- What a claim assumes of the encryption scheme: `dec`, decryption under the session SecretKey (R9), and
which encrypted words are ciphertexts under the session key (R157). The machine uses neither. -/
structure Scheme where
  dec : EW → Word
  session : EW → Prop

/-- The cleartext operation of R150. -/
def BinOp.apply : BinOp → Word → Word → Word
  | .add, x, y => x + y
  | .xor, x, y => x ^^^ y
  | .and, x, y => x &&& y
  | .or, x, y => x ||| y

/-- The encrypted operands of a request. -/
def AluRequest.operands : AluRequest → List EW
  | .bin _ a b => [a, b]
  | .rotl a _ => [a]
  | .rotr a _ => [a]
  | .enc _ => []

/-- What an `Ok` answer decrypts to: R150, R151, R152. -/
def AluRequest.value (dec : EW → Word) : AluRequest → Word
  | .bin op a b => op.apply (dec a) (dec b)
  | .rotl a n => rotl32 (dec a) n.toNat
  | .rotr a n => rotr32 (dec a) n.toNat
  | .enc v => v

/-- An ALU as a claim sees it: an answer for each request, by its tag, so that equal requests may get
different answers (R156). -/
abbrev Alu := Nat → AluRequest → AluAnswer

/-- Every encrypted word of an `Ok` answer is a ciphertext under the session key, whatever the operands
(R157); and the laws R150 to R152 hold for operands that are such ciphertexts. Failures are not restricted
(R153). -/
def LawfulAlu (h : Scheme) (alu : Alu) : Prop :=
  ∀ tag req e, alu tag req = .ok e →
    h.session e ∧ ((∀ x ∈ req.operands, h.session x) → h.dec e = req.value h.dec)

/-- An ALU that answers every request `Ok`, with any ciphertexts. -/
def okAlu (ans : Nat → AluRequest → EW) : Alu := fun tag req => .ok (ans tag req)

/-- S0..S15 hold session ciphertexts of the block `x`; likewise I0..I15 and the eight key words. -/
def State.holdsS (h : Scheme) (s : State) (x : Block) : Prop :=
  ∀ i : Fin 16, ∃ e, s.reg (sReg i) = some e ∧ h.session e ∧ h.dec e = x[i]
def State.holdsI (h : Scheme) (s : State) (x : Block) : Prop :=
  ∀ i : Fin 16, ∃ e, s.reg (iReg i) = some e ∧ h.session e ∧ h.dec e = x[i]
def State.holdsK (h : Scheme) (s : State) (k : Vector Word 8) : Prop :=
  ∀ j : Fin 8, ∃ e, s.reg (kReg j) = some e ∧ h.session e ∧ h.dec e = k[j]

/-- NONCE0..2 as the vector the reference cipher takes. -/
def State.nonce (s : State) : Vector Word 3 := #v[s.nonce0, s.nonce1, s.nonce2]

/-! ### Runs under any ALU and any order of steps -/

/-- A choice of which agent steps next (R136, D2): the block issues the k-th line not yet issued, the ALU
answers the j-th outstanding request, the block receives the j-th one's answer, the host does `tx`. -/
inductive Move where
  | issue (k : Nat)
  | answer (j : Nat)
  | receive (j : Nat)
  | host (tx : HostTx)
  deriving DecidableEq, Repr

/-- The event a choice is in a given state, the answers being `alu`'s. -/
def Move.event (alu : Alu) (m : Move) (s : State) : Option Event :=
  match m with
  | .issue k => some (.issue k)
  | .answer j => (s.pending[j]?).map fun p => .alu p.tag (alu p.tag p.req)
  | .receive j => (s.pending[j]?).map fun p => .receive p.tag
  | .host tx => some (.host tx)

/-- The machine's own steps under a list of choices. -/
def play (alu : Alu) : List Move → State → Result
  | [], s => .next s
  | m :: ms, s =>
    match m.event alu s with
    | none => play alu ms s
    | some ev =>
      match step { s with env := [ev] } with
      | .next t => play alu ms t
      | .fault f => .fault f
      | .refused r => .refused r

/-- The canonical order with one lane (R220): each request is issued after the previous answer. -/
def canonical (n : Nat) : List Move := (List.replicate n [.issue 0, .answer 0, .receive 0]).flatten

/-- A write to CMD: a 32-bit write to offset 0x0C (R39). -/
def HostTx.submits : HostTx → Bool
  | .regWrite width off _ => width == 32 && off == 0x0C
  | .regRead _ _ | .ewPut _ | .ewGet => false

/-- No choice of the list submits a command. -/
def noSubmission (ms : List Move) : Prop := ∀ tx, .host tx ∈ ms → tx.submits = false

/-- No choice of the list clears the error (R38: a write to STATUS with bit 2 set). -/
def noErrorClear (ms : List Move) : Prop :=
  ∀ width off v, .host (.regWrite width off v) ∈ ms → off = 0x08 → v.getLsbD 2 = false

/-- ALU requests by kind (43_round_ops.md R219). -/
structure RequestTally where
  add : Nat
  xor : Nat
  and : Nat
  or : Nat
  rotl : Nat
  rotr : Nat
  enc : Nat
  deriving DecidableEq, Repr

/-- The requests of each command by kind, as R219 counts them; DROUND's 96 are eight times QR's. -/
def requestTally : Instr → RequestTally
  | .add _ _ _ => ⟨1, 0, 0, 0, 0, 0, 0⟩
  | .xor _ _ _ => ⟨0, 1, 0, 0, 0, 0, 0⟩
  | .and _ _ _ => ⟨0, 0, 1, 0, 0, 0, 0⟩
  | .or _ _ _ => ⟨0, 0, 0, 1, 0, 0, 0⟩
  | .rotl _ _ _ => ⟨0, 0, 0, 0, 1, 0, 0⟩
  | .rotr _ _ _ => ⟨0, 0, 0, 0, 0, 1, 0⟩
  | .enc _ _ => ⟨0, 0, 0, 0, 0, 0, 1⟩
  | .qr _ _ _ _ => ⟨4, 4, 0, 0, 4, 0, 0⟩
  | .dround => ⟨32, 32, 0, 0, 32, 0, 0⟩
  | .ff => ⟨16, 0, 0, 0, 0, 0, 0⟩
  | .init => ⟨0, 0, 0, 0, 0, 0, 8⟩
  | .block => ⟨336, 320, 0, 0, 320, 0, 8⟩
  | .mix => ⟨336, 320, 0, 0, 320, 0, 0⟩
  | .nop | .mov _ _ | .ldx _ | .stx _ | .snap | .ctrinc | .clrs | .clrk => ⟨0, 0, 0, 0, 0, 0, 0⟩

/-- The requests a list of lines will issue, by kind. -/
def tally (ls : List Line) : RequestTally :=
  let count (p : LineOp → Bool) : Nat := ls.countP fun ln => p ln.op
  { add := count fun o => match o with | .bin .add _ _ => true | _ => false
    xor := count fun o => match o with | .bin .xor _ _ => true | _ => false
    and := count fun o => match o with | .bin .and _ _ => true | _ => false
    or := count fun o => match o with | .bin .or _ _ => true | _ => false
    rotl := count fun o => match o with | .rotl _ _ => true | _ => false
    rotr := count fun o => match o with | .rotr _ _ => true | _ => false
    enc := count fun o => match o with | .enc _ => true | _ => false }

/-- `t` is the state right after an ALU command `i` was accepted in `s` (R122, R126): busy, the command in
CUR, the latches sampled, no request issued yet, and every register the host can read as it was. -/
def State.accepts (s : State) (i : Instr) (t : State) : Prop :=
  t = { s with busy := true, done := false, cur := some (encode i), latch := some s.sample,
               regs := t.regs, todo := t.todo, pending := [] }

/-- The state in which a command that was accepted in `s` has completed successfully (R129), with the
register file `f`, after `n` ALU requests: every other field is as in `s`. -/
def State.finished (s : State) (f : EwFile) (n : Nat) : State :=
  { s with regs := f, busy := false, done := true, cur := none, latch := some s.sample,
           todo := [], pending := [], nextTag := s.nextTag + n }

/-- A state with nothing scheduled, as `play` leaves it. -/
def State.unscheduled (s : State) : State := { s with env := [] }

/-- The state in which a command that was accepted in `s` has failed the check `c` (R124, R130): STATUS is
all that tells it from `s`, but for the latches. -/
def State.checkFailed (s : State) (c : ErrCode) : State :=
  { s with busy := false, done := true, err := true, errCode := c, aluReason := 0#8, cur := none,
           latch := some s.sample, todo := [], pending := [] }

/-! ### Invariants -/

/-- The STATUS invariants of R49 and R35: BUSY with no error, ERRCODE and ALU_REASON with ERR, and an idle
instance with no command and no outstanding request (R46). -/
def State.StatusInv (s : State) : Prop :=
  (s.busy = true → s.err = false ∧ s.done = false ∧ s.errCode = .none ∧ s.aluReason = 0#8) ∧
  (s.err = false → s.errCode = .none ∧ s.aluReason = 0#8) ∧
  (s.err = true → s.errCode ≠ .none) ∧
  (s.aluReason ≠ 0#8 → s.errCode = .aluError) ∧
  (s.busy = false → s.pending = [] ∧ s.cur = none)

/-- The sequencer (R45, R46): never more than `P_ALU_LANES` requests outstanding, each with its own tag, all
issued before `nextTag`; a command in progress is held in CUR with its latches and is not yet ended. A
request is outstanding until its answer is received (log 14). -/
def State.SeqInv (s : State) : Prop :=
  s.pending.length ≤ s.params.aluLanes ∧
  (s.pending.map Pending.tag).Nodup ∧
  (∀ p ∈ s.pending, p.tag < s.nextTag) ∧
  (s.busy = true → s.cur.isSome = true ∧ s.latch.isSome = true ∧ (s.todo ≠ [] ∨ s.pending ≠ []))

/-- A line's ENC selector names a public word (R98). -/
def Line.selectorOk (ln : Line) : Bool :=
  match ln.op with
  | .enc sel => decide (sel.toNat ≤ 8)
  | .bin _ _ _ | .rotl _ _ | .rotr _ _ => true

/-- Run in canonical order from the registers `valid` holds, no line reads a register without a value. -/
def ready (valid : Nat → Bool) : List Line → Bool
  | [] => true
  | ln :: rest =>
    ln.srcs.all valid && ln.selectorOk && ln.dsts.all (fun d => decide (d < 48)) &&
      ready (fun n => valid n || ln.dsts.contains n) rest

/-- The command in progress reads only registers that hold a value by the time they are read, and writes
only its destination set (R131, R132). -/
def State.DataInv (s : State) : Prop :=
  s.busy = true →
    ready (fun n => s.valid n || s.pending.any fun p => p.dsts.contains n) s.todo = true ∧
    (∀ p ∈ s.pending, ∀ d ∈ p.dsts, d < 48 ∧ d ∈ s.curDests) ∧
    (∀ ln ∈ s.todo, ∀ d ∈ ln.dsts, d ∈ s.curDests)

/-- Stage `a` is not a later half of the double rounds than stage `b`. -/
def stageLe (a b : Option Nat) : Bool :=
  match a, b with
  | some m, some n => decide (m ≤ n)
  | some _, none => true
  | none, some _ => true
  | none, none => true

/-- The halves of the double rounds are strictly sequential (R137, R221): no two requests outstanding at once
are of different halves, what is outstanding is of no later half than what is still to be issued, and that
stands in the order of the halves. -/
def State.RoundInv (s : State) : Prop :=
  (∀ p ∈ s.pending, ∀ q ∈ s.pending, mayOverlap p.stage q.stage = true) ∧
  (∀ p ∈ s.pending, ∀ ln ∈ s.todo, stageLe p.stage ln.stage = true) ∧
  s.todo.Pairwise fun a b => stageLe a.stage b.stage = true

/-- The invariant of the machine. It says nothing of the free field `env`. -/
def State.Inv (s : State) : Prop := s.StatusInv ∧ s.SeqInv ∧ s.DataInv ∧ s.RoundInv

/-! ### Renaming ciphertexts -/

/-- The same, with every encrypted word replaced by its image under `f`. -/
def AluRequest.mapEw (f : EW → EW) : AluRequest → AluRequest
  | .bin op a b => .bin op (f a) (f b)
  | .rotl a n => .rotl (f a) n
  | .rotr a n => .rotr (f a) n
  | .enc v => .enc v
def AluAnswer.mapEw (f : EW → EW) : AluAnswer → AluAnswer
  | .ok e => .ok (f e)
  | .err r => .err r
def Pending.mapEw (f : EW → EW) (p : Pending) : Pending :=
  { p with req := p.req.mapEw f, answer := p.answer.map (AluAnswer.mapEw f) }
def Latches.mapEw (f : EW → EW) (l : Latches) : Latches := { l with ewin := l.ewin.map f }
def HostTx.mapEw (f : EW → EW) : HostTx → HostTx
  | .regRead width off => .regRead width off
  | .regWrite width off v => .regWrite width off v
  | .ewPut e => .ewPut (f e)
  | .ewGet => .ewGet
def Response.mapEw (f : EW → EW) : Response → Response
  | .ew e => .ew (f e)
  | .none => .none
  | .data v => .data v
  | .done => .done
  | .busError => .busError
  | .portError => .portError
def Event.mapEw (f : EW → EW) : Event → Event
  | .host tx => .host (tx.mapEw f)
  | .issue k => .issue k
  | .alu tag a => .alu tag (a.mapEw f)
  | .receive tag => .receive tag
  | .reset => .reset
def State.mapEw (f : EW → EW) (s : State) : State :=
  { s with
    regs := s.regs.map (Option.map f)
    ewin := s.ewin.map f
    ewout := s.ewout.map f
    latch := s.latch.map (Latches.mapEw f)
    pending := s.pending.map (Pending.mapEw f)
    env := s.env.map (Event.mapEw f)
    resp := s.resp.mapEw f }

/-- A result with its next state replaced by its image. -/
def mapNext (g : State → State) : Result → Result
  | .next t => .next (g t)
  | .fault r => .fault r
  | .refused r => .refused r

end Sys2Proof.Machine
end

