-- ==== Sys2Proof/Certificates/Slice0/Obligations.lean ====
section
/-! DEFINITION. The statements for the provers, from the numbered rules of the spec. "Idle" below means BUSY
= 0 and ERR = 0, the states in which a command is accepted (40_command_lifecycle.md R121); a statement about
an ALU command says that `exec` accepts it and then, under every ALU that answers `Ok` (`okAlu`), where the
block's and the ALU's own steps take it (`play`). -/

open Sys2Proof Sys2Proof.Machine

/-! ### Encoding -/

/-- 95_test_vectors.md 3.1 and 3.2: words written out from the formats, one or more for each family. -/
def Obligations.SpecWordsDecode : Prop :=
  decode 0x06aa2900#32 = .command (.add 42 40 41) ∧
  decode 0x0adaec00#32 = .command (.xor 45 43 44) ∧
  decode 0x0efba900#32 = .command (.and 47 46 41) ∧
  decode 0x16ba401f#32 = .command (.rotl 43 41 31) ∧
  decode 0x2a800008#32 = .command (.enc 40 8) ∧
  decode 0x4000278d#32 = .command (.qr 2 7 8 13) ∧
  decode 0x54000000#32 = .command .block ∧
  decode 0x1cf4c000#32 = .command (.mov 15 19) ∧
  decode 0x22f00000#32 = .command (.ldx 47) ∧
  decode 0x240bc000#32 = .command (.stx 47) ∧
  decode 0x60000000#32 = .command .ctrinc ∧
  decode 0x070a2800#32 = .badReg ∧ decode 0x070a2801#32 = .illegal

/-- Decoding the word of any well-formed command gives that command, every operand at every value. -/
def Obligations.DecodeOfEncode : Prop :=
  ∀ i : Instr, i.wf = true → decode (encode i) = .command i

/-- A word that decodes to a command is that command's word: no bit of it is ignored (R104). -/
def Obligations.EncodeOfDecode : Prop :=
  ∀ (w : Word) (i : Instr), decode w = .command i → encode i = w ∧ i.wf = true

/-- R103: a reserved opcode fails with ILLEGAL_CMD at accept and changes nothing but STATUS (and the
latches, which R122 samples at every accept). What the latches hold after a command is unobservable (log
11). -/
def Obligations.ReservedOpcodesFailIllegal : Prop :=
  ∀ (w : Word) (s : State) (rest : List Event),
    ((0x0B ≤ (field.opc w).toNat ∧ (field.opc w).toNat ≤ 0x0F) ∨ (field.opc w).toNat = 0x17 ∨
      0x1B ≤ (field.opc w).toNat) →
    s.busy = false → s.err = false → s.env = .host (submission w) :: rest →
    decode w = .illegal ∧
    step s = .next { s.checkFailed .illegalCmd with env := rest, resp := .done }

/-- R104: a defined opcode with a must-be-zero bit set is ILLEGAL_CMD, format by format (R92 to R99). -/
def Obligations.MustBeZeroBitsAreIllegal : Prop :=
  ∀ (w : Word),
    ((field.opc w).toNat ∈ [0x00, 0x11, 0x12, 0x13, 0x14, 0x15, 0x16, 0x18, 0x19, 0x1A] →
      w.extractLsb' 0 26 ≠ 0#26 → decode w = .illegal) ∧
    ((field.opc w).toNat ∈ [0x01, 0x02, 0x03, 0x04] → w.extractLsb' 0 8 ≠ 0#8 → decode w = .illegal) ∧
    ((field.opc w).toNat ∈ [0x05, 0x06] → w.extractLsb' 5 9 ≠ 0#9 → decode w = .illegal) ∧
    ((field.opc w).toNat = 0x07 → w.extractLsb' 0 14 ≠ 0#14 → decode w = .illegal) ∧
    ((field.opc w).toNat = 0x08 → w.extractLsb' 0 20 ≠ 0#20 → decode w = .illegal) ∧
    ((field.opc w).toNat = 0x09 → (w.extractLsb' 20 6 ≠ 0#6 ∨ w.extractLsb' 0 14 ≠ 0#14) →
      decode w = .illegal) ∧
    ((field.opc w).toNat = 0x0A → w.extractLsb' 4 16 ≠ 0#16 → decode w = .illegal) ∧
    ((field.opc w).toNat = 0x10 → w.extractLsb' 16 10 ≠ 0#10 → decode w = .illegal)

/-- R105 and R106: ENC with a selector in 9..15 is ILLEGAL_CMD; a word whose other checks pass and whose
rd, ra or rb names 48..63 is BAD_REG. -/
def Obligations.OperandChecksOfDecode : Prop :=
  (∀ w : Word, (field.opc w).toNat = 0x0A → 9 ≤ (field.sel w).toNat → decode w = .illegal) ∧
  (∀ i : Instr, i.selOk = true → (∃ n ∈ i.regFields, 48 ≤ n.toNat) → decode (encode i) = .badReg)

/-- No word matches two rows of the opcode map (R102). -/
def Obligations.OpcodeRowsDisjoint : Prop :=
  ∀ r₁ ∈ opcodeMap, ∀ r₂ ∈ opcodeMap, ∀ w : Word,
    w &&& r₁.mask = r₁.pattern → w &&& r₂.mask = r₂.pattern → r₁.opc = r₂.opc

/-! ### Reset -/

/-- R48: the state after reset, at every value of the parameters; `State.reset` is the one at the defaults of
R9. -/
def Obligations.ResetValues : Prop :=
  State.reset = State.resetWith Params.default ∧
  ∀ p : Params,
    (∀ n, (State.resetWith p).reg n = none) ∧ (State.resetWith p).ewin = none ∧
    (State.resetWith p).ewout = none ∧ (State.resetWith p).readRegister 0x00 = some p.idValue ∧
    (State.resetWith p).ctrlWord = 0x00000000#32 ∧ (State.resetWith p).statusWord = 0x00000000#32 ∧
    (State.resetWith p).counter = (if p.counterResetOne then 1#32 else 0#32) ∧
    (State.resetWith p).nonce0 = 0x00000000#32 ∧ (State.resetWith p).nonce1 = 0x00000000#32 ∧
    (State.resetWith p).nonce2 = 0x00000000#32 ∧ (State.resetWith p).data = 0x00000000#32 ∧
    (State.resetWith p).cur = none ∧ (State.resetWith p).latch = none ∧
    (State.resetWith p).pending = [] ∧ (State.resetWith p).irq = false

/-- R310: the reset input, at any time and in any state, puts every piece of state into its reset value in
one step. -/
def Obligations.ResetInputResets : Prop :=
  ∀ (s : State) (rest : List Event), s.env = .reset :: rest →
    ∃ t, step s = .next t ∧ (∀ n, t.reg n = none) ∧ t.ewin = none ∧ t.ewout = none ∧
      t.ctrlWord = 0#32 ∧ t.statusWord = 0#32 ∧
      t.counter = (if s.params.counterResetOne then 1#32 else 0#32) ∧
      t.nonce0 = 0#32 ∧ t.nonce1 = 0#32 ∧ t.nonce2 = 0#32 ∧ t.data = 0#32 ∧
      t.cur = none ∧ t.latch = none ∧ t.todo = [] ∧ t.pending = [] ∧
      t.busy = false ∧ t.irq = false ∧ t.params = s.params

/-- R312: after reset an answer to a request abandoned by it changes nothing but the schedule, whenever it
arrives: every request the instance has outstanding later has another tag. The tags are the model's
equivalent of the reset epoch R312 asks for (log 5). -/
def Obligations.StaleAnswersDiscarded : Prop :=
  ∀ (s : State) (n : Nat) (u : State), s.Inv → Host.Core.run core n s.resetInput = .next u →
    ∀ p ∈ s.pending, ∀ a : AluAnswer, u.aluAnswer p.tag a = u

/-! ### The invariant -/

/-- The invariant holds after reset, for every value of the parameters. -/
def Obligations.ResetMeetsInvariant : Prop := ∀ p : Params, (State.resetWith p).Inv

/-- Every step of every agent keeps the invariant: the STATUS relations of R49 and R35, at most
`P_ALU_LANES` outstanding requests with tags of their own (R46; outstanding until received, log 14), a command
that reads only held values and writes only its destination set, and double rounds that are strictly
sequential, columns before diagonals: no request of a later half is outstanding beside one of an earlier half
or while one of an earlier half is still to be issued (R137, R221). -/
def Obligations.StepKeepsInvariant : Prop :=
  ∀ s t : State, s.Inv → step s = .next t → t.Inv

/-- From the invariant no step stops: no register without a value is read as a value (R12). -/
def Obligations.InvariantNeverStops : Prop := ∀ s : State, s.Inv → ∃ t, step s = .next t

/-- No step of any state is refused: every command has a meaning. -/
def Obligations.StepNeverRefuses : Prop := ∀ (s : State) (r : Refusal), step s ≠ .refused r

/-- No step changes the parameters, the ID register's value among them (R9, R26). -/
def Obligations.StepKeepsParameters : Prop :=
  ∀ s t : State, step s = .next t → t.params = s.params

/-! ### Submission, drop and the checks -/

/-- When the host submits a word that decodes to a command, the step is that command's `exec`, on the state
with the transaction taken from the schedule and answered. The schedule `env` and the response `resp` are
the model's (logs 1 and 4). -/
def Obligations.StepRunsDecodedCommand : Prop :=
  ∀ (s : State) (rest : List Event) (v : Word) (i : Instr),
    s.env = .host (.regWrite 32 0x0C v) :: rest → decode v = .command i →
    step s = exec i { s with env := rest, resp := .done }

/-- R121, R34: a word written while BUSY or ERR is dropped, whatever it is: OVR is set and nothing else
changes; and so does every command's `exec`. -/
def Obligations.BusyOrErrorDrops : Prop :=
  ∀ (s : State), s.busy = true ∨ s.err = true →
    (∀ i : Instr, exec i s = .next { s with ovr := true }) ∧
    (∀ (v : Word) (rest : List Event), s.env = .host (.regWrite 32 0x0C v) :: rest →
      step s = .next { s with ovr := true, env := rest, resp := .done })

/-- R271, R272: a word that decodes to Illegal, or to BadReg, is accepted and fails at once with ILLEGAL_CMD,
or BAD_REG; nothing but STATUS and the latches changes. -/
def Obligations.BadWordsFail : Prop :=
  ∀ (v : Word) (s : State) (rest : List Event), s.busy = false → s.err = false →
    s.env = .host (.regWrite 32 0x0C v) :: rest →
    (decode v = .illegal →
      step s = .next { s.checkFailed .illegalCmd with env := rest, resp := .done }) ∧
    (decode v = .badReg → step s = .next { s.checkFailed .badReg with env := rest, resp := .done })

/-- R123 items 1 and 2, R124: a command with a reserved selector or register fails at accept. -/
def Obligations.OperandChecksFail : Prop :=
  ∀ (i : Instr) (s : State), s.busy = false → s.err = false →
    (i.selOk = false → exec i s = .next (s.checkFailed .illegalCmd)) ∧
    (i.selOk = true → i.regsOk = false → exec i s = .next (s.checkFailed .badReg))

/-- R273: INIT and BLOCK fail before any request where STATUS.KV is not 0xFF. -/
def Obligations.KeyIncompleteFails : Prop :=
  ∀ s : State, s.busy = false → s.err = false → s.kv ≠ 0xFF#8 →
    exec .init s = .next (s.checkFailed .keyIncomplete) ∧
    exec .block s = .next (s.checkFailed .keyIncomplete)

/-- R123 item 4, R275: LDX with nothing in EWIN fails; the destination is unchanged. -/
def Obligations.EmptyEwinFails : Prop :=
  ∀ (s : State) (rd : RegNum), s.busy = false → s.err = false → rd.toNat < 48 → s.ewin = none →
    exec (.ldx rd) s = .next (s.checkFailed .ewinEmpty)

/-- R123 item 5, R127, R274: a command one of whose source registers holds no value fails with UNINIT_READ
and changes no register. -/
def Obligations.UninitReadFails : Prop :=
  ∀ (s : State), s.busy = false → s.err = false →
    (∀ rd ra rb : RegNum, rd.toNat < 48 → ra.toNat < 48 → rb.toNat < 48 →
      (s.reg ra.toNat = none ∨ s.reg rb.toNat = none) →
      exec (.add rd ra rb) s = .next (s.checkFailed .uninitRead) ∧
      exec (.xor rd ra rb) s = .next (s.checkFailed .uninitRead) ∧
      exec (.and rd ra rb) s = .next (s.checkFailed .uninitRead) ∧
      exec (.or rd ra rb) s = .next (s.checkFailed .uninitRead)) ∧
    (∀ (rd ra : RegNum) (sh : BitVec 5), rd.toNat < 48 → ra.toNat < 48 → s.reg ra.toNat = none →
      exec (.rotl rd ra sh) s = .next (s.checkFailed .uninitRead) ∧
      exec (.rotr rd ra sh) s = .next (s.checkFailed .uninitRead) ∧
      exec (.mov rd ra) s = .next (s.checkFailed .uninitRead) ∧
      exec (.stx ra) s = .next (s.checkFailed .uninitRead)) ∧
    (∀ qa qb qc qd : SIndex,
      (s.reg qa.toNat = none ∨ s.reg qb.toNat = none ∨ s.reg qc.toNat = none ∨ s.reg qd.toNat = none) →
      exec (.qr qa qb qc qd) s = .next (s.checkFailed .uninitRead)) ∧
    ((∃ j < 16, s.reg j = none) →
      exec .dround s = .next (s.checkFailed .uninitRead) ∧
      exec .snap s = .next (s.checkFailed .uninitRead)) ∧
    ((∃ j < 32, s.reg j = none) →
      exec .ff s = .next (s.checkFailed .uninitRead) ∧
      exec .mix s = .next (s.checkFailed .uninitRead))

/-! ### The immediate commands -/

/-- R240, R244: NOP completes and changes nothing else; CTRINC writes the counter plus 1 mod 2^32 and sets
CTRWRAP where that is 0. -/
def Obligations.NopAndCtrincComplete : Prop :=
  ∀ s : State, s.busy = false → s.err = false →
    exec .nop s = .next (s.finished s.regs 0) ∧
    exec .ctrinc s = .next { s.finished s.regs 0 with
      counter := s.counter + 1#32
      ctrWrap := if s.counter = 0xFFFFFFFF#32 then true else s.ctrWrap }

/-- R241, R242: MOV and LDX write one register, with the very handle of the source; EWIN stays. -/
def Obligations.MovAndLdxComplete : Prop :=
  ∀ (s : State) (rd ra : RegNum) (e : EW), s.busy = false → s.err = false →
    rd.toNat < 48 → ra.toNat < 48 →
    (s.reg ra.toNat = some e → ∃ f, exec (.mov rd ra) s = .next (s.finished f 0) ∧
      ∀ n, readEw f n = if n = rd.toNat then some e else s.reg n) ∧
    (s.ewin = some e → ∃ f, exec (.ldx rd) s = .next (s.finished f 0) ∧
      ∀ n, readEw f n = if n = rd.toNat then some e else s.reg n)

/-- R243: STX writes EWOUT and nothing else. -/
def Obligations.StxCompletes : Prop :=
  ∀ (s : State) (ra : RegNum) (e : EW), s.busy = false → s.err = false →
    ra.toNat < 48 → s.reg ra.toNat = some e →
    exec (.stx ra) s = .next { s.finished s.regs 0 with ewout := some e }

/-- R245, R246: CLRS invalidates S, I and T and keeps K; CLRK invalidates K, so that KV reads 0x00, and keeps
the others. -/
def Obligations.ClearsComplete : Prop :=
  ∀ s : State, s.busy = false → s.err = false →
    (∃ f, exec .clrs s = .next (s.finished f 0) ∧
      ∀ n, readEw f n = if 32 ≤ n ∧ n < 40 then s.reg n else none) ∧
    (∃ f, exec .clrk s = .next (s.finished f 0) ∧
      (∀ n, readEw f n = if 32 ≤ n ∧ n < 40 then none else s.reg n) ∧
      (s.finished f 0).kv = 0x00#8)

/-- R214: SNAP copies S to I, handle by handle, in its accept step. -/
def Obligations.SnapCompletes : Prop :=
  ∀ s : State, s.busy = false → s.err = false → (∀ j < 16, (s.reg j).isSome = true) →
    ∃ f, exec .snap s = .next (s.finished f 0) ∧
      ∀ n, readEw f n = if 16 ≤ n ∧ n < 32 then s.reg (n - 16) else s.reg n

/-! ### The word commands -/

/-- R160 to R163, R150: ADD, XOR, AND and OR are accepted, issue one request and write the ALU's answer to rd
alone; it is a ciphertext under the session key, whatever the sources were (R157), and where they were, its
decryption is the sum mod 2^32, exclusive-or, and, or of theirs as they stood at accept. -/
def Obligations.BinaryWordCommandsComplete : Prop :=
  ∀ (h : Scheme) (ans : Nat → AluRequest → EW) (s : State) (rd ra rb : RegNum) (x y : EW),
    s.busy = false → s.err = false → 1 ≤ s.params.aluLanes →
    rd.toNat < 48 → ra.toNat < 48 → rb.toNat < 48 →
    s.reg ra.toNat = some x → s.reg rb.toNat = some y →
    ∀ c ∈ [(Instr.add rd ra rb, BinOp.add, h.dec x + h.dec y),
           (Instr.xor rd ra rb, BinOp.xor, h.dec x ^^^ h.dec y),
           (Instr.and rd ra rb, BinOp.and, h.dec x &&& h.dec y),
           (Instr.or rd ra rb, BinOp.or, h.dec x ||| h.dec y)],
      ∃ t f, exec c.1 s = .next t ∧ s.accepts c.1 t ∧ t.regs = s.regs ∧
        play (okAlu ans) (canonical 1) t = .next (s.finished f 1).unscheduled ∧
        (∀ n, readEw f n = if n = rd.toNat then some (ans s.nextTag (.bin c.2.1 x y)) else s.reg n) ∧
        (LawfulAlu h (okAlu ans) → h.session (ans s.nextTag (.bin c.2.1 x y)) ∧
          (h.session x → h.session y → h.dec (ans s.nextTag (.bin c.2.1 x y)) = c.2.2))

/-- R164, R165, R151: ROTL and ROTR by the command's amount, amount 0 included, write rd alone, with a
ciphertext under the session key (R157). -/
def Obligations.RotationsComplete : Prop :=
  ∀ (h : Scheme) (ans : Nat → AluRequest → EW) (s : State) (rd ra : RegNum) (sh : BitVec 5) (x : EW),
    s.busy = false → s.err = false → 1 ≤ s.params.aluLanes →
    rd.toNat < 48 → ra.toNat < 48 → s.reg ra.toNat = some x →
    ∀ c ∈ [(Instr.rotl rd ra sh, AluRequest.rotl x sh, (h.dec x).rotateLeft sh.toNat),
           (Instr.rotr rd ra sh, AluRequest.rotr x sh, (h.dec x).rotateRight sh.toNat)],
      ∃ t f, exec c.1 s = .next t ∧ s.accepts c.1 t ∧ t.regs = s.regs ∧
        play (okAlu ans) (canonical 1) t = .next (s.finished f 1).unscheduled ∧
        (∀ n, readEw f n = if n = rd.toNat then some (ans s.nextTag c.2.1) else s.reg n) ∧
        (LawfulAlu h (okAlu ans) → h.session (ans s.nextTag c.2.1) ∧
          (h.session x → h.dec (ans s.nextTag c.2.1) = c.2.2))

/-- R166, R98, R152: ENC encrypts the word its selector names, a constant or a cleartext register as latched
at accept, into rd alone. Rests on the constant words the spec marks as general knowledge (log 12). -/
def Obligations.EncCompletes : Prop :=
  ∀ (h : Scheme) (ans : Nat → AluRequest → EW) (s : State) (rd : RegNum) (sel : BitVec 4) (v : Word),
    s.busy = false → s.err = false → 1 ≤ s.params.aluLanes → s.params.encAvailable = true →
    rd.toNat < 48 →
    [(0, 0x61707865#32), (1, 0x3320646e#32), (2, 0x79622d32#32), (3, 0x6b206574#32), (4, s.counter),
      (5, s.nonce0), (6, s.nonce1), (7, s.nonce2), (8, s.data)].lookup sel.toNat = some v →
    ∃ t f, exec (.enc rd sel) s = .next t ∧ s.accepts (.enc rd sel) t ∧ t.regs = s.regs ∧
      play (okAlu ans) (canonical 1) t = .next (s.finished f 1).unscheduled ∧
      (∀ n, readEw f n = if n = rd.toNat then some (ans s.nextTag (.enc v)) else s.reg n) ∧
      (LawfulAlu h (okAlu ans) →
        h.session (ans s.nextTag (.enc v)) ∧ h.dec (ans s.nextTag (.enc v)) = v)

/-- R154: with `P_ENC_AVAILABLE` false, ENC, INIT and BLOCK never succeed, whatever the ALU answers and in
whatever order the agents step: once the command is over, its destination set holds no value, and ERRCODE is
ALU_ERROR unless the host has cleared it. An `Ok` to ENC is then no step of the ALU (log 10). -/
def Obligations.EncUnavailableNeverSucceeds : Prop :=
  ∀ (alu : Alu) (ms : List Move) (s t u : State) (i : Instr),
    s.busy = false → s.err = false → s.params.encAvailable = false →
    ((∃ rd sel, i = .enc rd sel) ∨ i = .init ∨ i = .block) →
    exec i s = .next t → t.busy = true → noSubmission ms → play alu ms t = .next u →
    u.busy = true ∨
      (∀ n ∈ destSet i, u.reg n = none) ∧ (noErrorClear ms → u.err = true ∧ u.errCode = .aluError)

/-! ### The round commands -/

/-- R210: QR is accepted, issues 12 requests and completes; only the four S registers it names change, and S
then decrypts to `qr` of what it decrypted to, for any four indices, equal ones included. -/
def Obligations.QrCompletes : Prop :=
  ∀ (h : Scheme) (ans : Nat → AluRequest → EW) (s : State) (qa qb qc qd : SIndex),
    s.busy = false → s.err = false → 1 ≤ s.params.aluLanes →
    (∀ j ∈ [qa, qb, qc, qd], (s.reg j.toNat).isSome = true) →
    ∃ t f, exec (.qr qa qb qc qd) s = .next t ∧ s.accepts (.qr qa qb qc qd) t ∧ t.regs = s.regs ∧
      play (okAlu ans) (canonical 12) t = .next (s.finished f 12).unscheduled ∧
      (∀ n, n ∉ [qa.toNat, qb.toNat, qc.toNat, qd.toNat] → readEw f n = s.reg n) ∧
      (∀ n ∈ [qa.toNat, qb.toNat, qc.toNat, qd.toNat], (readEw f n).isSome = true) ∧
      (∀ x : Block, LawfulAlu h (okAlu ans) → s.holdsS h x →
        (s.finished f 12).holdsS h (x.qr qa.toNat qb.toNat qc.toNat qd.toNat))

/-- R211: DROUND, 96 requests; S then decrypts to `dround` of what it decrypted to; nothing but S changes.
Rests on the constants and index quadruples the spec marks as general knowledge (log 12). -/
def Obligations.DroundCompletes : Prop :=
  ∀ (h : Scheme) (ans : Nat → AluRequest → EW) (s : State),
    s.busy = false → s.err = false → 1 ≤ s.params.aluLanes → (∀ j < 16, (s.reg j).isSome = true) →
    ∃ t f, exec .dround s = .next t ∧ s.accepts .dround t ∧ t.regs = s.regs ∧
      play (okAlu ans) (canonical 96) t = .next (s.finished f 96).unscheduled ∧
      (∀ n, 16 ≤ n → readEw f n = s.reg n) ∧ (∀ j < 16, (readEw f j).isSome = true) ∧
      (∀ x : Block, LawfulAlu h (okAlu ans) → s.holdsS h x → (s.finished f 96).holdsS h x.dround)

/-- R212: FF, 16 requests; each S[i] then decrypts to the sum mod 2^32 of what S[i] and I[i] decrypted to; I
and everything else is unchanged. -/
def Obligations.FfCompletes : Prop :=
  ∀ (h : Scheme) (ans : Nat → AluRequest → EW) (s : State),
    s.busy = false → s.err = false → 1 ≤ s.params.aluLanes → (∀ j < 32, (s.reg j).isSome = true) →
    ∃ t f, exec .ff s = .next t ∧ s.accepts .ff t ∧ t.regs = s.regs ∧
      play (okAlu ans) (canonical 16) t = .next (s.finished f 16).unscheduled ∧
      (∀ n, 16 ≤ n → readEw f n = s.reg n) ∧ (∀ j < 16, (readEw f j).isSome = true) ∧
      (∀ x x0 : Block, LawfulAlu h (okAlu ans) → s.holdsS h x → s.holdsI h x0 →
        (s.finished f 16).holdsS h (Vector.ofFn fun i => x[i] + x0[i]))

/-- R213: INIT, 8 requests; S and I receive the same ciphertexts, which decrypt to `init` of the key words,
the latched counter and the latched nonce; the key words are copied, K and T are unchanged. Rests on the
constant words the spec marks as general knowledge (log 12). -/
def Obligations.InitCompletes : Prop :=
  ∀ (h : Scheme) (ans : Nat → AluRequest → EW) (s : State),
    s.busy = false → s.err = false → 1 ≤ s.params.aluLanes → s.params.encAvailable = true →
    (∀ j < 8, (s.reg (32 + j)).isSome = true) →
    ∃ t f, exec .init s = .next t ∧ s.accepts .init t ∧
      play (okAlu ans) (canonical 8) t = .next (s.finished f 8).unscheduled ∧
      (∀ n, 32 ≤ n → readEw f n = s.reg n) ∧ (∀ j < 16, (readEw f j).isSome = true) ∧
      (∀ j < 16, readEw f (16 + j) = readEw f j) ∧ (∀ j < 8, readEw f (4 + j) = s.reg (32 + j)) ∧
      (∀ k : Vector Word 8, LawfulAlu h (okAlu ans) → s.holdsK h k →
        (s.finished f 8).holdsS h (initBlock k s.counter s.nonce) ∧
        (s.finished f 8).holdsI h (initBlock k s.counter s.nonce))

/-- R215, R217, R222: BLOCK, 984 requests; S then decrypts to `chacha_block` of the key words, the latched
counter and the latched nonce, I to the initial state; K, T and every other register are unchanged. Rests on
the constants and index quadruples the spec marks as general knowledge (log 12). -/
def Obligations.BlockCompletes : Prop :=
  ∀ (h : Scheme) (ans : Nat → AluRequest → EW) (s : State),
    s.busy = false → s.err = false → 1 ≤ s.params.aluLanes → s.params.encAvailable = true →
    (∀ j < 8, (s.reg (32 + j)).isSome = true) →
    ∃ t f, exec .block s = .next t ∧ s.accepts .block t ∧
      play (okAlu ans) (canonical 984) t = .next (s.finished f 984).unscheduled ∧
      (∀ n, 32 ≤ n → readEw f n = s.reg n) ∧ (∀ j < 32, (readEw f j).isSome = true) ∧
      (∀ k : Vector Word 8, LawfulAlu h (okAlu ans) → s.holdsK h k →
        (s.finished f 984).holdsS h (chachaBlock k s.counter s.nonce) ∧
        (s.finished f 984).holdsI h (initBlock k s.counter s.nonce))

/-- R216: MIX, 976 requests; each S[i] then decrypts to x[i] plus what I[i] decrypts to, where x is ten
double rounds of what S decrypted to; I and everything else is unchanged. Rests on the constants and index
quadruples the spec marks as general knowledge (log 12). -/
def Obligations.MixCompletes : Prop :=
  ∀ (h : Scheme) (ans : Nat → AluRequest → EW) (s : State),
    s.busy = false → s.err = false → 1 ≤ s.params.aluLanes → (∀ j < 32, (s.reg j).isSome = true) →
    ∃ t f, exec .mix s = .next t ∧ s.accepts .mix t ∧ t.regs = s.regs ∧
      play (okAlu ans) (canonical 976) t = .next (s.finished f 976).unscheduled ∧
      (∀ n, 16 ≤ n → readEw f n = s.reg n) ∧ (∀ j < 16, (readEw f j).isSome = true) ∧
      (∀ x x0 : Block, LawfulAlu h (okAlu ans) → s.holdsS h x → s.holdsI h x0 →
        (s.finished f 976).holdsS h ((x.drounds 10).feedForward x0))

/-- R217 under every ALU, every number of lanes, every overlap the block may take and everything the host
does but submit another command: once BLOCK is over, S0..S15 decrypt to the words of `chacha_block`; or it
failed, S0..S15 hold no value, and ERR is 1 unless the host has cleared it. Rests on the constants and index
quadruples the spec marks as general knowledge (log 12). R217 is marked derived in the spec; the overlaps
are those of log 7. -/
def Obligations.BlockIsChaCha20OrNothing : Prop :=
  ∀ (h : Scheme) (alu : Alu) (ms : List Move) (s : State) (k : Vector Word 8),
    LawfulAlu h alu → s.busy = false → s.err = false → s.holdsK h k → noSubmission ms →
    ∃ t, exec .block s = .next t ∧ s.accepts .block t ∧
      ∀ u, play alu ms t = .next u →
        u.busy = true ∨ ((∀ j < 16, u.reg j = none) ∧ (noErrorClear ms → u.err = true)) ∨
          u.holdsS h (chachaBlock k s.counter s.nonce)

/-- R218 under every ALU and every order of steps: SNAP and then MIX on a loaded initial state leave
`chacha_block` of it in S; or MIX failed, and S holds no value. Rests on the constants and index quadruples
the spec marks as general knowledge (log 12). R218 is marked derived in the spec; the overlaps are those of
log 7. -/
def Obligations.SnapThenMixIsChaCha20OrNothing : Prop :=
  ∀ (h : Scheme) (alu : Alu) (ms : List Move) (s : State) (k : Vector Word 8) (c : Word)
    (n : Vector Word 3),
    LawfulAlu h alu → s.busy = false → s.err = false → s.holdsS h (initBlock k c n) → noSubmission ms →
    ∃ t t', exec .snap s = .next t ∧ exec .mix t = .next t' ∧ t.accepts .mix t' ∧
      ∀ u, play alu ms t' = .next u →
        u.busy = true ∨ ((∀ j < 16, u.reg j = none) ∧ (noErrorClear ms → u.err = true)) ∨
          u.holdsS h (chachaBlock k c n)

/-- R223: two successful BLOCKs from the same decrypted key words, counter and nonce, under whatever ALUs,
ciphertexts and orders of steps, give the same decrypted keystream. R223 is marked derived in the spec. -/
def Obligations.BlockIsDeterministicOnDecryptions : Prop :=
  ∀ (h : Scheme) (alu₁ alu₂ : Alu) (ms₁ ms₂ : List Move) (s₁ s₂ t₁ t₂ u₁ u₂ : State)
    (k : Vector Word 8),
    LawfulAlu h alu₁ → LawfulAlu h alu₂ → noSubmission ms₁ → noSubmission ms₂ →
    noErrorClear ms₁ → noErrorClear ms₂ →
    s₁.busy = false → s₁.err = false → s₂.busy = false → s₂.err = false →
    s₁.holdsK h k → s₂.holdsK h k → s₁.counter = s₂.counter → s₁.nonce = s₂.nonce →
    exec .block s₁ = .next t₁ → exec .block s₂ = .next t₂ →
    play alu₁ ms₁ t₁ = .next u₁ → play alu₂ ms₂ t₂ = .next u₂ →
    u₁.busy = false → u₁.err = false → u₂.busy = false → u₂.err = false →
    ∀ j < 16, ∃ e₁ e₂, u₁.reg j = some e₁ ∧ u₂.reg j = some e₂ ∧ h.dec e₁ = h.dec e₂

/-- R219: the ALU requests of every command, by kind: what an accepted ALU command has to issue, and that
any other submission leaves nothing to issue. R219 is marked derived in the spec. -/
def Obligations.RequestCounts : Prop :=
  ∀ (i : Instr) (s t : State), s.busy = false → s.err = false → exec i s = .next t →
    if t.busy = true then tally t.todo = requestTally i ∧
      t.todo.length = (requestTally i).add + (requestTally i).xor + (requestTally i).and +
        (requestTally i).or + (requestTally i).rotl + (requestTally i).rotr + (requestTally i).enc
    else t.todo = []

/-! ### ALU failure and the frame of a whole command -/

/-- R220: with one lane, a step that issues a request issues the request of the next line of the pseudocode,
with none outstanding, and that request is then the one outstanding. That a request is outstanding until its
answer is received is the model's choice (log 14). -/
def Obligations.OneLaneIssuesInOrder : Prop :=
  ∀ s t : State, s.params.aluLanes = 1 → step s = .next t → t.nextTag ≠ s.nextTag →
    s.pending = [] ∧ ∃ ln req, s.todo = ln :: t.todo ∧ s.request ln = .ok req ∧
      t.pending = [{ tag := s.nextTag, dsts := ln.dsts, req := req, answer := none, stage := ln.stage }]

/-- R132, R130: receiving an `Err(r)` ends the command: its destination set holds no value, every other
register keeps its own, no request is left to issue or outstanding, ERRCODE is ALU_ERROR and ALU_REASON is r;
and whenever an answer to a request that was outstanding arrives later, it changes nothing. -/
def Obligations.AluFailureInvalidates : Prop :=
  ∀ (s : State) (rest : List Event) (p : Pending) (i : Instr) (r : AluReason),
    s.Inv → s.env = .receive p.tag :: rest → p ∈ s.pending → p.answer = some (.err r) →
    s.cur = some (encode i) → i.wf = true →
    ∃ f t, step s = .next t ∧ t = { s with
        regs := f, busy := false, done := true, err := true, errCode := .aluError, aluReason := r.code,
        cur := none, todo := [], pending := [], env := rest } ∧
      (∀ n, readEw f n = if n ∈ destSet i then none else s.reg n) ∧
      ∀ (n : Nat) (u : State), Host.Core.run core n t = .next u →
        ∀ q ∈ s.pending, ∀ a : AluAnswer, u.aluAnswer q.tag a = u

/-- R131, R132, R51: whatever the ALU answers, in whatever order the agents step and whatever the host does
but submit another command, an ALU command changes no register outside its destination set; and when it is
over, either all of the destination set holds a value or none of it does. -/
def Obligations.CommandKeepsToDestinationSet : Prop :=
  ∀ (alu : Alu) (ms : List Move) (s t u : State) (i : Instr),
    s.busy = false → s.err = false → exec i s = .next t → t.busy = true → noSubmission ms →
    play alu ms t = .next u →
    (∀ n, n ∉ destSet i → u.reg n = s.reg n) ∧
    (u.busy = false →
      (∀ n ∈ destSet i, (u.reg n).isSome = true) ∨ (∀ n ∈ destSet i, u.reg n = none))

/-- R134, R326: as long as the ALU answers nothing more and no reset comes, a command whose outstanding
requests are unanswered never ends, and no step stops. -/
def Obligations.NoAnswerNoCompletion : Prop :=
  ∀ (s : State) (n : Nat), s.Inv → s.busy = true → (∀ p ∈ s.pending, p.answer = none) →
    (∀ ev ∈ s.env, (∀ tag a, ev ≠ .alu tag a) ∧ ev ≠ .reset) →
    ∃ u, Host.Core.run core n s = .next u ∧ u.busy = true ∧ u.cur = s.cur

/-! ### The host's transactions -/

/-- R65, R39: what a 32-bit read of each mapped register returns; no read changes anything else. -/
def Obligations.RegisterReads : Prop :=
  ∀ (s : State) (rest : List Event),
    ∀ c ∈ [(0x00, s.params.idValue),
           (0x04, 0#30 ++ BitVec.ofBool s.ieErr ++ BitVec.ofBool s.ieDone),
           (0x08, s.aluReason ++ s.kv ++ 0#4 ++ s.errCode.bits ++ 0#1 ++ BitVec.ofBool s.ovr ++
              BitVec.ofBool s.ewout.isSome ++ BitVec.ofBool s.ewin.isSome ++ BitVec.ofBool s.ctrWrap ++
              BitVec.ofBool s.err ++ BitVec.ofBool s.done ++ BitVec.ofBool s.busy),
           (0x0C, 0x00000000#32), (0x10, s.counter), (0x14, s.nonce0), (0x18, s.nonce1),
           (0x1C, s.nonce2), (0x20, s.data)],
      s.env = .host (.regRead 32 c.1) :: rest → step s = .next { s with env := rest, resp := .data c.2 }

/-- R28, R27, R33, R36, R65: the fields of STATUS and CTRL, bit by bit, with the six codes of R270 (0: no
error) in ERRCODE; reserved bits read 0. -/
def Obligations.StatusAndCtrlFields : Prop :=
  ∀ s : State,
    s.statusWord.getLsbD 0 = s.busy ∧ s.statusWord.getLsbD 1 = s.done ∧ s.statusWord.getLsbD 2 = s.err ∧
    s.statusWord.getLsbD 3 = s.ctrWrap ∧ s.statusWord.getLsbD 4 = s.ewin.isSome ∧
    s.statusWord.getLsbD 5 = s.ewout.isSome ∧ s.statusWord.getLsbD 6 = s.ovr ∧
    s.statusWord.getLsbD 7 = false ∧ s.statusWord.extractLsb' 8 4 = s.errCode.bits ∧
    s.statusWord.extractLsb' 12 4 = 0#4 ∧
    (∀ j < 8, s.statusWord.getLsbD (16 + j) = (s.reg (32 + j)).isSome) ∧
    s.statusWord.extractLsb' 24 8 = s.aluReason ∧
    s.ctrlWord.getLsbD 0 = s.ieDone ∧ s.ctrlWord.getLsbD 1 = s.ieErr ∧
    s.ctrlWord.extractLsb' 2 30 = 0#30 ∧
    (s.errCode = .none → s.statusWord.extractLsb' 8 4 = 0#4) ∧
    (s.errCode = .illegalCmd → s.statusWord.extractLsb' 8 4 = 1#4) ∧
    (s.errCode = .badReg → s.statusWord.extractLsb' 8 4 = 2#4) ∧
    (s.errCode = .keyIncomplete → s.statusWord.extractLsb' 8 4 = 3#4) ∧
    (s.errCode = .uninitRead → s.statusWord.extractLsb' 8 4 = 4#4) ∧
    (s.errCode = .ewinEmpty → s.statusWord.extractLsb' 8 4 = 5#4) ∧
    (s.errCode = .aluError → s.statusWord.extractLsb' 8 4 = 6#4)

/-- R66: 32-bit writes to every mapped register but STATUS and CMD; ID ignores them; they take effect at
once, BUSY or not. -/
def Obligations.RegisterWrites : Prop :=
  ∀ (s : State) (rest : List Event) (v : Word),
    (s.env = .host (.regWrite 32 0x00 v) :: rest → step s = .next { s with env := rest, resp := .done }) ∧
    (s.env = .host (.regWrite 32 0x04 v) :: rest → step s = .next { s with
      env := rest, resp := .done, ieDone := v.getLsbD 0, ieErr := v.getLsbD 1 }) ∧
    (s.env = .host (.regWrite 32 0x10 v) :: rest →
      step s = .next { s with env := rest, resp := .done, counter := v }) ∧
    (s.env = .host (.regWrite 32 0x14 v) :: rest →
      step s = .next { s with env := rest, resp := .done, nonce0 := v }) ∧
    (s.env = .host (.regWrite 32 0x18 v) :: rest →
      step s = .next { s with env := rest, resp := .done, nonce1 := v }) ∧
    (s.env = .host (.regWrite 32 0x1C v) :: rest →
      step s = .next { s with env := rest, resp := .done, nonce2 := v }) ∧
    (s.env = .host (.regWrite 32 0x20 v) :: rest →
      step s = .next { s with env := rest, resp := .done, data := v })

/-- R38, R281: a write to STATUS clears the bits written 1, ERR with ERRCODE and ALU_REASON, and nothing
else. -/
def Obligations.StatusWriteClears : Prop :=
  ∀ (s : State) (rest : List Event) (v : Word), s.env = .host (.regWrite 32 0x08 v) :: rest →
    step s = .next { s with
      env := rest, resp := .done
      done := s.done && !v.getLsbD 1
      err := s.err && !v.getLsbD 2
      errCode := if v.getLsbD 2 = true then .none else s.errCode
      aluReason := if v.getLsbD 2 = true then 0#8 else s.aluReason
      ctrWrap := s.ctrWrap && !v.getLsbD 3
      ovr := s.ovr && !v.getLsbD 6 }

/-- R63, R64: an access of another width, at an offset that is no multiple of 4, or above 0x20 gets an error
response, and no state of the block changes. -/
def Obligations.BadAccessChangesNothing : Prop :=
  ∀ (s : State) (rest : List Event) (width off : Nat) (v : Word),
    (width ≠ 32 ∨ off % 4 ≠ 0 ∨ 0x20 < off) →
    (s.env = .host (.regRead width off) :: rest → step s = .next { s with env := rest, resp := .busError }) ∧
    (s.env = .host (.regWrite width off v) :: rest →
      step s = .next { s with env := rest, resp := .busError })

/-- R69, R70: `EwPut` replaces EWIN at any time; `EwGet` returns EWOUT without consuming it, or a port
error and no word where EWOUT holds none. -/
def Obligations.PortTransfers : Prop :=
  ∀ (s : State) (rest : List Event) (e : EW),
    (s.env = .host (.ewPut e) :: rest →
      step s = .next { s with env := rest, resp := .done, ewin := some e }) ∧
    (s.env = .host .ewGet :: rest → s.ewout = some e →
      step s = .next { s with env := rest, resp := .ew e }) ∧
    (s.env = .host .ewGet :: rest → s.ewout = none →
      step s = .next { s with env := rest, resp := .portError })

/-- R283: the interrupt output. -/
def Obligations.InterruptOutput : Prop :=
  ∀ s : State, s.irq = true ↔ (s.done = true ∧ s.ieDone = true) ∨ (s.err = true ∧ s.ieErr = true)

/-- R76, R122: while BUSY nothing the host does touches the command in progress: EW registers, CUR, latches,
what is to be issued and what is outstanding stay, and it stays busy. -/
def Obligations.HostCannotDisturbRunningCommand : Prop :=
  ∀ (s : State) (tx : HostTx) (rest : List Event), s.busy = true → s.env = .host tx :: rest →
    ∃ t, step s = .next t ∧ t.busy = true ∧ t.regs = s.regs ∧ t.cur = s.cur ∧ t.latch = s.latch ∧
      t.todo = s.todo ∧ t.pending = s.pending ∧ t.nextTag = s.nextTag ∧ t.ewout = s.ewout

/-- R74, R45: while BUSY the host sees nothing of the EW registers but the key words' valid bits: two states
that differ only in the registers, with the same KV, answer every host transaction alike. -/
def Obligations.BusyHostSeesNoRegister : Prop :=
  ∀ (s : State) (f : EwFile) (tx : HostTx) (rest : List Event) (t t' : State),
    s.busy = true → s.env = .host tx :: rest → ({ s with regs := f } : State).kv = s.kv →
    step s = .next t → step { s with regs := f } = .next t' → t'.resp = t.resp ∧ t' = { t with regs := f }

/-! ### Whole-machine rules -/

/-- R156, R157: no step inspects a ciphertext: replacing every encrypted word in the state and in what the
outside supplies by its image under any function, and then stepping, is stepping and then replacing. -/
def Obligations.CiphertextsNeverInspected : Prop :=
  ∀ (f : EW → EW) (s : State), step (s.mapEw f) = mapNext (State.mapEw f) (step s)

/-- R74: EW registers change only during a command: a step that changes one is a step of the block receiving
an answer, a submission to an idle instance, or reset. -/
def Obligations.RegistersChangeOnlyInCommands : Prop :=
  ∀ s t : State, step s = .next t → t.regs ≠ s.regs →
    (s.env = [] ∧ s.pending ≠ []) ∨ (∃ tag rest, s.env = .receive tag :: rest ∧ s.pending ≠ []) ∨
    (∃ v rest, s.env = .host (.regWrite 32 0x0C v) :: rest ∧ s.busy = false ∧ s.err = false) ∨
    (∃ rest, s.env = .reset :: rest)

/-- R292, R32: COUNTER changes only by a host write to it, by an accepted CTRINC, or by reset; CTRWRAP is set
only by an accepted CTRINC that wraps. -/
def Obligations.CounterAndWrapRules : Prop :=
  ∀ s t : State, step s = .next t →
    (t.counter ≠ s.counter →
      (∃ v rest, s.env = .host (.regWrite 32 0x10 v) :: rest ∧ t.counter = v) ∨
      (∃ rest, s.env = .host (.regWrite 32 0x0C 0x60000000#32) :: rest ∧ s.busy = false ∧
        s.err = false ∧ t.counter = s.counter + 1#32) ∨
      (∃ rest, s.env = .reset :: rest)) ∧
    (s.ctrWrap = false → t.ctrWrap = true →
      ∃ rest, s.env = .host (.regWrite 32 0x0C 0x60000000#32) :: rest ∧ s.busy = false ∧
        s.err = false ∧ s.counter = 0xFFFFFFFF#32 ∧ t.counter = 0x00000000#32)

/-- R81, R137, R294: a step of one instance changes no other; and over any run of the whole, what an
instance has become is a run of that instance alone, whatever the others did (R295). The schedule is the
model's (log 2). -/
def Obligations.InstancesAreIsolated : Prop :=
  ∀ (n : Nat) (y z : System), System.run n y = .next z →
    z.insts.length = y.insts.length ∧
    ∀ (k : Nat) (s : State), y.insts[k]? = some s →
      ∃ t, z.insts[k]? = some t ∧ Host.Core.run core ((y.sched.take n).count k) s = .next t

/-! ### Notation -/

/-- R110: the expansions of the pseudo-instructions, and that DROUND's requests are those of QRCOL 0..3 and
then QRDIAG 0..3. Rests on the index quadruples the spec marks as general knowledge (log 12). -/
def Obligations.PseudoExpansions : Prop :=
  (Pseudo.qrcol 0).expand = [.qr 0 4 8 12] ∧ (Pseudo.qrcol 1).expand = [.qr 1 5 9 13] ∧
  (Pseudo.qrcol 2).expand = [.qr 2 6 10 14] ∧ (Pseudo.qrcol 3).expand = [.qr 3 7 11 15] ∧
  (Pseudo.qrdiag 0).expand = [.qr 0 5 10 15] ∧ (Pseudo.qrdiag 1).expand = [.qr 1 6 11 12] ∧
  (Pseudo.qrdiag 2).expand = [.qr 2 7 8 13] ∧ (Pseudo.qrdiag 3).expand = [.qr 3 4 9 14] ∧
  Pseudo.rounds.expand = List.replicate 10 .dround ∧ Pseudo.clrall.expand = [.clrs, .clrk] ∧
  (droundLines 0).map (fun ln => (ln.dsts, ln.op)) =
    (qrLines 0 4 8 12 ++ qrLines 1 5 9 13 ++ qrLines 2 6 10 14 ++ qrLines 3 7 11 15 ++
      qrLines 0 5 10 15 ++ qrLines 1 6 11 12 ++ qrLines 2 7 8 13 ++ qrLines 3 4 9 14).map
        fun ln => (ln.dsts, ln.op)

/-- R188, R189, R190, R71: key words, nonce words, keystream bytes and the bytes of a register are each the
little-endian reading the rules name, and words of bytes and bytes of words undo each other. The nonce's byte
order is what the spec marks as general knowledge (log 12). -/
def Obligations.LittleEndianWords : Prop :=
  (∀ (b0 b1 b2 b3 : Byte), (wordOfBytes b0 b1 b2 b3).toNat =
    b0.toNat + b1.toNat * 2 ^ 8 + b2.toNat * 2 ^ 16 + b3.toNat * 2 ^ 24) ∧
  (∀ w : Word, wordsOfBytes (bytesOfWord w) = [w]) ∧
  (∀ ws : List Word, wordsOfBytes (ws.flatMap bytesOfWord) = ws) ∧
  (∀ (key : Vector Byte 32) (j : Fin 8), (keyWords key)[j].toNat =
    key[4 * j.val].toNat + key[4 * j.val + 1].toNat * 2 ^ 8 + key[4 * j.val + 2].toNat * 2 ^ 16 +
      key[4 * j.val + 3].toNat * 2 ^ 24) ∧
  (∀ (nonce : Vector Byte 12) (j : Fin 3), (nonceWords nonce)[j].toNat =
    nonce[4 * j.val].toNat + nonce[4 * j.val + 1].toNat * 2 ^ 8 + nonce[4 * j.val + 2].toNat * 2 ^ 16 +
      nonce[4 * j.val + 3].toNat * 2 ^ 24) ∧
  (∀ x : Block, (keystreamBytes x).length = 64) ∧
  (∀ (x : Block) (i : Fin 16) (k : Fin 4),
    (keystreamBytes x)[4 * i.val + k.val]? = some (x[i].extractLsb' (8 * k.val) 8)) ∧
  (∀ (v : Word) (k : Fin 4), (registerBytes v)[k.val]? = some (v.extractLsb' (8 * k.val) 8))
end

