-- ==== Sys2Proof/Laws/State.lean ====
section
/-! SUPPORT. One lemma per field per update of the state, each true by rfl, so that no proof unfolds a record
update of the model's operations. -/

namespace Sys2Proof.Machine

/-! ### `State.drop` -/

@[simp] theorem State.drop_params (s : State) : s.drop.params = s.params := rfl
@[simp] theorem State.drop_regs (s : State) : s.drop.regs = s.regs := rfl
@[simp] theorem State.drop_ewin (s : State) : s.drop.ewin = s.ewin := rfl
@[simp] theorem State.drop_ewout (s : State) : s.drop.ewout = s.ewout := rfl
@[simp] theorem State.drop_ieDone (s : State) : s.drop.ieDone = s.ieDone := rfl
@[simp] theorem State.drop_ieErr (s : State) : s.drop.ieErr = s.ieErr := rfl
@[simp] theorem State.drop_busy (s : State) : s.drop.busy = s.busy := rfl
@[simp] theorem State.drop_done (s : State) : s.drop.done = s.done := rfl
@[simp] theorem State.drop_err (s : State) : s.drop.err = s.err := rfl
@[simp] theorem State.drop_ctrWrap (s : State) : s.drop.ctrWrap = s.ctrWrap := rfl
@[simp] theorem State.drop_ovr (s : State) : s.drop.ovr = true := rfl
@[simp] theorem State.drop_errCode (s : State) : s.drop.errCode = s.errCode := rfl
@[simp] theorem State.drop_aluReason (s : State) : s.drop.aluReason = s.aluReason := rfl
@[simp] theorem State.drop_counter (s : State) : s.drop.counter = s.counter := rfl
@[simp] theorem State.drop_nonce0 (s : State) : s.drop.nonce0 = s.nonce0 := rfl
@[simp] theorem State.drop_nonce1 (s : State) : s.drop.nonce1 = s.nonce1 := rfl
@[simp] theorem State.drop_nonce2 (s : State) : s.drop.nonce2 = s.nonce2 := rfl
@[simp] theorem State.drop_data (s : State) : s.drop.data = s.data := rfl
@[simp] theorem State.drop_cur (s : State) : s.drop.cur = s.cur := rfl
@[simp] theorem State.drop_latch (s : State) : s.drop.latch = s.latch := rfl
@[simp] theorem State.drop_todo (s : State) : s.drop.todo = s.todo := rfl
@[simp] theorem State.drop_pending (s : State) : s.drop.pending = s.pending := rfl
@[simp] theorem State.drop_nextTag (s : State) : s.drop.nextTag = s.nextTag := rfl
@[simp] theorem State.drop_env (s : State) : s.drop.env = s.env := rfl
@[simp] theorem State.drop_resp (s : State) : s.drop.resp = s.resp := rfl

/-! ### `State.accept` -/

@[simp] theorem State.accept_params (s : State) (v : Word) (l : Latches) : (s.accept v l).params = s.params := rfl
@[simp] theorem State.accept_regs (s : State) (v : Word) (l : Latches) : (s.accept v l).regs = s.regs := rfl
@[simp] theorem State.accept_ewin (s : State) (v : Word) (l : Latches) : (s.accept v l).ewin = s.ewin := rfl
@[simp] theorem State.accept_ewout (s : State) (v : Word) (l : Latches) : (s.accept v l).ewout = s.ewout := rfl
@[simp] theorem State.accept_ieDone (s : State) (v : Word) (l : Latches) : (s.accept v l).ieDone = s.ieDone := rfl
@[simp] theorem State.accept_ieErr (s : State) (v : Word) (l : Latches) : (s.accept v l).ieErr = s.ieErr := rfl
@[simp] theorem State.accept_busy (s : State) (v : Word) (l : Latches) : (s.accept v l).busy = s.busy := rfl
@[simp] theorem State.accept_done (s : State) (v : Word) (l : Latches) : (s.accept v l).done = false := rfl
@[simp] theorem State.accept_err (s : State) (v : Word) (l : Latches) : (s.accept v l).err = s.err := rfl
@[simp] theorem State.accept_ctrWrap (s : State) (v : Word) (l : Latches) : (s.accept v l).ctrWrap = s.ctrWrap := rfl
@[simp] theorem State.accept_ovr (s : State) (v : Word) (l : Latches) : (s.accept v l).ovr = s.ovr := rfl
@[simp] theorem State.accept_errCode (s : State) (v : Word) (l : Latches) : (s.accept v l).errCode = s.errCode := rfl
@[simp] theorem State.accept_aluReason (s : State) (v : Word) (l : Latches) : (s.accept v l).aluReason = s.aluReason := rfl
@[simp] theorem State.accept_counter (s : State) (v : Word) (l : Latches) : (s.accept v l).counter = s.counter := rfl
@[simp] theorem State.accept_nonce0 (s : State) (v : Word) (l : Latches) : (s.accept v l).nonce0 = s.nonce0 := rfl
@[simp] theorem State.accept_nonce1 (s : State) (v : Word) (l : Latches) : (s.accept v l).nonce1 = s.nonce1 := rfl
@[simp] theorem State.accept_nonce2 (s : State) (v : Word) (l : Latches) : (s.accept v l).nonce2 = s.nonce2 := rfl
@[simp] theorem State.accept_data (s : State) (v : Word) (l : Latches) : (s.accept v l).data = s.data := rfl
@[simp] theorem State.accept_cur (s : State) (v : Word) (l : Latches) : (s.accept v l).cur = some v := rfl
@[simp] theorem State.accept_latch (s : State) (v : Word) (l : Latches) : (s.accept v l).latch = some l := rfl
@[simp] theorem State.accept_todo (s : State) (v : Word) (l : Latches) : (s.accept v l).todo = [] := rfl
@[simp] theorem State.accept_pending (s : State) (v : Word) (l : Latches) : (s.accept v l).pending = [] := rfl
@[simp] theorem State.accept_nextTag (s : State) (v : Word) (l : Latches) : (s.accept v l).nextTag = s.nextTag := rfl
@[simp] theorem State.accept_env (s : State) (v : Word) (l : Latches) : (s.accept v l).env = s.env := rfl
@[simp] theorem State.accept_resp (s : State) (v : Word) (l : Latches) : (s.accept v l).resp = s.resp := rfl

/-! ### `State.completeOk` -/

@[simp] theorem State.completeOk_params (s : State) : s.completeOk.params = s.params := rfl
@[simp] theorem State.completeOk_regs (s : State) : s.completeOk.regs = s.regs := rfl
@[simp] theorem State.completeOk_ewin (s : State) : s.completeOk.ewin = s.ewin := rfl
@[simp] theorem State.completeOk_ewout (s : State) : s.completeOk.ewout = s.ewout := rfl
@[simp] theorem State.completeOk_ieDone (s : State) : s.completeOk.ieDone = s.ieDone := rfl
@[simp] theorem State.completeOk_ieErr (s : State) : s.completeOk.ieErr = s.ieErr := rfl
@[simp] theorem State.completeOk_busy (s : State) : s.completeOk.busy = false := rfl
@[simp] theorem State.completeOk_done (s : State) : s.completeOk.done = true := rfl
@[simp] theorem State.completeOk_err (s : State) : s.completeOk.err = s.err := rfl
@[simp] theorem State.completeOk_ctrWrap (s : State) : s.completeOk.ctrWrap = s.ctrWrap := rfl
@[simp] theorem State.completeOk_ovr (s : State) : s.completeOk.ovr = s.ovr := rfl
@[simp] theorem State.completeOk_errCode (s : State) : s.completeOk.errCode = s.errCode := rfl
@[simp] theorem State.completeOk_aluReason (s : State) : s.completeOk.aluReason = s.aluReason := rfl
@[simp] theorem State.completeOk_counter (s : State) : s.completeOk.counter = s.counter := rfl
@[simp] theorem State.completeOk_nonce0 (s : State) : s.completeOk.nonce0 = s.nonce0 := rfl
@[simp] theorem State.completeOk_nonce1 (s : State) : s.completeOk.nonce1 = s.nonce1 := rfl
@[simp] theorem State.completeOk_nonce2 (s : State) : s.completeOk.nonce2 = s.nonce2 := rfl
@[simp] theorem State.completeOk_data (s : State) : s.completeOk.data = s.data := rfl
@[simp] theorem State.completeOk_cur (s : State) : s.completeOk.cur = none := rfl
@[simp] theorem State.completeOk_latch (s : State) : s.completeOk.latch = s.latch := rfl
@[simp] theorem State.completeOk_todo (s : State) : s.completeOk.todo = s.todo := rfl
@[simp] theorem State.completeOk_pending (s : State) : s.completeOk.pending = s.pending := rfl
@[simp] theorem State.completeOk_nextTag (s : State) : s.completeOk.nextTag = s.nextTag := rfl
@[simp] theorem State.completeOk_env (s : State) : s.completeOk.env = s.env := rfl
@[simp] theorem State.completeOk_resp (s : State) : s.completeOk.resp = s.resp := rfl

/-! ### `State.completeFailed` -/

@[simp] theorem State.completeFailed_params (s : State) (c : ErrCode) (r : BitVec 8) : (s.completeFailed c r).params = s.params := rfl
@[simp] theorem State.completeFailed_regs (s : State) (c : ErrCode) (r : BitVec 8) : (s.completeFailed c r).regs = s.regs := rfl
@[simp] theorem State.completeFailed_ewin (s : State) (c : ErrCode) (r : BitVec 8) : (s.completeFailed c r).ewin = s.ewin := rfl
@[simp] theorem State.completeFailed_ewout (s : State) (c : ErrCode) (r : BitVec 8) : (s.completeFailed c r).ewout = s.ewout := rfl
@[simp] theorem State.completeFailed_ieDone (s : State) (c : ErrCode) (r : BitVec 8) : (s.completeFailed c r).ieDone = s.ieDone := rfl
@[simp] theorem State.completeFailed_ieErr (s : State) (c : ErrCode) (r : BitVec 8) : (s.completeFailed c r).ieErr = s.ieErr := rfl
@[simp] theorem State.completeFailed_busy (s : State) (c : ErrCode) (r : BitVec 8) : (s.completeFailed c r).busy = false := rfl
@[simp] theorem State.completeFailed_done (s : State) (c : ErrCode) (r : BitVec 8) : (s.completeFailed c r).done = true := rfl
@[simp] theorem State.completeFailed_err (s : State) (c : ErrCode) (r : BitVec 8) : (s.completeFailed c r).err = true := rfl
@[simp] theorem State.completeFailed_ctrWrap (s : State) (c : ErrCode) (r : BitVec 8) : (s.completeFailed c r).ctrWrap = s.ctrWrap := rfl
@[simp] theorem State.completeFailed_ovr (s : State) (c : ErrCode) (r : BitVec 8) : (s.completeFailed c r).ovr = s.ovr := rfl
@[simp] theorem State.completeFailed_errCode (s : State) (c : ErrCode) (r : BitVec 8) : (s.completeFailed c r).errCode = c := rfl
@[simp] theorem State.completeFailed_aluReason (s : State) (c : ErrCode) (r : BitVec 8) : (s.completeFailed c r).aluReason = r := rfl
@[simp] theorem State.completeFailed_counter (s : State) (c : ErrCode) (r : BitVec 8) : (s.completeFailed c r).counter = s.counter := rfl
@[simp] theorem State.completeFailed_nonce0 (s : State) (c : ErrCode) (r : BitVec 8) : (s.completeFailed c r).nonce0 = s.nonce0 := rfl
@[simp] theorem State.completeFailed_nonce1 (s : State) (c : ErrCode) (r : BitVec 8) : (s.completeFailed c r).nonce1 = s.nonce1 := rfl
@[simp] theorem State.completeFailed_nonce2 (s : State) (c : ErrCode) (r : BitVec 8) : (s.completeFailed c r).nonce2 = s.nonce2 := rfl
@[simp] theorem State.completeFailed_data (s : State) (c : ErrCode) (r : BitVec 8) : (s.completeFailed c r).data = s.data := rfl
@[simp] theorem State.completeFailed_cur (s : State) (c : ErrCode) (r : BitVec 8) : (s.completeFailed c r).cur = none := rfl
@[simp] theorem State.completeFailed_latch (s : State) (c : ErrCode) (r : BitVec 8) : (s.completeFailed c r).latch = s.latch := rfl
@[simp] theorem State.completeFailed_todo (s : State) (c : ErrCode) (r : BitVec 8) : (s.completeFailed c r).todo = [] := rfl
@[simp] theorem State.completeFailed_pending (s : State) (c : ErrCode) (r : BitVec 8) : (s.completeFailed c r).pending = [] := rfl
@[simp] theorem State.completeFailed_nextTag (s : State) (c : ErrCode) (r : BitVec 8) : (s.completeFailed c r).nextTag = s.nextTag := rfl
@[simp] theorem State.completeFailed_env (s : State) (c : ErrCode) (r : BitVec 8) : (s.completeFailed c r).env = s.env := rfl
@[simp] theorem State.completeFailed_resp (s : State) (c : ErrCode) (r : BitVec 8) : (s.completeFailed c r).resp = s.resp := rfl

/-! ### `State.failCheck` -/

@[simp] theorem State.failCheck_params (s : State) (c : ErrCode) : (s.failCheck c).params = s.params := rfl
@[simp] theorem State.failCheck_regs (s : State) (c : ErrCode) : (s.failCheck c).regs = s.regs := rfl
@[simp] theorem State.failCheck_ewin (s : State) (c : ErrCode) : (s.failCheck c).ewin = s.ewin := rfl
@[simp] theorem State.failCheck_ewout (s : State) (c : ErrCode) : (s.failCheck c).ewout = s.ewout := rfl
@[simp] theorem State.failCheck_ieDone (s : State) (c : ErrCode) : (s.failCheck c).ieDone = s.ieDone := rfl
@[simp] theorem State.failCheck_ieErr (s : State) (c : ErrCode) : (s.failCheck c).ieErr = s.ieErr := rfl
@[simp] theorem State.failCheck_busy (s : State) (c : ErrCode) : (s.failCheck c).busy = false := rfl
@[simp] theorem State.failCheck_done (s : State) (c : ErrCode) : (s.failCheck c).done = true := rfl
@[simp] theorem State.failCheck_err (s : State) (c : ErrCode) : (s.failCheck c).err = true := rfl
@[simp] theorem State.failCheck_ctrWrap (s : State) (c : ErrCode) : (s.failCheck c).ctrWrap = s.ctrWrap := rfl
@[simp] theorem State.failCheck_ovr (s : State) (c : ErrCode) : (s.failCheck c).ovr = s.ovr := rfl
@[simp] theorem State.failCheck_errCode (s : State) (c : ErrCode) : (s.failCheck c).errCode = c := rfl
@[simp] theorem State.failCheck_aluReason (s : State) (c : ErrCode) : (s.failCheck c).aluReason = 0#8 := rfl
@[simp] theorem State.failCheck_counter (s : State) (c : ErrCode) : (s.failCheck c).counter = s.counter := rfl
@[simp] theorem State.failCheck_nonce0 (s : State) (c : ErrCode) : (s.failCheck c).nonce0 = s.nonce0 := rfl
@[simp] theorem State.failCheck_nonce1 (s : State) (c : ErrCode) : (s.failCheck c).nonce1 = s.nonce1 := rfl
@[simp] theorem State.failCheck_nonce2 (s : State) (c : ErrCode) : (s.failCheck c).nonce2 = s.nonce2 := rfl
@[simp] theorem State.failCheck_data (s : State) (c : ErrCode) : (s.failCheck c).data = s.data := rfl
@[simp] theorem State.failCheck_cur (s : State) (c : ErrCode) : (s.failCheck c).cur = none := rfl
@[simp] theorem State.failCheck_latch (s : State) (c : ErrCode) : (s.failCheck c).latch = s.latch := rfl
@[simp] theorem State.failCheck_todo (s : State) (c : ErrCode) : (s.failCheck c).todo = [] := rfl
@[simp] theorem State.failCheck_pending (s : State) (c : ErrCode) : (s.failCheck c).pending = [] := rfl
@[simp] theorem State.failCheck_nextTag (s : State) (c : ErrCode) : (s.failCheck c).nextTag = s.nextTag := rfl
@[simp] theorem State.failCheck_env (s : State) (c : ErrCode) : (s.failCheck c).env = s.env := rfl
@[simp] theorem State.failCheck_resp (s : State) (c : ErrCode) : (s.failCheck c).resp = s.resp := rfl

/-! ### `State.failAlu` -/

@[simp] theorem State.failAlu_params (s : State) (r : AluReason) : (s.failAlu r).params = s.params := rfl
@[simp] theorem State.failAlu_regs (s : State) (r : AluReason) : (s.failAlu r).regs = writeEws s.regs s.curDests none := rfl
@[simp] theorem State.failAlu_ewin (s : State) (r : AluReason) : (s.failAlu r).ewin = s.ewin := rfl
@[simp] theorem State.failAlu_ewout (s : State) (r : AluReason) : (s.failAlu r).ewout = s.ewout := rfl
@[simp] theorem State.failAlu_ieDone (s : State) (r : AluReason) : (s.failAlu r).ieDone = s.ieDone := rfl
@[simp] theorem State.failAlu_ieErr (s : State) (r : AluReason) : (s.failAlu r).ieErr = s.ieErr := rfl
@[simp] theorem State.failAlu_busy (s : State) (r : AluReason) : (s.failAlu r).busy = false := rfl
@[simp] theorem State.failAlu_done (s : State) (r : AluReason) : (s.failAlu r).done = true := rfl
@[simp] theorem State.failAlu_err (s : State) (r : AluReason) : (s.failAlu r).err = true := rfl
@[simp] theorem State.failAlu_ctrWrap (s : State) (r : AluReason) : (s.failAlu r).ctrWrap = s.ctrWrap := rfl
@[simp] theorem State.failAlu_ovr (s : State) (r : AluReason) : (s.failAlu r).ovr = s.ovr := rfl
@[simp] theorem State.failAlu_errCode (s : State) (r : AluReason) : (s.failAlu r).errCode = .aluError := rfl
@[simp] theorem State.failAlu_aluReason (s : State) (r : AluReason) : (s.failAlu r).aluReason = r.code := rfl
@[simp] theorem State.failAlu_counter (s : State) (r : AluReason) : (s.failAlu r).counter = s.counter := rfl
@[simp] theorem State.failAlu_nonce0 (s : State) (r : AluReason) : (s.failAlu r).nonce0 = s.nonce0 := rfl
@[simp] theorem State.failAlu_nonce1 (s : State) (r : AluReason) : (s.failAlu r).nonce1 = s.nonce1 := rfl
@[simp] theorem State.failAlu_nonce2 (s : State) (r : AluReason) : (s.failAlu r).nonce2 = s.nonce2 := rfl
@[simp] theorem State.failAlu_data (s : State) (r : AluReason) : (s.failAlu r).data = s.data := rfl
@[simp] theorem State.failAlu_cur (s : State) (r : AluReason) : (s.failAlu r).cur = none := rfl
@[simp] theorem State.failAlu_latch (s : State) (r : AluReason) : (s.failAlu r).latch = s.latch := rfl
@[simp] theorem State.failAlu_todo (s : State) (r : AluReason) : (s.failAlu r).todo = [] := rfl
@[simp] theorem State.failAlu_pending (s : State) (r : AluReason) : (s.failAlu r).pending = [] := rfl
@[simp] theorem State.failAlu_nextTag (s : State) (r : AluReason) : (s.failAlu r).nextTag = s.nextTag := rfl
@[simp] theorem State.failAlu_env (s : State) (r : AluReason) : (s.failAlu r).env = s.env := rfl
@[simp] theorem State.failAlu_resp (s : State) (r : AluReason) : (s.failAlu r).resp = s.resp := rfl

/-! ### `State.copyKeys` -/

@[simp] theorem State.copyKeys_params (s : State) : s.copyKeys.params = s.params := by
  unfold State.copyKeys; rfl
@[simp] theorem State.copyKeys_regs (s : State) : s.copyKeys.regs = copyEws s.regs keyCopies := by
  unfold State.copyKeys; rfl
@[simp] theorem State.copyKeys_ewin (s : State) : s.copyKeys.ewin = s.ewin := by
  unfold State.copyKeys; rfl
@[simp] theorem State.copyKeys_ewout (s : State) : s.copyKeys.ewout = s.ewout := by
  unfold State.copyKeys; rfl
@[simp] theorem State.copyKeys_ieDone (s : State) : s.copyKeys.ieDone = s.ieDone := by
  unfold State.copyKeys; rfl
@[simp] theorem State.copyKeys_ieErr (s : State) : s.copyKeys.ieErr = s.ieErr := by
  unfold State.copyKeys; rfl
@[simp] theorem State.copyKeys_busy (s : State) : s.copyKeys.busy = s.busy := by
  unfold State.copyKeys; rfl
@[simp] theorem State.copyKeys_done (s : State) : s.copyKeys.done = s.done := by
  unfold State.copyKeys; rfl
@[simp] theorem State.copyKeys_err (s : State) : s.copyKeys.err = s.err := by
  unfold State.copyKeys; rfl
@[simp] theorem State.copyKeys_ctrWrap (s : State) : s.copyKeys.ctrWrap = s.ctrWrap := by
  unfold State.copyKeys; rfl
@[simp] theorem State.copyKeys_ovr (s : State) : s.copyKeys.ovr = s.ovr := by
  unfold State.copyKeys; rfl
@[simp] theorem State.copyKeys_errCode (s : State) : s.copyKeys.errCode = s.errCode := by
  unfold State.copyKeys; rfl
@[simp] theorem State.copyKeys_aluReason (s : State) : s.copyKeys.aluReason = s.aluReason := by
  unfold State.copyKeys; rfl
@[simp] theorem State.copyKeys_counter (s : State) : s.copyKeys.counter = s.counter := by
  unfold State.copyKeys; rfl
@[simp] theorem State.copyKeys_nonce0 (s : State) : s.copyKeys.nonce0 = s.nonce0 := by
  unfold State.copyKeys; rfl
@[simp] theorem State.copyKeys_nonce1 (s : State) : s.copyKeys.nonce1 = s.nonce1 := by
  unfold State.copyKeys; rfl
@[simp] theorem State.copyKeys_nonce2 (s : State) : s.copyKeys.nonce2 = s.nonce2 := by
  unfold State.copyKeys; rfl
@[simp] theorem State.copyKeys_data (s : State) : s.copyKeys.data = s.data := by
  unfold State.copyKeys; rfl
@[simp] theorem State.copyKeys_cur (s : State) : s.copyKeys.cur = s.cur := by
  unfold State.copyKeys; rfl
@[simp] theorem State.copyKeys_latch (s : State) : s.copyKeys.latch = s.latch := by
  unfold State.copyKeys; rfl
@[simp] theorem State.copyKeys_todo (s : State) : s.copyKeys.todo = s.todo := by
  unfold State.copyKeys; rfl
@[simp] theorem State.copyKeys_pending (s : State) : s.copyKeys.pending = s.pending := by
  unfold State.copyKeys; rfl
@[simp] theorem State.copyKeys_nextTag (s : State) : s.copyKeys.nextTag = s.nextTag := by
  unfold State.copyKeys; rfl
@[simp] theorem State.copyKeys_env (s : State) : s.copyKeys.env = s.env := by
  unfold State.copyKeys; rfl
@[simp] theorem State.copyKeys_resp (s : State) : s.copyKeys.resp = s.resp := by
  unfold State.copyKeys; rfl

/-! ### `State.writeCtrl` -/

@[simp] theorem State.writeCtrl_params (s : State) (v : Word) : (s.writeCtrl v).params = s.params := rfl
@[simp] theorem State.writeCtrl_regs (s : State) (v : Word) : (s.writeCtrl v).regs = s.regs := rfl
@[simp] theorem State.writeCtrl_ewin (s : State) (v : Word) : (s.writeCtrl v).ewin = s.ewin := rfl
@[simp] theorem State.writeCtrl_ewout (s : State) (v : Word) : (s.writeCtrl v).ewout = s.ewout := rfl
@[simp] theorem State.writeCtrl_ieDone (s : State) (v : Word) : (s.writeCtrl v).ieDone = v.getLsbD 0 := rfl
@[simp] theorem State.writeCtrl_ieErr (s : State) (v : Word) : (s.writeCtrl v).ieErr = v.getLsbD 1 := rfl
@[simp] theorem State.writeCtrl_busy (s : State) (v : Word) : (s.writeCtrl v).busy = s.busy := rfl
@[simp] theorem State.writeCtrl_done (s : State) (v : Word) : (s.writeCtrl v).done = s.done := rfl
@[simp] theorem State.writeCtrl_err (s : State) (v : Word) : (s.writeCtrl v).err = s.err := rfl
@[simp] theorem State.writeCtrl_ctrWrap (s : State) (v : Word) : (s.writeCtrl v).ctrWrap = s.ctrWrap := rfl
@[simp] theorem State.writeCtrl_ovr (s : State) (v : Word) : (s.writeCtrl v).ovr = s.ovr := rfl
@[simp] theorem State.writeCtrl_errCode (s : State) (v : Word) : (s.writeCtrl v).errCode = s.errCode := rfl
@[simp] theorem State.writeCtrl_aluReason (s : State) (v : Word) : (s.writeCtrl v).aluReason = s.aluReason := rfl
@[simp] theorem State.writeCtrl_counter (s : State) (v : Word) : (s.writeCtrl v).counter = s.counter := rfl
@[simp] theorem State.writeCtrl_nonce0 (s : State) (v : Word) : (s.writeCtrl v).nonce0 = s.nonce0 := rfl
@[simp] theorem State.writeCtrl_nonce1 (s : State) (v : Word) : (s.writeCtrl v).nonce1 = s.nonce1 := rfl
@[simp] theorem State.writeCtrl_nonce2 (s : State) (v : Word) : (s.writeCtrl v).nonce2 = s.nonce2 := rfl
@[simp] theorem State.writeCtrl_data (s : State) (v : Word) : (s.writeCtrl v).data = s.data := rfl
@[simp] theorem State.writeCtrl_cur (s : State) (v : Word) : (s.writeCtrl v).cur = s.cur := rfl
@[simp] theorem State.writeCtrl_latch (s : State) (v : Word) : (s.writeCtrl v).latch = s.latch := rfl
@[simp] theorem State.writeCtrl_todo (s : State) (v : Word) : (s.writeCtrl v).todo = s.todo := rfl
@[simp] theorem State.writeCtrl_pending (s : State) (v : Word) : (s.writeCtrl v).pending = s.pending := rfl
@[simp] theorem State.writeCtrl_nextTag (s : State) (v : Word) : (s.writeCtrl v).nextTag = s.nextTag := rfl
@[simp] theorem State.writeCtrl_env (s : State) (v : Word) : (s.writeCtrl v).env = s.env := rfl
@[simp] theorem State.writeCtrl_resp (s : State) (v : Word) : (s.writeCtrl v).resp = s.resp := rfl

/-! ### `State.respond` -/

@[simp] theorem State.respond_params (s : State) (r : Response) : (s.respond r).params = s.params := rfl
@[simp] theorem State.respond_regs (s : State) (r : Response) : (s.respond r).regs = s.regs := rfl
@[simp] theorem State.respond_ewin (s : State) (r : Response) : (s.respond r).ewin = s.ewin := rfl
@[simp] theorem State.respond_ewout (s : State) (r : Response) : (s.respond r).ewout = s.ewout := rfl
@[simp] theorem State.respond_ieDone (s : State) (r : Response) : (s.respond r).ieDone = s.ieDone := rfl
@[simp] theorem State.respond_ieErr (s : State) (r : Response) : (s.respond r).ieErr = s.ieErr := rfl
@[simp] theorem State.respond_busy (s : State) (r : Response) : (s.respond r).busy = s.busy := rfl
@[simp] theorem State.respond_done (s : State) (r : Response) : (s.respond r).done = s.done := rfl
@[simp] theorem State.respond_err (s : State) (r : Response) : (s.respond r).err = s.err := rfl
@[simp] theorem State.respond_ctrWrap (s : State) (r : Response) : (s.respond r).ctrWrap = s.ctrWrap := rfl
@[simp] theorem State.respond_ovr (s : State) (r : Response) : (s.respond r).ovr = s.ovr := rfl
@[simp] theorem State.respond_errCode (s : State) (r : Response) : (s.respond r).errCode = s.errCode := rfl
@[simp] theorem State.respond_aluReason (s : State) (r : Response) : (s.respond r).aluReason = s.aluReason := rfl
@[simp] theorem State.respond_counter (s : State) (r : Response) : (s.respond r).counter = s.counter := rfl
@[simp] theorem State.respond_nonce0 (s : State) (r : Response) : (s.respond r).nonce0 = s.nonce0 := rfl
@[simp] theorem State.respond_nonce1 (s : State) (r : Response) : (s.respond r).nonce1 = s.nonce1 := rfl
@[simp] theorem State.respond_nonce2 (s : State) (r : Response) : (s.respond r).nonce2 = s.nonce2 := rfl
@[simp] theorem State.respond_data (s : State) (r : Response) : (s.respond r).data = s.data := rfl
@[simp] theorem State.respond_cur (s : State) (r : Response) : (s.respond r).cur = s.cur := rfl
@[simp] theorem State.respond_latch (s : State) (r : Response) : (s.respond r).latch = s.latch := rfl
@[simp] theorem State.respond_todo (s : State) (r : Response) : (s.respond r).todo = s.todo := rfl
@[simp] theorem State.respond_pending (s : State) (r : Response) : (s.respond r).pending = s.pending := rfl
@[simp] theorem State.respond_nextTag (s : State) (r : Response) : (s.respond r).nextTag = s.nextTag := rfl
@[simp] theorem State.respond_env (s : State) (r : Response) : (s.respond r).env = s.env := rfl
@[simp] theorem State.respond_resp (s : State) (r : Response) : (s.respond r).resp = r := rfl

/-! ### `State.resetInput` -/

@[simp] theorem State.resetInput_params (s : State) : s.resetInput.params = s.params := rfl
@[simp] theorem State.resetInput_regs (s : State) : s.resetInput.regs = Vector.replicate 48 none := rfl
@[simp] theorem State.resetInput_ewin (s : State) : s.resetInput.ewin = none := rfl
@[simp] theorem State.resetInput_ewout (s : State) : s.resetInput.ewout = none := rfl
@[simp] theorem State.resetInput_ieDone (s : State) : s.resetInput.ieDone = false := rfl
@[simp] theorem State.resetInput_ieErr (s : State) : s.resetInput.ieErr = false := rfl
@[simp] theorem State.resetInput_busy (s : State) : s.resetInput.busy = false := rfl
@[simp] theorem State.resetInput_done (s : State) : s.resetInput.done = false := rfl
@[simp] theorem State.resetInput_err (s : State) : s.resetInput.err = false := rfl
@[simp] theorem State.resetInput_ctrWrap (s : State) : s.resetInput.ctrWrap = false := rfl
@[simp] theorem State.resetInput_ovr (s : State) : s.resetInput.ovr = false := rfl
@[simp] theorem State.resetInput_errCode (s : State) : s.resetInput.errCode = .none := rfl
@[simp] theorem State.resetInput_aluReason (s : State) : s.resetInput.aluReason = 0#8 := rfl
@[simp] theorem State.resetInput_counter (s : State) : s.resetInput.counter = counterResetWord s.params := rfl
@[simp] theorem State.resetInput_nonce0 (s : State) : s.resetInput.nonce0 = 0#32 := rfl
@[simp] theorem State.resetInput_nonce1 (s : State) : s.resetInput.nonce1 = 0#32 := rfl
@[simp] theorem State.resetInput_nonce2 (s : State) : s.resetInput.nonce2 = 0#32 := rfl
@[simp] theorem State.resetInput_data (s : State) : s.resetInput.data = 0#32 := rfl
@[simp] theorem State.resetInput_cur (s : State) : s.resetInput.cur = none := rfl
@[simp] theorem State.resetInput_latch (s : State) : s.resetInput.latch = none := rfl
@[simp] theorem State.resetInput_todo (s : State) : s.resetInput.todo = [] := rfl
@[simp] theorem State.resetInput_pending (s : State) : s.resetInput.pending = [] := rfl
@[simp] theorem State.resetInput_nextTag (s : State) : s.resetInput.nextTag = s.nextTag := rfl
@[simp] theorem State.resetInput_env (s : State) : s.resetInput.env = s.env := rfl
@[simp] theorem State.resetInput_resp (s : State) : s.resetInput.resp = .none := rfl

/-! ### `State.submitNext` -/

@[simp] theorem State.submitNext_params (s : State) (v : Word) : (s.submitNext v).params = s.params := rfl
@[simp] theorem State.submitNext_regs (s : State) (v : Word) : (s.submitNext v).regs = s.regs := rfl
@[simp] theorem State.submitNext_ewin (s : State) (v : Word) : (s.submitNext v).ewin = s.ewin := rfl
@[simp] theorem State.submitNext_ewout (s : State) (v : Word) : (s.submitNext v).ewout = s.ewout := rfl
@[simp] theorem State.submitNext_ieDone (s : State) (v : Word) : (s.submitNext v).ieDone = s.ieDone := rfl
@[simp] theorem State.submitNext_ieErr (s : State) (v : Word) : (s.submitNext v).ieErr = s.ieErr := rfl
@[simp] theorem State.submitNext_busy (s : State) (v : Word) : (s.submitNext v).busy = s.busy := rfl
@[simp] theorem State.submitNext_done (s : State) (v : Word) : (s.submitNext v).done = s.done := rfl
@[simp] theorem State.submitNext_err (s : State) (v : Word) : (s.submitNext v).err = s.err := rfl
@[simp] theorem State.submitNext_ctrWrap (s : State) (v : Word) : (s.submitNext v).ctrWrap = s.ctrWrap := rfl
@[simp] theorem State.submitNext_ovr (s : State) (v : Word) : (s.submitNext v).ovr = s.ovr := rfl
@[simp] theorem State.submitNext_errCode (s : State) (v : Word) : (s.submitNext v).errCode = s.errCode := rfl
@[simp] theorem State.submitNext_aluReason (s : State) (v : Word) : (s.submitNext v).aluReason = s.aluReason := rfl
@[simp] theorem State.submitNext_counter (s : State) (v : Word) : (s.submitNext v).counter = s.counter := rfl
@[simp] theorem State.submitNext_nonce0 (s : State) (v : Word) : (s.submitNext v).nonce0 = s.nonce0 := rfl
@[simp] theorem State.submitNext_nonce1 (s : State) (v : Word) : (s.submitNext v).nonce1 = s.nonce1 := rfl
@[simp] theorem State.submitNext_nonce2 (s : State) (v : Word) : (s.submitNext v).nonce2 = s.nonce2 := rfl
@[simp] theorem State.submitNext_data (s : State) (v : Word) : (s.submitNext v).data = s.data := rfl
@[simp] theorem State.submitNext_cur (s : State) (v : Word) : (s.submitNext v).cur = s.cur := rfl
@[simp] theorem State.submitNext_latch (s : State) (v : Word) : (s.submitNext v).latch = s.latch := rfl
@[simp] theorem State.submitNext_todo (s : State) (v : Word) : (s.submitNext v).todo = s.todo := rfl
@[simp] theorem State.submitNext_pending (s : State) (v : Word) : (s.submitNext v).pending = s.pending := rfl
@[simp] theorem State.submitNext_nextTag (s : State) (v : Word) : (s.submitNext v).nextTag = s.nextTag := rfl
@[simp] theorem State.submitNext_env (s : State) (v : Word) : (s.submitNext v).env = .host (submission v) :: s.env := rfl
@[simp] theorem State.submitNext_resp (s : State) (v : Word) : (s.submitNext v).resp = s.resp := rfl

/-! ### `State.writeStatus` -/

@[simp] theorem State.writeStatus_params (s : State) (v : Word) : (s.writeStatus v).params = s.params := rfl
@[simp] theorem State.writeStatus_regs (s : State) (v : Word) : (s.writeStatus v).regs = s.regs := rfl
@[simp] theorem State.writeStatus_ewin (s : State) (v : Word) : (s.writeStatus v).ewin = s.ewin := rfl
@[simp] theorem State.writeStatus_ewout (s : State) (v : Word) : (s.writeStatus v).ewout = s.ewout := rfl
@[simp] theorem State.writeStatus_ieDone (s : State) (v : Word) : (s.writeStatus v).ieDone = s.ieDone := rfl
@[simp] theorem State.writeStatus_ieErr (s : State) (v : Word) : (s.writeStatus v).ieErr = s.ieErr := rfl
@[simp] theorem State.writeStatus_busy (s : State) (v : Word) : (s.writeStatus v).busy = s.busy := rfl
@[simp] theorem State.writeStatus_done (s : State) (v : Word) : (s.writeStatus v).done = (if v.getLsbD 1 then false else s.done) := rfl
@[simp] theorem State.writeStatus_err (s : State) (v : Word) : (s.writeStatus v).err = (if v.getLsbD 2 then false else s.err) := rfl
@[simp] theorem State.writeStatus_ctrWrap (s : State) (v : Word) : (s.writeStatus v).ctrWrap = (if v.getLsbD 3 then false else s.ctrWrap) := rfl
@[simp] theorem State.writeStatus_ovr (s : State) (v : Word) : (s.writeStatus v).ovr = (if v.getLsbD 6 then false else s.ovr) := rfl
@[simp] theorem State.writeStatus_errCode (s : State) (v : Word) : (s.writeStatus v).errCode = if v.getLsbD 2 then .none else s.errCode := rfl
@[simp] theorem State.writeStatus_aluReason (s : State) (v : Word) : (s.writeStatus v).aluReason = if v.getLsbD 2 then 0#8 else s.aluReason := rfl
@[simp] theorem State.writeStatus_counter (s : State) (v : Word) : (s.writeStatus v).counter = s.counter := rfl
@[simp] theorem State.writeStatus_nonce0 (s : State) (v : Word) : (s.writeStatus v).nonce0 = s.nonce0 := rfl
@[simp] theorem State.writeStatus_nonce1 (s : State) (v : Word) : (s.writeStatus v).nonce1 = s.nonce1 := rfl
@[simp] theorem State.writeStatus_nonce2 (s : State) (v : Word) : (s.writeStatus v).nonce2 = s.nonce2 := rfl
@[simp] theorem State.writeStatus_data (s : State) (v : Word) : (s.writeStatus v).data = s.data := rfl
@[simp] theorem State.writeStatus_cur (s : State) (v : Word) : (s.writeStatus v).cur = s.cur := rfl
@[simp] theorem State.writeStatus_latch (s : State) (v : Word) : (s.writeStatus v).latch = s.latch := rfl
@[simp] theorem State.writeStatus_todo (s : State) (v : Word) : (s.writeStatus v).todo = s.todo := rfl
@[simp] theorem State.writeStatus_pending (s : State) (v : Word) : (s.writeStatus v).pending = s.pending := rfl
@[simp] theorem State.writeStatus_nextTag (s : State) (v : Word) : (s.writeStatus v).nextTag = s.nextTag := rfl
@[simp] theorem State.writeStatus_env (s : State) (v : Word) : (s.writeStatus v).env = s.env := rfl
@[simp] theorem State.writeStatus_resp (s : State) (v : Word) : (s.writeStatus v).resp = s.resp := rfl

/-! ### `Line.pend` -/

@[simp] theorem Line.pend_tag (ln : Line) (k : Nat) (r : AluRequest) : (ln.pend k r).tag = k := rfl
@[simp] theorem Line.pend_dsts (ln : Line) (k : Nat) (r : AluRequest) : (ln.pend k r).dsts = ln.dsts := rfl
@[simp] theorem Line.pend_req (ln : Line) (k : Nat) (r : AluRequest) : (ln.pend k r).req = r := rfl
@[simp] theorem Line.pend_answer (ln : Line) (k : Nat) (r : AluRequest) : (ln.pend k r).answer = none := rfl
@[simp] theorem Line.pend_stage (ln : Line) (k : Nat) (r : AluRequest) : (ln.pend k r).stage = ln.stage := rfl

end Sys2Proof.Machine
end

