-- ==== Sys2Proof/Laws/Registers.lean ====
section
/-! SUPPORT. Reading the EW register file after each of its updates (spec 00_scope.md R12). -/

namespace Sys2Proof.Machine

theorem State.reg_eq (s : State) (n : Nat) : s.reg n = readEw s.regs n := rfl

/-- A number that names no register holds no value. -/
theorem readEw_of_ge {f : EwFile} {n : Nat} (h : 48 ≤ n) : readEw f n = none := by
  have : f[n]? = none := by simp [h]
  simp [readEw, this]

theorem lt_of_readEw_isSome {f : EwFile} {n : Nat} (h : (readEw f n).isSome = true) : n < 48 := by
  by_contra hn
  simp [readEw_of_ge (Nat.le_of_not_lt hn)] at h

/-- Two register files that read alike are equal. -/
theorem ewFile_ext {f g : EwFile} (h : ∀ n, readEw f n = readEw g n) : f = g := by
  apply Vector.ext
  intro i hi
  have := h i
  simpa [readEw, hi] using this

@[simp] theorem readEw_writeEw (f : EwFile) (n m : Nat) (v : Option EW) :
    readEw (writeEw f n v) m = if m = n ∧ m < 48 then v else readEw f m := by
  by_cases hm : m < 48
  · by_cases h : m = n
    · subst h; simp [readEw, writeEw, hm]
    · have h' : n ≠ m := fun e => h e.symm
      simp [readEw, writeEw, hm, h, h']
  · simp [hm, readEw_of_ge (Nat.le_of_not_lt hm)]

@[simp] theorem readEw_writeEws (f : EwFile) (ns : List Nat) (v : Option EW) (m : Nat) :
    readEw (writeEws f ns v) m = if m ∈ ns ∧ m < 48 then v else readEw f m := by
  induction ns generalizing f with
  | nil => simp [writeEws]
  | cons n ns ih =>
    have hstep : writeEws f (n :: ns) v = writeEws (writeEw f n v) ns v := rfl
    rw [hstep, ih, readEw_writeEw]
    by_cases h1 : m ∈ ns <;> by_cases h2 : m = n <;> by_cases h3 : m < 48 <;>
      simp_all [List.mem_cons]

@[simp] theorem readEw_replicate_none (n : Nat) : readEw (Vector.replicate 48 none) n = none := by
  by_cases h : n < 48 <;> simp [readEw, h]

theorem readEw_map (g : EW → EW) (f : EwFile) (n : Nat) :
    readEw (f.map (Option.map g)) n = (readEw f n).map g := by
  by_cases h : n < 48 <;> simp [readEw, h]

theorem readEw_copyEws_of_notMem (f : EwFile) (ps : List (Nat × Nat)) (m : Nat)
    (h : m ∉ ps.map Prod.fst) : readEw (copyEws f ps) m = readEw f m := by
  induction ps generalizing f with
  | nil => rfl
  | cons p ps ih =>
    obtain ⟨d, a⟩ := p
    simp only [List.map_cons, List.mem_cons, not_or] at h
    have hstep : copyEws f ((d, a) :: ps) = copyEws (writeEw f d (readEw f a)) ps := rfl
    rw [hstep, ih _ h.2, readEw_writeEw]
    simp [h.1]

/-- Copies whose destinations are distinct and are no sources: each destination reads as its source did. -/
theorem readEw_copyEws_of_mem (f : EwFile) (ps : List (Nat × Nat)) (d a : Nat) (hd : d < 48)
    (hmem : (d, a) ∈ ps) (hnd : (ps.map Prod.fst).Nodup)
    (hsrc : ∀ q ∈ ps, q.2 ∉ ps.map Prod.fst) : readEw (copyEws f ps) d = readEw f a := by
  induction ps generalizing f with
  | nil => simp at hmem
  | cons p ps ih =>
    obtain ⟨d', a'⟩ := p
    simp only [List.map_cons, List.nodup_cons] at hnd
    have hstep : copyEws f ((d', a') :: ps) = copyEws (writeEw f d' (readEw f a')) ps := rfl
    rw [hstep]
    rcases List.mem_cons.mp hmem with heq | hin
    · cases heq
      rw [readEw_copyEws_of_notMem _ _ _ hnd.1, readEw_writeEw]
      simp [hd]
    · have hsrc' : ∀ q ∈ ps, q.2 ∉ ps.map Prod.fst := fun q hq hc =>
        hsrc q (List.mem_cons_of_mem _ hq) (by simp [hc])
      rw [ih _ hin hnd.2 hsrc', readEw_writeEw]
      have hne : a ≠ d' := fun e => hsrc (d, a) hmem (by simp [e])
      simp [hne]

/-- SNAP's copies (R214): I reads as S did, the rest is unchanged. -/
theorem readEw_snapCopies (f : EwFile) (n : Nat) :
    readEw (copyEws f snapCopies) n =
      if 16 ≤ n ∧ n < 32 then readEw f (n - 16) else readEw f n := by
  split
  · rename_i h
    apply readEw_copyEws_of_mem _ _ _ _ (by omega)
    · obtain ⟨h1, h2⟩ := h
      interval_cases n <;> decide
    · decide
    · decide
  · rename_i h
    apply readEw_copyEws_of_notMem
    intro hc
    have hr : ∀ m ∈ snapCopies.map Prod.fst, 16 ≤ m ∧ m < 32 := by decide
    exact h (hr n hc)

/-- INIT's key copies (R213): S4..S11 and I4..I11 read as K0..K7 did, the rest is unchanged. -/
theorem readEw_keyCopies (f : EwFile) (n : Nat) :
    readEw (copyEws f keyCopies) n =
      if 4 ≤ n ∧ n < 12 then readEw f (n + 28)
      else if 20 ≤ n ∧ n < 28 then readEw f (n + 12) else readEw f n := by
  split
  · rename_i h
    apply readEw_copyEws_of_mem _ _ _ _ (by omega)
    · obtain ⟨h1, h2⟩ := h
      interval_cases n <;> decide
    · decide
    · decide
  · split
    · rename_i h
      apply readEw_copyEws_of_mem _ _ _ _ (by omega)
      · obtain ⟨h1, h2⟩ := h
        interval_cases n <;> decide
      · decide
      · decide
    · rename_i h1 h2
      apply readEw_copyEws_of_notMem
      intro hc
      have hr : ∀ m ∈ keyCopies.map Prod.fst, (4 ≤ m ∧ m < 12) ∨ (20 ≤ m ∧ m < 28) := by decide
      rcases hr n hc with h | h
      · exact h1 h
      · exact h2 h

end Sys2Proof.Machine
end

