-- ==== Sys2Proof/Laws/Lifecycle.lean ====
section
/-! SUPPORT. What the shared operations can do, once each: every command is a submission (spec
40_command_lifecycle.md R120 to R126), and what a step of the block, the ALU or the host can answer. -/

namespace Sys2Proof.Machine

/-! ### Every command is a submission -/

/-- The commands that issue ALU requests (R126). -/
def isAluCommand : Instr → Bool
  | .add _ _ _ | .xor _ _ _ | .and _ _ _ | .or _ _ _ | .rotl _ _ _ | .rotr _ _ _ | .enc _ _
  | .qr _ _ _ _ | .dround | .ff | .init | .block | .mix => true
  | .nop | .mov _ _ | .ldx _ | .stx _ | .snap | .ctrinc | .clrs | .clrk => false

/-- The lines of an ALU command; an immediate command has none. -/
def linesOf : Instr → List Line
  | .add rd ra rb => wordLine rd (.bin .add ra.toNat rb.toNat)
  | .xor rd ra rb => wordLine rd (.bin .xor ra.toNat rb.toNat)
  | .and rd ra rb => wordLine rd (.bin .and ra.toNat rb.toNat)
  | .or rd ra rb => wordLine rd (.bin .or ra.toNat rb.toNat)
  | .rotl rd ra sh => wordLine rd (.rotl ra.toNat sh)
  | .rotr rd ra sh => wordLine rd (.rotr ra.toNat sh)
  | .enc rd sel => wordLine rd (.enc sel)
  | .qr qa qb qc qd => qrLines qa.toNat qb.toNat qc.toNat qd.toNat
  | .dround => droundLines 0
  | .ff => ffLines
  | .init => initLines
  | .block => initLines ++ roundsLines ++ ffLines
  | .mix => roundsLines ++ ffLines
  | .nop | .mov _ _ | .ldx _ | .stx _ | .snap | .ctrinc | .clrs | .clrk => []

/-- The register file an ALU command starts its requests from: INIT and BLOCK have copied the keys. -/
def startRegs : Instr → EwFile → EwFile
  | .init, f => copyEws f keyCopies
  | .block, f => copyEws f keyCopies
  | .add _ _ _, f | .xor _ _ _, f | .and _ _ _, f | .or _ _ _, f | .rotl _ _ _, f | .rotr _ _ _, f
  | .enc _ _, f | .qr _ _ _ _, f | .dround, f | .ff, f | .mix, f | .nop, f | .mov _ _, f | .ldx _, f
  | .stx _, f | .snap, f | .ctrinc, f | .clrs, f | .clrk, f => f

/-- The pseudocode of an immediate command. -/
def bodyOf : Instr → Latches → State → State
  | .mov rd ra, _, t => { t with regs := copyEws t.regs [(rd.toNat, ra.toNat)] }
  | .ldx rd, l, t => { t with regs := writeEw t.regs rd.toNat l.ewin }
  | .stx ra, _, t => { t with ewout := t.reg ra.toNat }
  | .ctrinc, l, t =>
    { t with counter := l.counter + 1#32, ctrWrap := wrapFlag t.ctrWrap (l.counter + 1#32) }
  | .clrs, _, t => { t with regs := writeEws t.regs (sRegs ++ iRegs ++ tRegs) none }
  | .clrk, _, t => { t with regs := writeEws t.regs kRegs none }
  | .snap, _, t => { t with regs := copyEws t.regs snapCopies }
  | .nop, _, t | .add _ _ _, _, t | .xor _ _ _, _, t | .and _ _ _, _, t | .or _ _ _, _, t
  | .rotl _ _ _, _, t | .rotr _ _ _, _, t | .enc _ _, _, t | .qr _ _ _ _, _, t | .dround, _, t
  | .ff, _, t | .init, _, t | .block, _, t | .mix, _, t => t

/-- What a command does once its checks pass. -/
def runOf (i : Instr) (l : Latches) (t : State) : State :=
  if isAluCommand i then { t with regs := startRegs i t.regs, busy := true, todo := linesOf i }
  else (bodyOf i l t).completeOk

theorem submit_congr {i : Instr} {f g : Latches → State → State} (h : ∀ l t, f l t = g l t) (s : State) :
    s.submit i f = s.submit i g := by
  have : f = g := funext fun l => funext fun t => h l t
  rw [this]

/-- Every command is the submission of what it does once its checks pass; in particular `exec` always
answers a next state. -/
theorem exec_eq (i : Instr) (s : State) : exec i s = .next (s.submit i (runOf i)) := by
  cases i <;>
    simp only [exec, execNop, execAdd, execXor, execAnd, execOr, execRotl, execRotr, execMov, execLdx,
      execStx, execEnc, execQr, execDround, execFf, execInit, execSnap, execBlock, execMix, execCtrinc,
      execClrs, execClrk, State.aluCommand, State.immediate] <;>
    refine congrArg Host.Outcome.next (submit_congr (fun l t => ?_) s) <;>
    simp only [runOf, isAluCommand, linesOf, startRegs, bodyOf, State.copyKeys, id, if_true, if_false,
      Bool.false_eq_true]

/-- The state right after an ALU command is accepted and has passed its checks. -/
def State.started (s : State) (i : Instr) : State :=
  { s with busy := true, done := false, cur := some (encode i), latch := some s.sample,
           regs := startRegs i s.regs, todo := linesOf i, pending := [] }

/-- The checks look at the registers and the latched EWIN only. -/
def State.failure (s : State) (i : Instr) : Option ErrCode := s.firstFailure i s.sample

theorem submit_of_drop {i : Instr} {run : Latches → State → State} {s : State}
    (h : s.busy = true ∨ s.err = true) : s.submit i run = s.drop := by
  have : (s.busy || s.err) = true := by simpa using h
  simp [State.submit, this]

theorem submit_of_failure {i : Instr} {run : Latches → State → State} {s : State} {c : ErrCode}
    (hb : s.busy = false) (he : s.err = false) (hf : s.failure i = some c) :
    s.submit i run = s.checkFailed c := by
  have : (s.accept (encode i) s.sample).firstFailure i s.sample = some c := hf
  simp only [State.submit, hb, he, this]
  rfl

theorem submit_of_pass {i : Instr} {run : Latches → State → State} {s : State}
    (hb : s.busy = false) (he : s.err = false) (hf : s.failure i = none) :
    s.submit i run = run s.sample (s.accept (encode i) s.sample) := by
  have : (s.accept (encode i) s.sample).firstFailure i s.sample = none := hf
  simp only [State.submit, hb, he, this]
  rfl

/-- A submission to a busy instance, or to one with ERR set, is dropped (R121). -/
theorem exec_of_drop {i : Instr} {s : State} (h : s.busy = true ∨ s.err = true) :
    exec i s = .next s.drop := by
  rw [exec_eq, submit_of_drop h]

/-- A command that fails a check (R124). -/
theorem exec_of_failure {i : Instr} {s : State} {c : ErrCode} (hb : s.busy = false) (he : s.err = false)
    (hf : s.failure i = some c) : exec i s = .next (s.checkFailed c) := by
  rw [exec_eq, submit_of_failure hb he hf]

/-- An ALU command whose checks pass (R126). -/
theorem exec_of_alu {i : Instr} {s : State} (hb : s.busy = false) (he : s.err = false)
    (hf : s.failure i = none) (hi : isAluCommand i = true) : exec i s = .next (s.started i) := by
  rw [exec_eq, submit_of_pass hb he hf]
  simp only [runOf, hi]
  rfl

/-- An immediate command whose checks pass (R125). -/
theorem exec_of_immediate {i : Instr} {s : State} (hb : s.busy = false) (he : s.err = false)
    (hf : s.failure i = none) (hi : isAluCommand i = false) :
    exec i s = .next (bodyOf i s.sample (s.accept (encode i) s.sample)).completeOk := by
  rw [exec_eq, submit_of_pass hb he hf]
  simp only [runOf, hi]
  rfl

/-- What a submission can do: drop, fail a check, start an ALU command, or run an immediate one. -/
theorem exec_cases (i : Instr) (s : State) :
    ((s.busy = true ∨ s.err = true) ∧ exec i s = .next s.drop) ∨
    (s.busy = false ∧ s.err = false ∧ ∃ c, s.failure i = some c ∧ exec i s = .next (s.checkFailed c)) ∨
    (s.busy = false ∧ s.err = false ∧ s.failure i = none ∧ isAluCommand i = true ∧
      exec i s = .next (s.started i)) ∨
    (s.busy = false ∧ s.err = false ∧ s.failure i = none ∧ isAluCommand i = false ∧
      exec i s = .next (bodyOf i s.sample (s.accept (encode i) s.sample)).completeOk) := by
  by_cases hd : s.busy = true ∨ s.err = true
  · exact .inl ⟨hd, exec_of_drop hd⟩
  · simp only [not_or, Bool.not_eq_true] at hd
    obtain ⟨hb, he⟩ := hd
    right
    cases hf : s.failure i with
    | some c => exact .inl ⟨hb, he, c, rfl, exec_of_failure hb he hf⟩
    | none =>
      right
      cases hi : isAluCommand i with
      | true => exact .inl ⟨hb, he, rfl, rfl, exec_of_alu hb he hf hi⟩
      | false => exact .inr ⟨hb, he, rfl, rfl, exec_of_immediate hb he hf hi⟩

/-! ### The checks -/

theorem State.valid_eq (s : State) (n : Nat) : s.valid n = (s.reg n).isSome := rfl

theorem checks_eq_none (sel regs key keys ewin empty srcs : Bool) :
    (if !sel then some ErrCode.illegalCmd
      else if !regs then some .badReg
      else if key && !keys then some .keyIncomplete
      else if ewin && empty then some .ewinEmpty
      else if !srcs then some .uninitRead
      else none) = none ↔
    (sel && regs) = true ∧ (key = true → keys = true) ∧ (ewin = true → empty = false) ∧ srcs = true := by
  revert sel regs key keys ewin empty srcs
  decide

/-- The checks pass exactly when the operands are well formed and what the command reads is there (R123). -/
theorem failure_eq_none_iff (i : Instr) (s : State) :
    s.failure i = none ↔ i.wf = true ∧ (needsKey i = true → ∀ n ∈ kRegs, (s.reg n).isSome = true) ∧
      (needsEwin i = true → s.ewin.isSome = true) ∧ ∀ n ∈ sourceSet i, (s.reg n).isSome = true := by
  refine (checks_eq_none _ _ _ _ _ _ _).trans ?_
  simp only [List.all_eq_true, State.valid_eq, Instr.wf, State.sample]
  cases s.ewin <;> simp

/-! ### The block's steps -/

/-- The state after the request `req` of the k-th line `ln` is issued. -/
def State.issued (s : State) (k : Nat) (ln : Line) (req : AluRequest) : State :=
  { s with
    todo := s.todo.eraseIdx k
    pending := s.pending ++ [ln.pend s.nextTag req]
    nextTag := s.nextTag + 1 }

/-- The state after the answer `e` to `p` is received, before the end of the command is looked for. -/
def State.received (s : State) (p : Pending) (e : EW) : State :=
  { s with regs := writeEws s.regs p.dsts (some e)
           pending := s.pending.filter fun q => !(q.tag == p.tag) }

/-- What an issue step can do (R126, R221). -/
theorem issue_cases (k : Nat) (s : State) :
    s.issue k = .next s ∨
    ∃ ln, s.todo[k]? = some ln ∧ s.busy = true ∧ s.mayChoose k = true ∧
      s.pending.length < s.params.aluLanes ∧ independent ln (s.todo.take k) s.pending = true ∧
      ((∃ req, s.request ln = .ok req ∧ s.issue k = .next (s.issued k ln req)) ∨
       (∃ f, s.request ln = .error f ∧ s.issue k = .fault f)) := by
  unfold State.issue
  cases hln : s.todo[k]? with
  | none => exact .inl rfl
  | some ln =>
    by_cases hc : (s.busy && s.mayChoose k && decide (s.pending.length < s.params.aluLanes) &&
        independent ln (s.todo.take k) s.pending) = true
    · simp only [Bool.and_eq_true, decide_eq_true_eq] at hc
      obtain ⟨⟨⟨hb, hm⟩, hl⟩, hi⟩ := hc
      refine .inr ⟨ln, rfl, hb, hm, hl, hi, ?_⟩
      cases hr : s.request ln with
      | ok req => exact .inl ⟨req, rfl, by simp [hb, hm, hl, hi, hr, State.issued]⟩
      | error f => exact .inr ⟨f, rfl, by simp [hb, hm, hl, hi, hr]⟩
    · exact .inl (by simp only [hc]; rfl)

/-- The next line in canonical order may always be chosen (R220). -/
theorem mayChoose_zero (s : State) : s.mayChoose 0 = true := rfl

/-- With one lane no other line may (R220). -/
theorem eq_zero_of_mayChoose {s : State} {k : Nat} (hl : s.params.aluLanes = 1)
    (h : s.mayChoose k = true) : k = 0 := by
  simpa [State.mayChoose, hl] using h

/-- An issue step that is enabled. -/
theorem issue_of_enabled {k : Nat} {s : State} {ln : Line} {req : AluRequest}
    (hln : s.todo[k]? = some ln) (hb : s.busy = true) (hm : s.mayChoose k = true)
    (hl : s.pending.length < s.params.aluLanes)
    (hi : independent ln (s.todo.take k) s.pending = true) (hr : s.request ln = .ok req) :
    s.issue k = .next (s.issued k ln req) := by
  simp [State.issue, hln, hb, hm, hl, hi, hr, State.issued]

/-- What a receive step can do (R126, R132). -/
theorem receive_cases (tag : Nat) (s : State) :
    s.receive tag = s ∨
    ∃ p, s.pending.find? (fun p => p.tag == tag) = some p ∧ p ∈ s.pending ∧ p.tag = tag ∧
      ((∃ r, p.answer = some (.err r) ∧ s.receive tag = s.failAlu r) ∨
       (∃ e, p.answer = some (.ok e) ∧ s.receive tag = (s.received p e).completeIfEnded)) := by
  unfold State.receive
  cases hp : s.pending.find? (fun p => p.tag == tag) with
  | none => exact .inl rfl
  | some p =>
    have hmem := List.mem_of_find?_eq_some hp
    have htag : p.tag = tag := by simpa using List.find?_some hp
    cases ha : p.answer with
    | none => exact .inl (by simp [ha])
    | some a =>
      refine .inr ⟨p, rfl, hmem, htag, ?_⟩
      cases a with
      | err r => exact .inl ⟨r, ha, by simp [ha]⟩
      | ok e => exact .inr ⟨e, ha, by simp [ha, State.received, htag]⟩

/-- The end of a command is looked for after every answer received (R126, R134). -/
theorem completeIfEnded_cases (s : State) :
    ((s.todo ≠ [] ∨ s.pending ≠ []) ∧ s.completeIfEnded = s) ∨
    (s.todo = [] ∧ s.pending = [] ∧ s.completeIfEnded = s.completeOk) := by
  unfold State.completeIfEnded
  cases h1 : s.todo <;> cases h2 : s.pending <;> simp

/-- With tags of their own, the request found by its tag is the one meant. -/
theorem find?_tag_of_mem {ps : List Pending} (hnd : (ps.map Pending.tag).Nodup) {p : Pending}
    (hp : p ∈ ps) : ps.find? (fun q => q.tag == p.tag) = some p := by
  induction ps with
  | nil => simp at hp
  | cons q qs ih =>
    simp only [List.map_cons, List.nodup_cons] at hnd
    rcases List.mem_cons.mp hp with rfl | hin
    · simp
    · have hne : q.tag ≠ p.tag := fun e => hnd.1 (e ▸ List.mem_map_of_mem hin)
      rw [List.find?_cons_of_neg (by simpa using hne)]
      exact ih hnd.2 hin

/-! ### One step -/

/-- What a step does, by the event that stands first in the schedule. -/
theorem step_of_nil {s : State} (h : s.env = []) : step s = s.blockStep := by
  simp [step, State.advance, h]

theorem step_of_cons {s : State} {ev : Event} {rest : List Event} (h : s.env = ev :: rest) :
    step s = State.event ev { s with env := rest } := by
  simp [step, State.advance, h]

/-- A run of the machine behind the host's interface, one step at a time. -/
theorem run_zero (s : State) : Host.Core.run core 0 s = .next s := rfl
theorem run_of_next {s t : State} (n : Nat) (h : step s = .next t) :
    Host.Core.run core (n + 1) s = Host.Core.run core n t := by
  have hs : core.step s = .next t := h
  simp only [Host.Core.run, hs]
theorem run_of_fault {s : State} {f : Fault} (n : Nat) (h : step s = .fault f) :
    Host.Core.run core (n + 1) s = .fault f := by
  have hs : core.step s = .fault f := h
  simp only [Host.Core.run, hs]

/-- What the block does by itself: receive an answer it holds, or issue the next request (R220). -/
theorem blockStep_cases (s : State) :
    (∃ p, p ∈ s.pending ∧ p.answer.isSome = true ∧ s.blockStep = .next (s.receive p.tag)) ∨
    ((∀ p ∈ s.pending, p.answer = none) ∧ s.blockStep = s.issue 0) := by
  unfold State.blockStep
  cases hp : s.pending.find? (fun p => p.answer.isSome) with
  | some p =>
    have := List.find?_some hp
    exact .inl ⟨p, List.mem_of_find?_eq_some hp, this, rfl⟩
  | none =>
    refine .inr ⟨fun p hmem => ?_, rfl⟩
    have := List.find?_eq_none.mp hp p hmem
    simpa using this

/-- Submission of a word, by what it decodes to (R120 to R124). -/
theorem submitWord_of_command {v : Word} {i : Instr} {s : State} (h : decode v = .command i) :
    s.submitWord v = exec i s := by
  unfold State.submitWord
  by_cases hd : s.busy = true ∨ s.err = true
  · rw [exec_of_drop hd]
    have : (s.busy || s.err) = true := by simpa using hd
    simp [this]
  · simp only [not_or, Bool.not_eq_true] at hd
    simp [hd.1, hd.2, h]

theorem submitWord_of_illegal {v : Word} {s : State} (hb : s.busy = false) (he : s.err = false)
    (h : decode v = .illegal) : s.submitWord v = .next (s.checkFailed .illegalCmd) := by
  simp only [State.submitWord, hb, he, h]
  rfl

theorem submitWord_of_badReg {v : Word} {s : State} (hb : s.busy = false) (he : s.err = false)
    (h : decode v = .badReg) : s.submitWord v = .next (s.checkFailed .badReg) := by
  simp only [State.submitWord, hb, he, h]
  rfl

theorem submitWord_of_drop {v : Word} {s : State} (hd : s.busy = true ∨ s.err = true) :
    s.submitWord v = .next s.drop := by
  have : (s.busy || s.err) = true := by simpa using hd
  simp [State.submitWord, this]

/-- What a submission of any word can do. -/
theorem submitWord_cases (v : Word) (s : State) :
    ((s.busy = true ∨ s.err = true) ∧ s.submitWord v = .next s.drop) ∨
    (s.busy = false ∧ s.err = false ∧ ∃ c, c ≠ .none ∧ c ≠ .aluError ∧
      s.submitWord v = .next (s.checkFailed c)) ∨
    (s.busy = false ∧ s.err = false ∧ ∃ i, decode v = .command i ∧ s.failure i = none ∧
      isAluCommand i = true ∧ s.submitWord v = .next (s.started i)) ∨
    (s.busy = false ∧ s.err = false ∧ ∃ i, decode v = .command i ∧ s.failure i = none ∧
      isAluCommand i = false ∧
      s.submitWord v = .next (bodyOf i s.sample (s.accept (encode i) s.sample)).completeOk) := by
  by_cases hd : s.busy = true ∨ s.err = true
  · exact .inl ⟨hd, submitWord_of_drop hd⟩
  · have hd' := hd
    simp only [not_or, Bool.not_eq_true] at hd
    obtain ⟨hb, he⟩ := hd
    right
    cases h : decode v with
    | illegal => exact .inl ⟨hb, he, _, by simp, by simp, submitWord_of_illegal hb he h⟩
    | badReg => exact .inl ⟨hb, he, _, by simp, by simp, submitWord_of_badReg hb he h⟩
    | command i =>
      rw [submitWord_of_command h]
      rcases exec_cases i s with ⟨hx, _⟩ | ⟨_, _, c, hc, hx⟩ | ⟨_, _, hf, hi, hx⟩ | ⟨_, _, hf, hi, hx⟩
      · exact absurd hx hd'
      · refine .inl ⟨hb, he, c, ?_, ?_, hx⟩ <;>
        · rintro rfl
          revert hc
          simp only [State.failure, State.firstFailure]
          split_ifs <;> simp
      · exact .inr (.inl ⟨hb, he, i, rfl, hf, hi, hx⟩)
      · exact .inr (.inr ⟨hb, he, i, rfl, hf, hi, hx⟩)

end Sys2Proof.Machine
end

