-- ==== Sys2Proof/Laws/PerInstr.lean ====
section
/-! SUPPORT. A statement for every constructor of Instr: the command's word lies in its own row of the opcode
map and the row reads the command back from it (spec 30_encoding.md R92 to R102). -/

namespace Sys2Proof.Laws

/-- The row of the opcode map that the word of `i` selects by its opcode matches the word under its mask, and
reads `i` from its fields. -/
def InRow.Statement (i : Instr) : Prop :=
  ∃ row, opcodeMap.find? (fun r => r.opc == field.opc (encode i)) = some row ∧
    encode i &&& row.mask = row.pattern ∧ row.read (encode i) = i

/-- From the opcode alone: the word's opcode bits name the row. -/
theorem inRow_of_opc (i : Instr) (o : BitVec 6) (row : OpcodeRow)
    (hopc : field.opc (encode i) = o)
    (hrow : opcodeMap.find? (fun r => r.opc == o) = some row)
    (hmask : encode i &&& row.mask = row.pattern) (hread : row.read (encode i) = i) :
    InRow.Statement i :=
  ⟨row, by rw [hopc]; exact hrow, hmask, hread⟩

/-! ### The fields of each format's words, over any opcode -/

theorem opc_of_formatR (o : BitVec 6) (rd ra rb : RegNum) :
    field.opc (o ++ rd ++ ra ++ rb ++ 0#8 : Word) = o := by
  apply BitVec.eq_of_getElem_eq
  intro i hi
  simp only [field.opc, BitVec.getElem_extractLsb', BitVec.getLsbD_append]
  interval_cases i <;> simp

theorem rd_of_formatR (o : BitVec 6) (rd ra rb : RegNum) :
    field.rd (o ++ rd ++ ra ++ rb ++ 0#8 : Word) = rd := by
  apply BitVec.eq_of_getElem_eq
  intro i hi
  simp only [field.rd, BitVec.getElem_extractLsb', BitVec.getLsbD_append]
  interval_cases i <;> simp

theorem ra_of_formatR (o : BitVec 6) (rd ra rb : RegNum) :
    field.ra (o ++ rd ++ ra ++ rb ++ 0#8 : Word) = ra := by
  apply BitVec.eq_of_getElem_eq
  intro i hi
  simp only [field.ra, BitVec.getElem_extractLsb', BitVec.getLsbD_append]
  interval_cases i <;> simp

theorem rb_of_formatR (o : BitVec 6) (rd ra rb : RegNum) :
    field.rb (o ++ rd ++ ra ++ rb ++ 0#8 : Word) = rb := by
  apply BitVec.eq_of_getElem_eq
  intro i hi
  simp only [field.rb, BitVec.getElem_extractLsb', BitVec.getLsbD_append]
  interval_cases i <;> simp

theorem mask_of_formatR (o : BitVec 6) (rd ra rb : RegNum) :
    (o ++ rd ++ ra ++ rb ++ 0#8 : Word) &&& 0xFC0000FF#32 = (o ++ 0#26 : Word) := by
  apply BitVec.eq_of_getElem_eq
  intro i hi
  simp only [BitVec.getElem_and, BitVec.getElem_append]
  interval_cases i <;> simp

theorem opc_of_formatS (o : BitVec 6) (rd ra : RegNum) (sh : BitVec 5) :
    field.opc (o ++ rd ++ ra ++ 0#9 ++ sh : Word) = o := by
  apply BitVec.eq_of_getElem_eq
  intro i hi
  simp only [field.opc, BitVec.getElem_extractLsb', BitVec.getLsbD_append]
  interval_cases i <;> simp

theorem rd_of_formatS (o : BitVec 6) (rd ra : RegNum) (sh : BitVec 5) :
    field.rd (o ++ rd ++ ra ++ 0#9 ++ sh : Word) = rd := by
  apply BitVec.eq_of_getElem_eq
  intro i hi
  simp only [field.rd, BitVec.getElem_extractLsb', BitVec.getLsbD_append]
  interval_cases i <;> simp

theorem ra_of_formatS (o : BitVec 6) (rd ra : RegNum) (sh : BitVec 5) :
    field.ra (o ++ rd ++ ra ++ 0#9 ++ sh : Word) = ra := by
  apply BitVec.eq_of_getElem_eq
  intro i hi
  simp only [field.ra, BitVec.getElem_extractLsb', BitVec.getLsbD_append]
  interval_cases i <;> simp

theorem sh_of_formatS (o : BitVec 6) (rd ra : RegNum) (sh : BitVec 5) :
    field.sh (o ++ rd ++ ra ++ 0#9 ++ sh : Word) = sh := by
  apply BitVec.eq_of_getElem_eq
  intro i hi
  simp only [field.sh, BitVec.getElem_extractLsb', BitVec.getLsbD_append]
  interval_cases i <;> simp

theorem mask_of_formatS (o : BitVec 6) (rd ra : RegNum) (sh : BitVec 5) :
    (o ++ rd ++ ra ++ 0#9 ++ sh : Word) &&& 0xFC003FE0#32 = (o ++ 0#26 : Word) := by
  apply BitVec.eq_of_getElem_eq
  intro i hi
  simp only [BitVec.getElem_and, BitVec.getElem_append]
  interval_cases i <;> simp

theorem opc_of_formatM (o : BitVec 6) (rd ra : RegNum) :
    field.opc (o ++ rd ++ ra ++ 0#14 : Word) = o := by
  apply BitVec.eq_of_getElem_eq
  intro i hi
  simp only [field.opc, BitVec.getElem_extractLsb', BitVec.getLsbD_append]
  interval_cases i <;> simp

theorem rd_of_formatM (o : BitVec 6) (rd ra : RegNum) :
    field.rd (o ++ rd ++ ra ++ 0#14 : Word) = rd := by
  apply BitVec.eq_of_getElem_eq
  intro i hi
  simp only [field.rd, BitVec.getElem_extractLsb', BitVec.getLsbD_append]
  interval_cases i <;> simp

theorem ra_of_formatM (o : BitVec 6) (rd ra : RegNum) :
    field.ra (o ++ rd ++ ra ++ 0#14 : Word) = ra := by
  apply BitVec.eq_of_getElem_eq
  intro i hi
  simp only [field.ra, BitVec.getElem_extractLsb', BitVec.getLsbD_append]
  interval_cases i <;> simp

theorem mask_of_formatM (o : BitVec 6) (rd ra : RegNum) :
    (o ++ rd ++ ra ++ 0#14 : Word) &&& 0xFC003FFF#32 = (o ++ 0#26 : Word) := by
  apply BitVec.eq_of_getElem_eq
  intro i hi
  simp only [BitVec.getElem_and, BitVec.getElem_append]
  interval_cases i <;> simp

theorem opc_of_formatD (o : BitVec 6) (rd : RegNum) :
    field.opc (o ++ rd ++ 0#20 : Word) = o := by
  apply BitVec.eq_of_getElem_eq
  intro i hi
  simp only [field.opc, BitVec.getElem_extractLsb', BitVec.getLsbD_append]
  interval_cases i <;> simp

theorem rd_of_formatD (o : BitVec 6) (rd : RegNum) :
    field.rd (o ++ rd ++ 0#20 : Word) = rd := by
  apply BitVec.eq_of_getElem_eq
  intro i hi
  simp only [field.rd, BitVec.getElem_extractLsb', BitVec.getLsbD_append]
  interval_cases i <;> simp

theorem mask_of_formatD (o : BitVec 6) (rd : RegNum) :
    (o ++ rd ++ 0#20 : Word) &&& 0xFC0FFFFF#32 = (o ++ 0#26 : Word) := by
  apply BitVec.eq_of_getElem_eq
  intro i hi
  simp only [BitVec.getElem_and, BitVec.getElem_append]
  interval_cases i <;> simp

theorem opc_of_formatA (o : BitVec 6) (ra : RegNum) :
    field.opc (o ++ 0#6 ++ ra ++ 0#14 : Word) = o := by
  apply BitVec.eq_of_getElem_eq
  intro i hi
  simp only [field.opc, BitVec.getElem_extractLsb', BitVec.getLsbD_append]
  interval_cases i <;> simp

theorem ra_of_formatA (o : BitVec 6) (ra : RegNum) :
    field.ra (o ++ 0#6 ++ ra ++ 0#14 : Word) = ra := by
  apply BitVec.eq_of_getElem_eq
  intro i hi
  simp only [field.ra, BitVec.getElem_extractLsb', BitVec.getLsbD_append]
  interval_cases i <;> simp

theorem mask_of_formatA (o : BitVec 6) (ra : RegNum) :
    (o ++ 0#6 ++ ra ++ 0#14 : Word) &&& 0xFFF03FFF#32 = (o ++ 0#26 : Word) := by
  apply BitVec.eq_of_getElem_eq
  intro i hi
  simp only [BitVec.getElem_and, BitVec.getElem_append]
  interval_cases i <;> simp

theorem opc_of_formatE (o : BitVec 6) (rd : RegNum) (sel : BitVec 4) :
    field.opc (o ++ rd ++ 0#16 ++ sel : Word) = o := by
  apply BitVec.eq_of_getElem_eq
  intro i hi
  simp only [field.opc, BitVec.getElem_extractLsb', BitVec.getLsbD_append]
  interval_cases i <;> simp

theorem rd_of_formatE (o : BitVec 6) (rd : RegNum) (sel : BitVec 4) :
    field.rd (o ++ rd ++ 0#16 ++ sel : Word) = rd := by
  apply BitVec.eq_of_getElem_eq
  intro i hi
  simp only [field.rd, BitVec.getElem_extractLsb', BitVec.getLsbD_append]
  interval_cases i <;> simp

theorem sel_of_formatE (o : BitVec 6) (rd : RegNum) (sel : BitVec 4) :
    field.sel (o ++ rd ++ 0#16 ++ sel : Word) = sel := by
  apply BitVec.eq_of_getElem_eq
  intro i hi
  simp only [field.sel, BitVec.getElem_extractLsb', BitVec.getLsbD_append]
  interval_cases i <;> simp

theorem mask_of_formatE (o : BitVec 6) (rd : RegNum) (sel : BitVec 4) :
    (o ++ rd ++ 0#16 ++ sel : Word) &&& 0xFC0FFFF0#32 = (o ++ 0#26 : Word) := by
  apply BitVec.eq_of_getElem_eq
  intro i hi
  simp only [BitVec.getElem_and, BitVec.getElem_append]
  interval_cases i <;> simp

theorem opc_of_formatQ (o : BitVec 6) (qa qb qc qd : SIndex) :
    field.opc (o ++ 0#10 ++ qa ++ qb ++ qc ++ qd : Word) = o := by
  apply BitVec.eq_of_getElem_eq
  intro i hi
  simp only [field.opc, BitVec.getElem_extractLsb', BitVec.getLsbD_append]
  interval_cases i <;> simp

theorem qa_of_formatQ (o : BitVec 6) (qa qb qc qd : SIndex) :
    field.qa (o ++ 0#10 ++ qa ++ qb ++ qc ++ qd : Word) = qa := by
  apply BitVec.eq_of_getElem_eq
  intro i hi
  simp only [field.qa, BitVec.getElem_extractLsb', BitVec.getLsbD_append]
  interval_cases i <;> simp

theorem qb_of_formatQ (o : BitVec 6) (qa qb qc qd : SIndex) :
    field.qb (o ++ 0#10 ++ qa ++ qb ++ qc ++ qd : Word) = qb := by
  apply BitVec.eq_of_getElem_eq
  intro i hi
  simp only [field.qb, BitVec.getElem_extractLsb', BitVec.getLsbD_append]
  interval_cases i <;> simp

theorem qc_of_formatQ (o : BitVec 6) (qa qb qc qd : SIndex) :
    field.qc (o ++ 0#10 ++ qa ++ qb ++ qc ++ qd : Word) = qc := by
  apply BitVec.eq_of_getElem_eq
  intro i hi
  simp only [field.qc, BitVec.getElem_extractLsb', BitVec.getLsbD_append]
  interval_cases i <;> simp

theorem qd_of_formatQ (o : BitVec 6) (qa qb qc qd : SIndex) :
    field.qd (o ++ 0#10 ++ qa ++ qb ++ qc ++ qd : Word) = qd := by
  apply BitVec.eq_of_getElem_eq
  intro i hi
  simp only [field.qd, BitVec.getElem_extractLsb', BitVec.getLsbD_append]
  interval_cases i <;> simp

theorem mask_of_formatQ (o : BitVec 6) (qa qb qc qd : SIndex) :
    (o ++ 0#10 ++ qa ++ qb ++ qc ++ qd : Word) &&& 0xFFFF0000#32 = (o ++ 0#26 : Word) := by
  apply BitVec.eq_of_getElem_eq
  intro i hi
  simp only [BitVec.getElem_and, BitVec.getElem_append]
  interval_cases i <;> simp

/-! ### One lemma per constructor -/

theorem InRow.nop : InRow.Statement .nop := by
  exact ⟨_, rfl, by decide, rfl⟩

theorem InRow.add (rd ra rb : RegNum) : InRow.Statement (.add rd ra rb) := by
  refine inRow_of_opc _ 0x01#6 _ (opc_of_formatR 0x01#6 rd ra rb) rfl ?_ ?_
  · exact (mask_of_formatR 0x01#6 rd ra rb).trans (by decide)
  · simp only [encode, rd_of_formatR, ra_of_formatR, rb_of_formatR]

theorem InRow.xor (rd ra rb : RegNum) : InRow.Statement (.xor rd ra rb) := by
  refine inRow_of_opc _ 0x02#6 _ (opc_of_formatR 0x02#6 rd ra rb) rfl ?_ ?_
  · exact (mask_of_formatR 0x02#6 rd ra rb).trans (by decide)
  · simp only [encode, rd_of_formatR, ra_of_formatR, rb_of_formatR]

theorem InRow.and (rd ra rb : RegNum) : InRow.Statement (.and rd ra rb) := by
  refine inRow_of_opc _ 0x03#6 _ (opc_of_formatR 0x03#6 rd ra rb) rfl ?_ ?_
  · exact (mask_of_formatR 0x03#6 rd ra rb).trans (by decide)
  · simp only [encode, rd_of_formatR, ra_of_formatR, rb_of_formatR]

theorem InRow.or (rd ra rb : RegNum) : InRow.Statement (.or rd ra rb) := by
  refine inRow_of_opc _ 0x04#6 _ (opc_of_formatR 0x04#6 rd ra rb) rfl ?_ ?_
  · exact (mask_of_formatR 0x04#6 rd ra rb).trans (by decide)
  · simp only [encode, rd_of_formatR, ra_of_formatR, rb_of_formatR]

theorem InRow.rotl (rd ra : RegNum) (sh : BitVec 5) : InRow.Statement (.rotl rd ra sh) := by
  refine inRow_of_opc _ 0x05#6 _ (opc_of_formatS 0x05#6 rd ra sh) rfl ?_ ?_
  · exact (mask_of_formatS 0x05#6 rd ra sh).trans (by decide)
  · simp only [encode, rd_of_formatS, ra_of_formatS, sh_of_formatS]

theorem InRow.rotr (rd ra : RegNum) (sh : BitVec 5) : InRow.Statement (.rotr rd ra sh) := by
  refine inRow_of_opc _ 0x06#6 _ (opc_of_formatS 0x06#6 rd ra sh) rfl ?_ ?_
  · exact (mask_of_formatS 0x06#6 rd ra sh).trans (by decide)
  · simp only [encode, rd_of_formatS, ra_of_formatS, sh_of_formatS]

theorem InRow.mov (rd ra : RegNum) : InRow.Statement (.mov rd ra) := by
  refine inRow_of_opc _ 0x07#6 _ (opc_of_formatM 0x07#6 rd ra) rfl ?_ ?_
  · exact (mask_of_formatM 0x07#6 rd ra).trans (by decide)
  · simp only [encode, rd_of_formatM, ra_of_formatM]

theorem InRow.ldx (rd : RegNum) : InRow.Statement (.ldx rd) := by
  refine inRow_of_opc _ 0x08#6 _ (opc_of_formatD 0x08#6 rd) rfl ?_ ?_
  · exact (mask_of_formatD 0x08#6 rd).trans (by decide)
  · simp only [encode, rd_of_formatD]

theorem InRow.stx (ra : RegNum) : InRow.Statement (.stx ra) := by
  refine inRow_of_opc _ 0x09#6 _ (opc_of_formatA 0x09#6 ra) rfl ?_ ?_
  · exact (mask_of_formatA 0x09#6 ra).trans (by decide)
  · simp only [encode, ra_of_formatA]

theorem InRow.enc (rd : RegNum) (sel : BitVec 4) : InRow.Statement (.enc rd sel) := by
  refine inRow_of_opc _ 0x0A#6 _ (opc_of_formatE 0x0A#6 rd sel) rfl ?_ ?_
  · exact (mask_of_formatE 0x0A#6 rd sel).trans (by decide)
  · simp only [encode, rd_of_formatE, sel_of_formatE]

theorem InRow.qr (qa qb qc qd : SIndex) : InRow.Statement (.qr qa qb qc qd) := by
  refine inRow_of_opc _ 0x10#6 _ (opc_of_formatQ 0x10#6 qa qb qc qd) rfl ?_ ?_
  · exact (mask_of_formatQ 0x10#6 qa qb qc qd).trans (by decide)
  · simp only [encode, qa_of_formatQ, qb_of_formatQ, qc_of_formatQ, qd_of_formatQ]

theorem InRow.dround : InRow.Statement .dround := by
  exact ⟨_, rfl, by decide, rfl⟩

theorem InRow.ff : InRow.Statement .ff := by
  exact ⟨_, rfl, by decide, rfl⟩

theorem InRow.init : InRow.Statement .init := by
  exact ⟨_, rfl, by decide, rfl⟩

theorem InRow.snap : InRow.Statement .snap := by
  exact ⟨_, rfl, by decide, rfl⟩

theorem InRow.block : InRow.Statement .block := by
  exact ⟨_, rfl, by decide, rfl⟩

theorem InRow.mix : InRow.Statement .mix := by
  exact ⟨_, rfl, by decide, rfl⟩

theorem InRow.ctrinc : InRow.Statement .ctrinc := by
  exact ⟨_, rfl, by decide, rfl⟩

theorem InRow.clrs : InRow.Statement .clrs := by
  exact ⟨_, rfl, by decide, rfl⟩

theorem InRow.clrk : InRow.Statement .clrk := by
  exact ⟨_, rfl, by decide, rfl⟩

end Sys2Proof.Laws
end

