-- ==== Sys2Proof/Laws/Sequencer.lean ====
section
/-! SUPPORT. The lines of the commands: what they read and write, and that in canonical order (spec
43_round_ops.md R220) none reads a register without a value. -/

namespace Sys2Proof.Machine

/-! ### `ready` -/

theorem ready_mono {V W : Nat → Bool} (h : ∀ n, V n = true → W n = true) {ls : List Line}
    (hr : ready V ls = true) : ready W ls = true := by
  induction ls generalizing V W with
  | nil => rfl
  | cons ln ls ih =>
    simp only [ready, Bool.and_eq_true, List.all_eq_true] at hr ⊢
    obtain ⟨⟨⟨h1, h2⟩, h3⟩, h4⟩ := hr
    refine ⟨⟨⟨fun x hx => h _ (h1 x hx), h2⟩, h3⟩, ih (fun n hn => ?_) h4⟩
    simp only [Bool.or_eq_true] at hn ⊢
    exact hn.imp_left (h n)

theorem ready_congr {V W : Nat → Bool} (h : ∀ n, V n = W n) (ls : List Line) : ready V ls = ready W ls := by
  have : V = W := funext h
  rw [this]

/-- A line that reads only `V`, selects a public word if any, and writes implemented registers. -/
def Line.okFor (V : Nat → Bool) (ln : Line) : Bool :=
  ln.srcs.all V && ln.selectorOk && ln.dsts.all fun d => decide (d < 48)

theorem ready_of_okFor {V : Nat → Bool} {ls : List Line} (h : ∀ ln ∈ ls, ln.okFor V = true) :
    ready V ls = true := by
  induction ls generalizing V with
  | nil => rfl
  | cons ln ls ih =>
    have h1 := h ln (by simp)
    simp only [Line.okFor, Bool.and_eq_true] at h1
    simp only [ready, Bool.and_eq_true]
    refine ⟨h1, ready_mono (fun n hn => ?_) (ih fun l hl => h l (by simp [hl]))⟩
    simp [hn]

theorem ready_append {V : Nat → Bool} (as bs : List Line) :
    ready V (as ++ bs) =
      (ready V as && ready (fun n => V n || as.any fun ln => ln.dsts.contains n) bs) := by
  induction as generalizing V with
  | nil => simp [ready]
  | cons ln as ih =>
    simp only [List.cons_append, ready, ih, List.any_cons, Bool.and_assoc, Bool.or_assoc]

/-- One line out of the middle of a ready list: it reads what is held or written before it. -/
theorem ready_get {V : Nat → Bool} {before after : List Line} {ln : Line}
    (h : ready V (before ++ ln :: after) = true) :
    (∀ n ∈ ln.srcs, V n = true ∨ ∃ b ∈ before, n ∈ b.dsts) ∧ ln.selectorOk = true ∧
      ∀ d ∈ ln.dsts, d < 48 := by
  rw [ready_append] at h
  simp only [ready, Bool.and_eq_true, List.all_eq_true, Bool.or_eq_true, List.any_eq_true,
    decide_eq_true_eq] at h
  obtain ⟨_, ⟨⟨h1, h2⟩, h3⟩, _⟩ := h
  refine ⟨fun n hn => ?_, h2, h3⟩
  rcases h1 n hn with hv | ⟨b, hb, hd⟩
  · exact .inl hv
  · exact .inr ⟨b, hb, by simpa using hd⟩

/-- Taking that line out and counting its destinations as held leaves the rest ready. -/
theorem ready_remove {V : Nat → Bool} {before after : List Line} {ln : Line}
    (h : ready V (before ++ ln :: after) = true) :
    ready (fun n => V n || ln.dsts.contains n) (before ++ after) = true := by
  rw [ready_append] at h ⊢
  simp only [ready, Bool.and_eq_true] at h ⊢
  obtain ⟨h1, _, h2⟩ := h
  refine ⟨ready_mono (fun n hn => by simp [hn]) h1, ready_mono (fun n hn => ?_) h2⟩
  simp only [Bool.or_eq_true] at hn ⊢
  tauto

/-! ### Independence (R221) -/

theorem disjoint_iff (xs ys : List Nat) : disjoint xs ys = true ↔ ∀ x ∈ xs, x ∉ ys := by
  simp [disjoint]

theorem independent_iff (ln : Line) (before : List Line) (pend : List Pending) :
    independent ln before pend = true ↔
      (∀ b ∈ before, (∀ x ∈ b.dsts, x ∉ ln.srcs) ∧ (∀ x ∈ b.dsts, x ∉ ln.dsts) ∧
        (∀ x ∈ b.srcs, x ∉ ln.dsts) ∧ mayOverlap b.stage ln.stage = true) ∧
      ∀ p ∈ pend, (∀ x ∈ p.dsts, x ∉ ln.srcs) ∧ (∀ x ∈ p.dsts, x ∉ ln.dsts) ∧
        mayOverlap p.stage ln.stage = true := by
  simp only [independent, Bool.and_eq_true, List.all_eq_true, disjoint_iff, and_assoc]

/-- A line with none before it and none outstanding may be issued. -/
theorem independent_nil (ln : Line) : independent ln [] [] = true := by
  simp [independent]

theorem eraseIdx_of_getElem? {ls : List Line} {k : Nat} {ln : Line} (h : ls[k]? = some ln) :
    ls = ls.take k ++ ln :: ls.drop (k + 1) ∧ ls.eraseIdx k = ls.take k ++ ls.drop (k + 1) := by
  obtain ⟨hk, he⟩ := List.getElem?_eq_some_iff.mp h
  refine ⟨?_, List.eraseIdx_eq_take_drop_succ ..⟩
  rw [← he]
  simp

/-! ### The commands' lines -/

theorem qrLines_srcs {a b c d : Nat} {ln : Line} (h : ln ∈ qrLines a b c d) :
    (∀ n ∈ ln.srcs, n ∈ [a, b, c, d]) ∧ ln.selectorOk = true ∧ ∀ n ∈ ln.dsts, n ∈ [a, b, c, d] := by
  revert ln h
  simp [qrLines, quarterLines, Line.srcs, Line.selectorOk, sReg]

theorem mem_roundsLines {ln : Line} : ln ∈ roundsLines ↔ ∃ r < 10, ln ∈ droundLines r := by
  simp [roundsLines]

/-- A line of one half of a double round is a line of one of its quarter-rounds, in that stage. -/
theorem mem_halfLines {stage : Nat} {quads : List (Nat × Nat × Nat × Nat)} {ln : Line} :
    ln ∈ halfLines stage quads ↔
      ∃ a b c d, (a, b, c, d) ∈ quads ∧ ∃ l ∈ qrLines a b c d, { l with stage := some stage } = ln := by
  simp [halfLines]

/-- The lines of a double round read and write S only, and stand in one of its two halves. -/
theorem droundLines_spec {r : Nat} {ln : Line} (h : ln ∈ droundLines r) :
    (∀ n ∈ ln.srcs, n < 16) ∧ ln.selectorOk = true ∧ (∀ d ∈ ln.dsts, d < 16) ∧
      (ln.stage = some (2 * r) ∨ ln.stage = some (2 * r + 1)) := by
  have hq : ∀ q ∈ columnQuads ++ diagonalQuads, ∀ n ∈ [q.1, q.2.1, q.2.2.1, q.2.2.2], n < 16 := by decide
  have key : ∀ stage quads, quads ⊆ columnQuads ++ diagonalQuads → ln ∈ halfLines stage quads →
      (∀ n ∈ ln.srcs, n < 16) ∧ ln.selectorOk = true ∧ (∀ d ∈ ln.dsts, d < 16) ∧
        ln.stage = some stage := by
    intro stage quads hsub hln
    obtain ⟨a, b, c, d, hmem, l, hl, rfl⟩ := mem_halfLines.mp hln
    obtain ⟨h1, h2, h3⟩ := qrLines_srcs hl
    have hb := hq _ (hsub hmem)
    exact ⟨fun n hn => hb n (h1 n hn), h2, fun d hd => hb d (h3 d hd), rfl⟩
  rcases List.mem_append.mp h with h | h
  · obtain ⟨h1, h2, h3, h4⟩ := key _ _ (List.subset_append_left _ _) h
    exact ⟨h1, h2, h3, .inl h4⟩
  · obtain ⟨h1, h2, h3, h4⟩ := key _ _ (List.subset_append_right _ _) h
    exact ⟨h1, h2, h3, .inr h4⟩

theorem droundLines_okFor {V : Nat → Bool} (h : ∀ n < 16, V n = true) {r : Nat} :
    ∀ ln ∈ droundLines r, ln.okFor V = true := by
  intro ln hln
  obtain ⟨h1, h2, h3, _⟩ := droundLines_spec hln
  simp only [Line.okFor, Bool.and_eq_true, List.all_eq_true, decide_eq_true_eq]
  exact ⟨⟨fun n hn => h n (h1 n hn), h2⟩, fun d hd => Nat.lt_of_lt_of_le (h3 d hd) (by decide)⟩

theorem ffLines_okFor {V : Nat → Bool} (h : ∀ n < 32, V n = true) : ∀ ln ∈ ffLines, ln.okFor V = true := by
  have hc : ∀ ln ∈ ffLines, (∀ n ∈ ln.srcs, n < 32) ∧ ln.selectorOk = true ∧ ∀ d ∈ ln.dsts, d < 48 := by
    decide
  intro ln hln
  obtain ⟨h1, h2, h3⟩ := hc ln hln
  simp only [Line.okFor, Bool.and_eq_true, List.all_eq_true, decide_eq_true_eq]
  exact ⟨⟨fun n hn => h n (h1 n hn), h2⟩, h3⟩

theorem ready_initLines (V : Nat → Bool) : ready V initLines = true :=
  ready_of_okFor (by intro ln hln; revert ln hln; simp [initLines, initLine, Line.okFor, Line.srcs,
    Line.selectorOk, sReg, iReg])

theorem ready_mixLines {V : Nat → Bool} (h : ∀ n < 32, V n = true) :
    ready V (roundsLines ++ ffLines) = true := by
  apply ready_of_okFor
  intro ln hln
  rcases List.mem_append.mp hln with h1 | h1
  · obtain ⟨r, _, hr⟩ := mem_roundsLines.mp h1
    exact droundLines_okFor (fun n hn => h n (by omega)) ln hr
  · exact ffLines_okFor h ln h1

/-- INIT's lines write S0..S3, S12..S15 and the same words of I. -/
theorem initLines_dsts (n : Nat) : (initLines.any fun ln => ln.dsts.contains n) =
    decide (n < 4 ∨ (12 ≤ n ∧ n < 20) ∨ (28 ≤ n ∧ n < 32)) := by
  by_cases h : n < 32
  · interval_cases n <;> decide
  · have h1 : (initLines.any fun ln => ln.dsts.contains n) = false := by
      simp [initLines, initLine, sReg, iReg]
      omega
    rw [h1]
    simp
    omega

theorem ready_blockLines {V : Nat → Bool}
    (h : ∀ n, (4 ≤ n ∧ n < 12) ∨ (20 ≤ n ∧ n < 28) → V n = true) :
    ready V (initLines ++ roundsLines ++ ffLines) = true := by
  rw [List.append_assoc, ready_append, ready_initLines, Bool.true_and]
  apply ready_mixLines
  intro n hn
  rw [initLines_dsts]
  simp only [Bool.or_eq_true, decide_eq_true_eq]
  by_cases h1 : (4 ≤ n ∧ n < 12) ∨ (20 ≤ n ∧ n < 28)
  · exact .inl (h n h1)
  · right; omega

theorem mem_sRegs (n : Nat) : n ∈ sRegs ↔ n < 16 := by simp [sRegs, sReg]

/-- Destination sets name implemented registers. -/
theorem destSet_lt {i : Instr} (hw : i.wf = true) : ∀ d ∈ destSet i, d < 48 := by
  have hs : ∀ d ∈ sRegs, d < 48 := by decide
  have hi : ∀ d ∈ iRegs, d < 48 := by decide
  cases i <;>
    simp_all [destSet, Instr.wf, Instr.selOk, Instr.regsOk, Instr.regFields, RegNum.implemented, sReg,
      or_imp, forall_and]
  all_goals omega

/-! ### The halves of the double rounds (R137, R221) -/

theorem stageLe_iff (a b : Option Nat) :
    stageLe a b = true ↔ ∀ m n, a = some m → b = some n → m ≤ n := by
  cases a <;> cases b <;> simp [stageLe]

theorem mayOverlap_iff (a b : Option Nat) :
    mayOverlap a b = true ↔ ∀ m n, a = some m → b = some n → m = n := by
  cases a <;> cases b <;> simp [mayOverlap]

/-- A half that may overlap another is no later than it, and no earlier. -/
theorem stageLe_of_mayOverlap {a b : Option Nat} (h : mayOverlap a b = true) :
    stageLe a b = true ∧ stageLe b a = true := by
  rw [mayOverlap_iff] at h
  simp only [stageLe_iff]
  exact ⟨fun m n ha hb => (h m n ha hb).le, fun m n hb ha => (h n m ha hb).ge⟩

/-- Lines outside the double rounds stand in no half. -/
theorem stage_of_mem_initLines {ln : Line} (h : ln ∈ initLines) : ln.stage = none := by
  revert ln h; decide
theorem stage_of_mem_ffLines {ln : Line} (h : ln ∈ ffLines) : ln.stage = none := by
  revert ln h; decide
theorem stage_of_mem_qrLines {a b c d : Nat} {ln : Line} (h : ln ∈ qrLines a b c d) : ln.stage = none := by
  revert ln h; simp [qrLines, quarterLines]

theorem pairwise_stageLe_of_none {ls : List Line} (h : ∀ ln ∈ ls, ln.stage = none) :
    ls.Pairwise fun a b => stageLe a.stage b.stage = true :=
  List.pairwise_of_forall_mem_list fun a ha b _ => (stageLe_iff _ _).mpr (by simp [h a ha])

theorem pairwise_stageLe_droundLines (r : Nat) :
    (droundLines r).Pairwise fun a b => stageLe a.stage b.stage = true := by
  have hs : ∀ {n quads ln}, ln ∈ halfLines n quads → ln.stage = some n := by
    intro n quads ln h
    obtain ⟨_, _, _, _, _, l, _, rfl⟩ := mem_halfLines.mp h
    rfl
  refine List.pairwise_append.mpr ⟨?_, ?_, ?_⟩
  · exact List.pairwise_of_forall_mem_list fun a ha b hb => by simp [hs ha, hs hb, stageLe]
  · exact List.pairwise_of_forall_mem_list fun a ha b hb => by simp [hs ha, hs hb, stageLe]
  · exact fun a ha b hb => by simp [hs ha, hs hb, stageLe]

theorem pairwise_stageLe_roundsLines :
    roundsLines.Pairwise fun a b => stageLe a.stage b.stage = true := by
  refine List.pairwise_flatMap.mpr ⟨fun r _ => pairwise_stageLe_droundLines r, ?_⟩
  refine List.Pairwise.imp ?_ List.pairwise_lt_range
  intro r q hrq a ha b hb
  rw [stageLe_iff]
  intro m n hm hn
  have h1 := (droundLines_spec ha).2.2.2
  have h2 := (droundLines_spec hb).2.2.2
  rw [hm] at h1
  rw [hn] at h2
  simp only [Option.some.injEq] at h1 h2
  omega

/-- A command's lines stand in the order of the halves. -/
theorem pairwise_stageLe_linesOf (i : Instr) :
    (linesOf i).Pairwise fun a b => stageLe a.stage b.stage = true := by
  have mix : (roundsLines ++ ffLines).Pairwise fun a b => stageLe a.stage b.stage = true :=
    List.pairwise_append.mpr ⟨pairwise_stageLe_roundsLines,
      pairwise_stageLe_of_none fun _ => stage_of_mem_ffLines,
      fun a _ b hb => (stageLe_iff _ _).mpr (by simp [stage_of_mem_ffLines hb])⟩
  cases i with
  | qr => exact pairwise_stageLe_of_none fun _ => stage_of_mem_qrLines
  | dround => exact pairwise_stageLe_droundLines 0
  | ff => exact pairwise_stageLe_of_none fun _ => stage_of_mem_ffLines
  | init => exact pairwise_stageLe_of_none fun _ => stage_of_mem_initLines
  | mix => exact mix
  | block =>
    show (initLines ++ roundsLines ++ ffLines).Pairwise _
    rw [List.append_assoc]
    exact List.pairwise_append.mpr ⟨pairwise_stageLe_of_none fun _ => stage_of_mem_initLines, mix,
      fun a ha b _ => (stageLe_iff _ _).mpr (by simp [stage_of_mem_initLines ha])⟩
  | _ => exact pairwise_stageLe_of_none (by simp [linesOf, wordLine])

/-- Every line of a command writes registers of its destination set only (R131). -/
theorem linesOf_dsts {i : Instr} {ln : Line} (h : ln ∈ linesOf i) : ∀ d ∈ ln.dsts, d ∈ destSet i := by
  have hd : ∀ r, ∀ ln ∈ droundLines r, ∀ d ∈ ln.dsts, d ∈ sRegs := fun r ln hln d hdm =>
    (mem_sRegs d).mpr ((droundLines_spec hln).2.2.1 d hdm)
  have hf : ∀ ln ∈ ffLines, ∀ d ∈ ln.dsts, d ∈ sRegs := by decide
  have hi : ∀ ln ∈ initLines, ∀ d ∈ ln.dsts, d ∈ sRegs ++ iRegs := by decide
  cases i with
  | qr qa qb qc qd => exact (qrLines_srcs h).2.2
  | dround => exact hd _ _ h
  | ff => exact hf _ h
  | init => exact hi _ h
  | block =>
    intro d hdm
    simp only [linesOf, List.mem_append, mem_roundsLines] at h
    rcases h with (h | ⟨r, _, h⟩) | h
    · exact hi _ h d hdm
    · exact List.mem_append_left _ (hd r _ h d hdm)
    · exact List.mem_append_left _ (hf _ h d hdm)
  | mix =>
    simp only [linesOf, List.mem_append, mem_roundsLines] at h
    exact h.elim (fun ⟨r, _, h⟩ => hd r _ h) (hf _)
  | _ => simp_all [linesOf, wordLine, destSet]

theorem linesOf_ne_nil {i : Instr} (h : isAluCommand i = true) : linesOf i ≠ [] := by
  cases i <;> first | exact List.cons_ne_nil _ _ | simp [isAluCommand] at h

theorem mem_iRegs (n : Nat) : n ∈ iRegs ↔ 16 ≤ n ∧ n < 32 := by
  simp only [iRegs, iReg, List.mem_map, List.mem_range]
  constructor
  · rintro ⟨a, h, rfl⟩; omega
  · intro h; exact ⟨n - 16, by omega, by omega⟩
theorem mem_kRegs (n : Nat) : n ∈ kRegs ↔ 32 ≤ n ∧ n < 40 := by
  simp only [kRegs, kReg, List.mem_map, List.mem_range]
  constructor
  · rintro ⟨a, h, rfl⟩; omega
  · intro h; exact ⟨n - 32, by omega, by omega⟩
theorem mem_tRegs (n : Nat) : n ∈ tRegs ↔ 40 ≤ n ∧ n < 48 := by
  simp only [tRegs, tReg, List.mem_map, List.mem_range]
  constructor
  · rintro ⟨a, h, rfl⟩; omega
  · intro h; exact ⟨n - 40, by omega, by omega⟩

/-- The register file a started command begins with, register by register. -/
theorem readEw_startRegs (i : Instr) (f : EwFile) (n : Nat) :
    readEw (startRegs i f) n =
      if needsKey i = true ∧ 4 ≤ n ∧ n < 12 then readEw f (n + 28)
      else if needsKey i = true ∧ 20 ≤ n ∧ n < 28 then readEw f (n + 12) else readEw f n := by
  cases i <;> simp [startRegs, needsKey, readEw_keyCopies]

/-- Once the checks pass, the command's lines read only what is held by the time they are read. -/
theorem ready_started {i : Instr} {s : State} (hf : s.failure i = none) (hi : isAluCommand i = true) :
    ready (fun n => (s.started i).valid n) (linesOf i) = true := by
  obtain ⟨hw, hk, _, hsrc⟩ := (failure_eq_none_iff i s).mp hf
  have hval : ∀ n, (s.started i).valid n = (readEw (startRegs i s.regs) n).isSome := fun _ => rfl
  have hsame : ∀ n, needsKey i = false → (s.started i).valid n = (s.reg n).isSome := by
    intro n h0
    rw [hval, readEw_startRegs]
    simp [h0, State.reg_eq]
  have hkeys : needsKey i = true → ∀ n, (4 ≤ n ∧ n < 12) ∨ (20 ≤ n ∧ n < 28) →
      (s.started i).valid n = true := by
    intro h0 n hn
    rw [hval, readEw_startRegs]
    have hkk := hk h0
    rcases hn with hn | hn
    · simpa [h0, hn, State.reg_eq] using hkk (n + 28) ((mem_kRegs _).mpr (by omega))
    · have hx : ¬ (4 ≤ n ∧ n < 12) := by omega
      simpa [h0, hn, hx, State.reg_eq] using hkk (n + 12) ((mem_kRegs _).mpr (by omega))
  have hdl := destSet_lt hw
  cases i with
  | qr qa qb qc qd =>
    apply ready_of_okFor
    intro ln hln
    obtain ⟨h1, h2, h3⟩ := qrLines_srcs hln
    simp only [Line.okFor, Bool.and_eq_true, List.all_eq_true, decide_eq_true_eq]
    refine ⟨⟨fun n hn => ?_, h2⟩, fun d hd => hdl d (h3 d hd)⟩
    rw [hsame n rfl]
    exact hsrc n (h1 n hn)
  | dround =>
    apply ready_of_okFor
    apply droundLines_okFor
    intro n hn
    rw [hsame n rfl]
    exact hsrc n ((mem_sRegs n).mpr hn)
  | ff =>
    apply ready_of_okFor
    apply ffLines_okFor
    intro n hn
    rw [hsame n rfl]
    refine hsrc n (List.mem_append.mpr ?_)
    rw [mem_sRegs, mem_iRegs]
    omega
  | mix =>
    apply ready_mixLines
    intro n hn
    rw [hsame n rfl]
    refine hsrc n (List.mem_append.mpr ?_)
    rw [mem_sRegs, mem_iRegs]
    omega
  | init => exact ready_initLines _
  | block => exact ready_blockLines (hkeys rfl)
  | enc rd sel =>
    simp only [Instr.wf, Instr.selOk, Bool.and_eq_true, decide_eq_true_eq] at hw
    simp only [destSet, List.mem_singleton, forall_eq] at hdl
    simp [linesOf, wordLine, ready, Line.srcs, Line.selectorOk, hw.1, hdl]
  | nop | mov | ldx | stx | snap | ctrinc | clrs | clrk => simp [isAluCommand] at hi
  | _ =>
    simp only [destSet, List.mem_singleton, forall_eq] at hdl
    simp only [sourceSet, List.mem_cons, List.not_mem_nil, or_false, forall_eq_or_imp, forall_eq] at hsrc
    have hv := fun n => hsame n rfl
    simp [linesOf, wordLine, ready, Line.srcs, Line.selectorOk, hdl, hv, hsrc]

end Sys2Proof.Machine
end

