-- ==== Sys2Proof/Tests/Slice0.lean ====
section
/-! SUPPORT. Tests on small states, with the expected values of spec 95_test_vectors.md (cited as V-...), the
WellFormed smoke test, and for each obligation with hypotheses a theorem that some state meets them. -/

namespace Sys2Proof.Tests

open Sys2Proof.Machine

/-! ### Helpers -/

/-- The next state of a result (reset where there is none), and a check on it. -/
def after : Result → State
  | .next t => t
  | .fault _ | .refused _ => State.reset
def holds (r : Result) (p : State → Bool) : Bool :=
  match r with
  | .next t => p t
  | .fault _ | .refused _ => false

/-- The reset state with registers `(n, v)` holding the test ciphertext of `v`. -/
def clear (v : Nat) : EW := ⟨v⟩
def holding (l : List (Nat × Nat)) : State :=
  { State.reset with regs := l.foldl (fun f (n, v) => writeEw f n (some (clear v))) State.reset.regs }

/-- Every EW register holds a value; EWIN and EWOUT too. -/
def full : State :=
  { State.reset with regs := Vector.replicate 48 (some (clear 3)), ewin := some (clear 5),
                     ewout := some (clear 6) }

/-- The test scheme: a handle's number is its decrypted value; the ALU that computes it, and one that
fails every request with reason 7. -/
def clearScheme : Scheme := { dec := fun e => BitVec.ofNat 32 e.handle, session := fun _ => True }
def clearAns (_ : Nat) (r : AluRequest) : EW := clear (r.value clearScheme.dec).toNat
def reason7 : AluReason := ⟨7#8, by decide⟩
def failingAlu : Alu := fun _ _ => .err reason7

/-- A command, its first request issued, and answered by the given ALU. -/
def runWord (alu : Alu) (i : Instr) (s : State) : Result := play alu (canonical 1) (after (exec i s))

theorem clearAlu_lawful : LawfulAlu clearScheme (okAlu clearAns) := by
  intro tag req e h
  refine ⟨trivial, fun _ => ?_⟩
  simp only [okAlu, AluAnswer.ok.injEq] at h
  subst h
  simp [clearScheme, clearAns, clear]

/-! ### WellFormed: an ill-formed term for each check, and the boundary that is well formed -/

theorem test_wf_enc_selector : (Instr.enc 40 9).wf = false ∧ (Instr.enc 40 8).wf = true := by decide
theorem test_wf_destination_register : (Instr.add 48 0 0).wf = false ∧ (Instr.add 47 0 0).wf = true := by
  decide
theorem test_wf_first_source : (Instr.mov 0 48).wf = false ∧ (Instr.stx 48).wf = false := by decide
theorem test_wf_second_source : (Instr.xor 0 0 63).wf = false ∧ (Instr.xor 0 0 47).wf = true := by decide

/-! ### Decoding: the words of 95_test_vectors.md 3.1 to 3.4 -/

theorem test_decode_nop : decode 0x00000000#32 = .command .nop ∧ decode 0x00000001#32 = .illegal := by decide
theorem test_decode_add : decode 0x04C00000#32 = .command (.add 12 0 0) ∧
    decode 0x04000001#32 = .illegal := by decide
theorem test_decode_xor : decode 0x0a9a0000#32 = .command (.xor 41 40 0) := by decide
theorem test_decode_and : decode 0x0efba900#32 = .command (.and 47 46 41) := by decide
theorem test_decode_or : decode 0x12ea2d00#32 = .command (.or 46 40 45) := by decide
theorem test_decode_rotl : decode 0x1400001F#32 = .command (.rotl 0 0 31) ∧
    decode 0x14000020#32 = .illegal := by decide
theorem test_decode_rotr : decode 0x1aca4001#32 = .command (.rotr 44 41 1) := by decide
theorem test_decode_mov : decode 0x1cf4c000#32 = .command (.mov 15 19) ∧
    decode 0x1C000001#32 = .illegal := by decide
theorem test_decode_ldx : decode 0x22F00000#32 = .command (.ldx 47) ∧ decode 0x23000000#32 = .badReg := by
  decide
theorem test_decode_stx : decode 0x240bc000#32 = .command (.stx 47) ∧ decode 0x24100000#32 = .illegal := by
  decide
theorem test_decode_enc : decode 0x2A800008#32 = .command (.enc 40 8) ∧
    decode 0x2A800009#32 = .illegal ∧ decode 0x2A80000F#32 = .illegal := by decide
theorem test_decode_qr : decode 0x4000FFFF#32 = .command (.qr 15 15 15 15) ∧
    decode 0x40010000#32 = .illegal := by decide
theorem test_decode_round_commands :
    decode 0x44000000#32 = .command .dround ∧ decode 0x48000000#32 = .command .ff ∧
    decode 0x4c000000#32 = .command .init ∧ decode 0x50000000#32 = .command .snap ∧
    decode 0x54000000#32 = .command .block ∧ decode 0x58000000#32 = .command .mix := by decide
theorem test_decode_control_commands :
    decode 0x60000000#32 = .command .ctrinc ∧ decode 0x64000000#32 = .command .clrs ∧
    decode 0x68000000#32 = .command .clrk ∧ decode 0x60000001#32 = .illegal := by decide
theorem test_decode_reserved : decode 0xFFFFFFFF#32 = .illegal ∧ decode 0xFC000000#32 = .illegal ∧
    decode 0x3C000000#32 = .illegal ∧ decode 0x5C000000#32 = .illegal := by decide
theorem test_decode_order_of_checks : decode 0x070A2800#32 = .badReg ∧
    decode 0x070A2801#32 = .illegal := by decide
theorem test_decodeTableWord : decodeTableWord 32 0x4000048c = some (.qr 0 4 8 12) := by decide

/-! ### The cipher: V-QR-1, V-DR-2, V-BLK-2, V-BLK-3 -/

theorem test_rotl32_zero : rotl32 0x12345678#32 0 = 0x12345678#32 ∧
    rotr32 0x12345678#32 4 = 0x81234567#32 := by decide
theorem test_qr_vector :
    let x : Block := #v[0x11111111, 0x01020304, 0x9b8d6f43, 0x01234567, 0, 0, 0, 0, 0, 0, 0, 0, 0, 0, 0, 0]
    ((x.qr 0 1 2 3).toList.take 4) = [0xea2a92f4#32, 0xcb1cf8ce#32, 0x4581472e#32, 0x5881c4bb#32] := by
  decide +kernel
theorem test_qr_repeated_index :
    let x : Block := #v[1, 0, 2, 3, 0, 0, 0, 0, 0, 0, 0, 0, 0, 0, 0, 0]
    ((x.qr 0 0 2 3).toList.take 4) = [0x80801110#32, 0#32, 0x01010022#32, 0x01000020#32] := by
  decide +kernel
theorem test_dround_vector :
    (Block.dround (Vector.ofFn fun i => BitVec.ofNat 32 i.val)).toList.take 4 =
      [0xa9295c6a#32, 0xb471be7a#32, 0x38e65ec4#32, 0x74348b87#32] := by decide +kernel
set_option maxRecDepth 100000 in
theorem test_chachaBlock_rfc_bytes :
    (keystreamBytes (chachaBlock (keyWords (Vector.ofFn fun i => BitVec.ofNat 8 i.val)) 1#32
      (nonceWords #v[0, 0, 0, 9, 0, 0, 0, 0x4a, 0, 0, 0, 0]))).take 8 =
      [0x10#8, 0xf1#8, 0xe7#8, 0xe4#8, 0xd1#8, 0x3b#8, 0x59#8, 0x15#8] := by decide +kernel
set_option maxRecDepth 100000 in
theorem test_chachaBlock_source_scenario :
    (chachaBlock (keyWords (Vector.ofFn fun i => BitVec.ofNat 8 (i.val + 1))) 0#32 #v[0, 0, 0])[0] =
      0x9f7e69b1#32 := by decide +kernel
theorem test_transcipherWord : transcipherWord 0xDEADBEEF#32 0x9f7e69b1#32 = 0x41d3d75e#32 := by decide

/-! ### The commands: V-NOP-1 to V-CLR-2, V-ERR-1 to V-ERR-10 -/

theorem test_nop_status : holds (exec .nop State.reset) (fun t => t.statusWord == 0x00000002#32) := by decide
theorem test_mov_copies_handle : holds (exec (.mov 15 19) (holding [(19, 0x6b206574)]))
    (fun t => t.reg 15 == some (clear 0x6b206574) && t.reg 19 == t.reg 15) := by decide
theorem test_mov_uninit : holds (exec (.mov 15 19) State.reset) (fun t => t.errCode == .uninitRead) := by
  decide
theorem test_ldx_status : holds (exec (.ldx 32) { State.reset with ewin := some (clear 0x04030201) })
    (fun t => t.reg 32 == some (clear 0x04030201) && t.statusWord == 0x00010012#32) := by decide
theorem test_ldx_empty_status : holds (exec (.ldx 0) State.reset) (fun t => t.statusWord == 0x00000506#32) := by
  decide
theorem test_stx_sets_ewout : holds (exec (.stx 47) (holding [(47, 1)]))
    (fun t => t.ewout == some (clear 1) && t.statusWord.getLsbD 5) := by decide
theorem test_ctrinc : holds (exec .ctrinc State.reset) (fun t => t.counter == 1#32 && !t.ctrWrap) := by decide
theorem test_ctrinc_wraps : holds (exec .ctrinc { State.reset with counter := 0xFFFFFFFF#32 })
    (fun t => t.counter == 0#32 && t.statusWord == 0x0000000a#32) := by decide
set_option maxRecDepth 4000 in
theorem test_clrs_keeps_keys : holds (exec .clrs full)
    (fun t => t.kv == 0xFF#8 && !t.valid 0 && !t.valid 31 && !t.valid 40) := by decide
theorem test_clrk_keeps_state : holds (exec .clrk full)
    (fun t => t.kv == 0x00#8 && t.valid 0 && t.valid 31 && t.valid 40) := by decide
set_option maxRecDepth 4000 in
theorem test_snap_copies : holds (exec .snap (holding ((List.range 16).map fun j => (j, j))))
    (fun t => t.reg 19 == some (clear 3) && t.reg 3 == some (clear 3) && t.statusWord == 0x00000002#32) := by
  decide
theorem test_block_key_incomplete : holds (exec .block State.reset)
    (fun t => t.statusWord == 0x00000306#32 && t.nextTag == 0) := by decide
theorem test_init_key_incomplete :
    holds (exec .init { full with regs := writeEw full.regs 39 none, ewin := none, ewout := none })
      (fun t => t.statusWord == 0x007f0306#32) := by decide
theorem test_qr_uninit : holds (exec (.qr 0 4 8 12) (holding [(0, 0), (1, 0), (2, 0), (3, 0)]))
    (fun t => t.statusWord == 0x00000406#32) := by decide
theorem test_add_uninit_status :
    holds (exec (.add 0 1 40) (holding [(0, 9), (40, 0xFFFFFFFF)]))
      (fun t => t.errCode == .uninitRead && t.reg 0 == some (clear 9)) := by decide
theorem test_add_wraps : holds (runWord (okAlu clearAns) (.add 42 40 41) (holding [(40, 0xFFFFFFFF), (41, 1)]))
    (fun t => t.reg 42 == some (clear 0) && t.statusWord == 0x00000002#32 && t.nextTag == 1) := by decide
theorem test_xor_same_source : holds (runWord (okAlu clearAns) (.xor 40 40 40) (holding [(40, 0x12345678)]))
    (fun t => t.reg 40 == some (clear 0)) := by decide
theorem test_and : holds (runWord (okAlu clearAns) (.and 42 40 41)
    (holding [(40, 0x12345678), (41, 0x0f0f0f0f)])) (fun t => t.reg 42 == some (clear 0x02040608)) := by decide
theorem test_or : holds (runWord (okAlu clearAns) (.or 42 40 41)
    (holding [(40, 0x12345678), (41, 0x0f0f0f0f)])) (fun t => t.reg 42 == some (clear 0x1f3f5f7f)) := by decide
theorem test_rotl_31 : holds (runWord (okAlu clearAns) (.rotl 42 40 31) (holding [(40, 0x12345678)]))
    (fun t => t.reg 42 == some (clear 0x091a2b3c)) := by decide
theorem test_rotl_0_issues_request :
    holds (runWord (okAlu clearAns) (.rotl 42 40 0) (holding [(40, 0x12345678)]))
      (fun t => t.reg 42 == some (clear 0x12345678) && t.nextTag == 1) := by decide
theorem test_rotr_4 : holds (runWord (okAlu clearAns) (.rotr 42 40 4) (holding [(40, 0x12345678)]))
    (fun t => t.reg 42 == some (clear 0x81234567)) := by decide
theorem test_enc_nonce : holds (runWord (okAlu clearAns) (.enc 40 6) { State.reset with nonce1 := 0x4a000000#32 })
    (fun t => t.reg 40 == some (clear 0x4a000000)) := by decide
theorem test_enc_failure_status : holds (runWord failingAlu (.enc 40 8) full)
    (fun t => t.reg 40 == none && t.statusWord == 0x07ff0636#32) := by decide
theorem test_dround_starts : holds (exec .dround full)
    (fun t => t.todo.length == 96 && t.busy && !t.done) := by decide
theorem test_ff_starts : holds (exec .ff full) (fun t => t.todo.length == 16 && t.busy) := by decide
theorem test_mix_starts : holds (exec .mix full) (fun t => t.todo.length == 976 && t.busy) := by
  decide +kernel
theorem test_block_starts : holds (exec .block full) (fun t => t.todo.length == 984 && t.busy) := by
  decide +kernel
theorem test_busy_drops : holds (exec (.stx 0) (after (exec .ff full)))
    (fun t => t.ovr && t.busy && t.ewout == some (clear 6)) := by decide
theorem test_err_drops : holds (exec .nop (after (exec .block State.reset)))
    (fun t => t.statusWord == 0x00000346#32) := by decide

/-! ### The host's side: V-HOST-1 to V-HOST-7, V-IRQ-1, V-RST-1 -/

/-- One host transaction on a state. -/
def host (tx : HostTx) (s : State) : Result := step { s with env := [.host tx] }

theorem test_read_id : holds (host (.regRead 32 0x00) State.reset) (fun t => t.resp == .data 0x48453230#32) := by
  decide
theorem test_bad_reads : holds (host (.regRead 8 0x08) full) (fun t => t == { full with resp := .busError }) ∧
    holds (host (.regRead 32 0x0A) full) (fun t => t.resp == .busError) ∧
    holds (host (.regRead 32 0x24) full) (fun t => t.resp == .busError) := by decide
theorem test_write_ctrl : holds (host (.regWrite 32 0x04 0xFFFFFFFF#32) State.reset)
    (fun t => t.ctrlWord == 0x00000003#32) := by decide
theorem test_write_status : holds (host (.regWrite 32 0x08 0x00000004#32) (after (exec .block State.reset)))
    (fun t => t.statusWord == 0x00000002#32) := by decide
theorem test_get_empty : holds (host .ewGet State.reset) (fun t => t.resp == .portError) := by decide
theorem test_submit_reserved : holds (host (submission 0xFC000000#32) State.reset)
    (fun t => t.statusWord == 0x00000106#32) := by decide
theorem test_submit_badReg : holds (host (submission 0x070a2800#32) State.reset)
    (fun t => t.statusWord == 0x00000206#32) := by decide
theorem test_irq : (State.irq { State.reset with ieDone := true, done := true }) = true ∧
    (State.irq { State.reset with ieErr := true, done := true }) = false := by decide
theorem test_reset_during_block : holds (step { after (exec .ff full) with env := [.reset] })
    (fun t => t.statusWord == 0x00000000#32 && t.regs == State.reset.regs) := by decide
theorem test_first_command_after_reset : holds (step (State.reset.withFetchWord 32 0x00000000))
    (fun t => t.statusWord == 0x00000002#32) := by decide

/-! ### States that meet the hypotheses of the obligations, one theorem for each obligation that has any -/

set_option maxRecDepth 8000

/-- ADD T2, T0, T1 in progress: accepted; its request outstanding; answered; answered with a failure. -/
def adding : State := after (exec (.add 42 40 41) full)
def asked : State := after (play (okAlu clearAns) [.issue 0] adding)
def answered : State := after (play (okAlu clearAns) [.issue 0, .answer 0] adding)
def failing : State := after (play failingAlu [.issue 0, .answer 0] adding)

/-- Idle with nothing held; with the key words alone; with S and I alone. -/
def keyed : State := holding ((List.range 8).map fun j => (32 + j, j))
def loaded : State := holding ((List.range 32).map fun j => (j, j))
def noEnc (s : State) : State := { s with params := { s.params with encAvailable := false } }
def failed : State := after (exec .block State.reset)

/-- The host submits `w`, does `tx`, next. -/
def submitting (w : Word) (s : State) : State := { s with env := [.host (submission w)] }
def doing (tx : HostTx) (s : State) : State := { s with env := [.host tx] }

theorem meets_DecodeOfEncode : (Instr.qr 15 0 15 0).wf = true ∧ (Instr.add 47 0 47).wf = true := by decide
theorem meets_EncodeOfDecode : decode 0x1400001F#32 = .command (.rotl 0 0 31) := by decide
theorem meets_ReservedOpcodesFailIllegal :
    ([0x2C000000#32, 0x3FFFFFFF#32].all fun w => 0x0B ≤ (field.opc w).toNat ∧ (field.opc w).toNat ≤ 0x0F) ∧
    (field.opc 0x5C000000#32).toNat = 0x17 ∧
    ([0x6C000000#32, 0xFFFFFFFF#32].all fun w => 0x1B ≤ (field.opc w).toNat) ∧
    (submitting 0x6C000000#32 full).busy = false ∧ (submitting 0x6C000000#32 full).err = false := by decide
theorem meets_MustBeZeroBitsAreIllegal :
    ([0x00000001#32, 0x6A000000#32].all fun w => (field.opc w).toNat ∈
      [0x00, 0x11, 0x12, 0x13, 0x14, 0x15, 0x16, 0x18, 0x19, 0x1A] ∧ w.extractLsb' 0 26 ≠ 0#26) ∧
    ([0x04000001#32, 0x10000080#32].all fun w => (field.opc w).toNat ∈ [0x01, 0x02, 0x03, 0x04] ∧
      w.extractLsb' 0 8 ≠ 0#8) ∧
    ([0x14000020#32, 0x18002000#32].all fun w => (field.opc w).toNat ∈ [0x05, 0x06] ∧
      w.extractLsb' 5 9 ≠ 0#9) ∧
    ([0x1C000001#32, 0x1C002000#32].all fun w =>
      (field.opc w).toNat = 0x07 ∧ w.extractLsb' 0 14 ≠ 0#14) ∧
    ([0x20000001#32, 0x20080000#32].all fun w =>
      (field.opc w).toNat = 0x08 ∧ w.extractLsb' 0 20 ≠ 0#20) ∧
    ([0x24100000#32, 0x24000001#32].all fun w => (field.opc w).toNat = 0x09 ∧
      (w.extractLsb' 20 6 ≠ 0#6 ∨ w.extractLsb' 0 14 ≠ 0#14)) ∧
    ([0x28000010#32, 0x28080000#32].all fun w =>
      (field.opc w).toNat = 0x0A ∧ w.extractLsb' 4 16 ≠ 0#16) ∧
    ([0x40010000#32, 0x42000000#32].all fun w =>
      (field.opc w).toNat = 0x10 ∧ w.extractLsb' 16 10 ≠ 0#10) := by decide
theorem meets_OperandChecksOfDecode :
    ([0x2A800009#32, 0x2A80000F#32].all fun w => (field.opc w).toNat = 0x0A ∧ 9 ≤ (field.sel w).toNat) ∧
    ([Instr.add 48 0 0, .stx 63, .enc 48 8].all fun i =>
      i.selOk = true ∧ (i.regFields.any fun n => 48 ≤ n.toNat)) := by decide
theorem meets_OpcodeRowsDisjoint : ∃ r ∈ opcodeMap, 0x54000000#32 &&& r.mask = r.pattern := by decide
theorem meets_ResetInputResets : ({ asked with env := [.reset] } : State).env = [.reset] := rfl
theorem meets_invariant : asked.Inv ∧ asked.busy = true ∧ asked.pending ≠ [] ∧
    step asked = .next (after (step asked)) := by
  refine ⟨?_, by decide, by decide, rfl⟩
  simp only [State.Inv, State.StatusInv, State.SeqInv, State.DataInv, State.RoundInv]
  decide
theorem meets_StaleAnswersDiscarded : ∃ p ∈ asked.pending,
    Host.Core.run core 1 asked.resetInput = .next (after (step asked.resetInput)) ∧ p.tag = 0 := by
  refine ⟨_, List.mem_cons_self .., rfl, by decide⟩
theorem meets_StepRunsDecodedCommand :
    (submitting 0x06aa2900#32 full).env = [.host (.regWrite 32 0x0C 0x06aa2900#32)] ∧
    decode 0x06aa2900#32 = .command (.add 42 40 41) := by decide
theorem meets_BusyOrErrorDrops : asked.busy = true ∧ failed.err = true := by decide
theorem meets_BadWordsFail : decode 0xFC000000#32 = .illegal ∧ decode 0x070A2800#32 = .badReg ∧
    (submitting 0x070A2800#32 full).env = [.host (.regWrite 32 0x0C 0x070A2800#32)] ∧
    (submitting 0x070A2800#32 full).busy = false ∧ (submitting 0x070A2800#32 full).err = false := by decide
theorem meets_OperandChecksFail : full.busy = false ∧ full.err = false ∧ (Instr.enc 40 15).selOk = false ∧
    (Instr.mov 0 48).selOk = true ∧ (Instr.mov 0 48).regsOk = false := by decide
theorem meets_KeyIncompleteFails :
    ({ full with regs := writeEw full.regs 39 none } : State).busy = false ∧
    ({ full with regs := writeEw full.regs 39 none } : State).err = false ∧
    ({ full with regs := writeEw full.regs 39 none } : State).kv = 0x7F#8 := by decide
theorem meets_EmptyEwinFails : loaded.busy = false ∧ loaded.err = false ∧ loaded.ewin = none ∧
    (47#6).toNat < 48 := by decide
theorem meets_UninitReadFails : keyed.busy = false ∧ keyed.err = false ∧ keyed.reg (0#6).toNat = none ∧
    keyed.reg (47#6).toNat = none ∧ keyed.reg (15#4).toNat = none ∧
    ({ full with regs := writeEw full.regs 15 none } : State).reg 15 = none ∧
    ({ full with regs := writeEw full.regs 31 none } : State).reg 31 = none := by decide
theorem meets_NopAndCtrincComplete : full.busy = false ∧ full.err = false ∧
    ({ full with counter := 0xFFFFFFFF#32 } : State).counter = 0xFFFFFFFF#32 := by decide
theorem meets_MovAndLdxComplete : full.busy = false ∧ full.err = false ∧ (47#6).toNat < 48 ∧
    full.reg (47#6).toNat = some (clear 3) ∧ full.ewin = some (clear 5) := by decide
theorem meets_StxCompletes : full.busy = false ∧ full.err = false ∧ (47#6).toNat < 48 ∧
    full.reg (47#6).toNat = some (clear 3) := by decide
theorem meets_ClearsComplete : full.busy = false ∧ full.err = false := by decide
theorem meets_SnapCompletes : loaded.busy = false ∧ loaded.err = false ∧
    ∀ j < 16, (loaded.reg j).isSome = true := by decide
theorem meets_BinaryWordCommandsComplete : full.busy = false ∧ full.err = false ∧
    1 ≤ full.params.aluLanes ∧ (47#6).toNat < 48 ∧ full.reg (47#6).toNat = some (clear 3) ∧
    full.reg (0#6).toNat = some (clear 3) ∧ LawfulAlu clearScheme (okAlu clearAns) ∧
    clearScheme.session (clear 3) :=
  ⟨by decide, by decide, by decide, by decide, by decide, by decide, clearAlu_lawful, trivial⟩
theorem meets_RotationsComplete : full.busy = false ∧ full.err = false ∧ 1 ≤ full.params.aluLanes ∧
    full.reg (47#6).toNat = some (clear 3) ∧ LawfulAlu clearScheme (okAlu clearAns) ∧
    clearScheme.session (clear 3) :=
  ⟨by decide, by decide, by decide, by decide, clearAlu_lawful, trivial⟩
theorem meets_EncCompletes : (∀ sel < 9, ([(0, 0x61707865#32), (1, 0x3320646e#32), (2, 0x79622d32#32),
      (3, 0x6b206574#32), (4, full.counter), (5, full.nonce0), (6, full.nonce1), (7, full.nonce2),
      (8, full.data)].lookup (BitVec.ofNat 4 sel).toNat).isSome = true) ∧
    full.params.encAvailable = true ∧ (47#6).toNat < 48 := by decide
theorem meets_EncUnavailableNeverSucceeds :
    ∀ i ∈ [Instr.enc 40 8, .init], (noEnc full).busy = false ∧ (noEnc full).err = false ∧
      (noEnc full).params.encAvailable = false ∧ (after (exec i (noEnc full))).busy = true ∧
      holds (play failingAlu (canonical 1) (after (exec i (noEnc full))))
        (fun u => !u.busy && u.err && u.errCode == .aluError) := by
  decide
theorem meets_QrCompletes : loaded.busy = false ∧ loaded.err = false ∧ 1 ≤ loaded.params.aluLanes ∧
    (∀ j ∈ [0#4, 0#4, 2#4, 15#4], (loaded.reg j.toNat).isSome = true) := by decide
theorem meets_DroundCompletes : ∀ j < 16, (loaded.reg j).isSome = true := by decide
theorem meets_FfAndMixComplete : ∀ j < 32, (loaded.reg j).isSome = true := by decide
theorem meets_InitAndBlockComplete : keyed.busy = false ∧ keyed.err = false ∧
    keyed.params.encAvailable = true ∧ ∀ j < 8, (keyed.reg (32 + j)).isSome = true := by decide
theorem meets_holdsS : loaded.holdsS clearScheme (Vector.ofFn fun i => BitVec.ofNat 32 i.val) ∧
    loaded.holdsI clearScheme (Vector.ofFn fun i => BitVec.ofNat 32 (16 + i.val)) := by
  constructor
  · intro i
    refine ⟨clear i.val, ?_, trivial, by simp [clearScheme, clear]⟩
    revert i
    decide
  · intro i
    refine ⟨clear (16 + i.val), ?_, trivial, by simp [clearScheme, clear]⟩
    revert i
    decide
theorem meets_holdsK : keyed.holdsK clearScheme (Vector.ofFn fun j => BitVec.ofNat 32 j.val) := by
  intro j
  refine ⟨clear j.val, ?_, trivial, by simp [clearScheme, clear]⟩
  revert j
  decide

/-- S holds the words of an initial state: the premise of SNAP and MIX. -/
def preloaded : State := holding ((List.range 16).map fun j =>
  (j, ((initBlock #v[0, 1, 2, 3, 4, 5, 6, 7] 1#32 #v[8, 9, 10]).word j).toNat))
theorem meets_SnapThenMix : preloaded.holdsS clearScheme (initBlock #v[0, 1, 2, 3, 4, 5, 6, 7] 1#32 #v[8, 9, 10]) := by
  intro i
  refine ⟨clear ((initBlock #v[0, 1, 2, 3, 4, 5, 6, 7] 1#32 #v[8, 9, 10]).word i).toNat, ?_, trivial, ?_⟩ <;>
    revert i <;> decide
theorem meets_noSubmission : noSubmission [.issue 0, .host (.regWrite 32 0x20 1#32), .answer 0, .receive 0] := by
  intro tx h
  simp only [List.mem_cons, Move.host.injEq, List.not_mem_nil, or_false, reduceCtorEq, false_or] at h
  subst h
  decide
theorem meets_noErrorClear : noErrorClear (canonical 984) := by
  intro width off v h
  simp only [canonical, List.mem_flatten, List.mem_replicate] at h
  obtain ⟨l, ⟨_, rfl⟩, h⟩ := h
  simp at h
theorem meets_RequestCounts : full.busy = false ∧ full.err = false ∧
    holds (exec .ff full) (fun t => t.busy && t.todo.length == 16) ∧
    holds (exec .nop full) (fun t => !t.busy && t.todo.isEmpty) := by decide
theorem meets_BlockIsChaCha20OrNothing : exec .block keyed = .next (after (exec .block keyed)) ∧
    holds (play (okAlu clearAns) (canonical 1) (after (exec .block keyed))) (fun u => u.busy) ∧
    holds (play failingAlu (canonical 1) (after (exec .block keyed)))
      (fun u => !u.busy && (List.range 16).all fun j => u.reg j == none) := by
  refine ⟨rfl, ?_, ?_⟩ <;> decide +kernel
/-- The one long run of these tests: the premises of the statement are about a BLOCK that has succeeded. -/
theorem meets_BlockIsDeterministicOnDecryptions :
    holds (play (okAlu clearAns) (canonical 984) (after (exec .block keyed)))
      (fun u => !u.busy && !u.err) := by decide +kernel
theorem meets_OneLaneIssuesInOrder : adding.params.aluLanes = 1 ∧
    step adding = .next (after (step adding)) ∧ (after (step adding)).nextTag ≠ adding.nextTag := by
  refine ⟨by decide, rfl, by decide⟩
theorem test_one_lane_out_of_order : holds (play (okAlu clearAns) [.issue 1] (after (exec .ff full)))
    (fun t => t.nextTag == 0) ∧
    holds (play (okAlu clearAns) [.issue 1]
      (after (exec .ff { full with params := { full.params with aluLanes := 2 } })))
      (fun t => t.nextTag == 1) := by decide
/-- DROUND with four lanes: with two columns done, the first line of the third may be issued, and so may the
first of the fourth; the first diagonal, whose registers are free, may not (R221). -/
theorem test_diagonals_after_columns :
    let s : State := { after (exec .dround { full with params := { full.params with aluLanes := 4 } }) with
      todo := (droundLines 0).drop 24 }
    holds (s.issue 0) (fun t => t.nextTag == 1) ∧ holds (s.issue 12) (fun t => t.nextTag == 1) ∧
    holds (s.issue 24) (fun t => t.nextTag == 0) := by decide
theorem meets_AluFailureInvalidates : failing.Inv ∧ ∃ p ∈ failing.pending,
    p.answer = some (.err reason7) ∧ failing.cur = some (encode (.add 42 40 41)) := by
  constructor
  · simp only [State.Inv, State.StatusInv, State.SeqInv, State.DataInv, State.RoundInv]
    decide
  · decide
theorem meets_AluFailureInvalidates_later :
    holds (step { failing with env := [.receive 0, .alu 0 (.ok (clear 1))] }) (fun t =>
      t.errCode == .aluError && holds (step t) fun u => u == { t with env := [] }) := by decide
theorem meets_StatusAndCtrlFields : ∀ c ∈ [ErrCode.none, .illegalCmd, .badReg, .keyIncomplete, .uninitRead,
    .ewinEmpty, .aluError], ({ full with errCode := c } : State).errCode = c := by decide
theorem meets_CommandKeepsToDestinationSet : exec (.add 42 40 41) full = .next adding ∧
    adding.busy = true ∧ holds (play (okAlu clearAns) (canonical 1) adding) (fun u => !u.busy) ∧
    holds (play failingAlu (canonical 1) adding) (fun u => !u.busy && u.reg 42 == none) := by
  refine ⟨rfl, ?_, ?_, ?_⟩ <;> decide
theorem meets_NoAnswerNoCompletion : asked.busy = true ∧ (∀ p ∈ asked.pending, p.answer = none) ∧
    asked.env = [] := by decide
theorem meets_host_transactions : (doing (.regRead 32 0x20) full).env = [.host (.regRead 32 0x20)] ∧
    (doing .ewGet full).ewout = some (clear 6) ∧ (doing .ewGet State.reset).ewout = none := by decide
theorem meets_BadAccess : (8 ≠ 32 ∨ 0x08 % 4 ≠ 0 ∨ 0x20 < 0x08) ∧ (32 ≠ 32 ∨ 0x1E % 4 ≠ 0 ∨ 0x20 < 0x1E) ∧
    (32 ≠ 32 ∨ 0x24 % 4 ≠ 0 ∨ 0x20 < 0x24) := by decide
theorem meets_HostCannotDisturb : (doing (.regWrite 32 0x0C 0#32) asked).busy = true := by decide
theorem meets_BusyHostSeesNoRegister :
    State.kv { asked with regs := writeEw asked.regs 0 none } = asked.kv := by decide
theorem meets_RegistersChangeOnlyInCommands : (after (step answered)).regs ≠ answered.regs ∧
    step answered = .next (after (step answered)) := by
  refine ⟨?_, rfl⟩
  decide
theorem meets_CounterAndWrapRules : holds (step (submitting 0x60000000#32 { full with counter := 0xFFFFFFFF#32 }))
    (fun t => t.counter == 0#32 && t.ctrWrap) := by decide
theorem meets_InstancesAreIsolated :
    (match System.run 3 { insts := [full, submitting 0x00000000#32 full], sched := [1, 0, 1] } with
      | .next z => z.insts.length == 2 && z.sched.isEmpty
      | .fault _ | .refused _ => false) = true := by decide

end Sys2Proof.Tests
end

/-! The scope's two statements about steps (spec 00_scope.md): the machine never stops from its invariant
(R12), and its parameters are fixed (R9, R26). Both rest on `step_eq_event`: every step is one event's. -/

namespace Sys2Proof.Machine

/-! ### What a step and a host transaction can do -/

/-- The block's own step is one of its two events (R136, R220). -/
theorem blockStep_eq_event (s : State) : ∃ ev, s.blockStep = State.event ev s := by
  rcases blockStep_cases s with ⟨p, _, _, h⟩ | ⟨_, h⟩
  · exact ⟨.receive p.tag, h⟩
  · exact ⟨.issue 0, h⟩

/-- Every step is one event, on the state with that event taken from the schedule (R136). -/
theorem step_eq_event (s : State) : ∃ ev, step s = State.event ev { s with env := s.env.tail } := by
  cases he : s.env with
  | nil =>
    have hs : { s with env := s.env.tail } = s := by rw [he, List.tail_nil, ← he]
    rw [← he, hs, step_of_nil he]
    exact blockStep_eq_event s
  | cons ev rest => exact ⟨ev, step_of_cons he⟩

/-- What a host transaction that submits no command makes of the state `s` (R63 to R70): it is answered, and
at most one of the registers the host may write, or EWIN, is written. -/
inductive HostEffect (s : State) : State → Prop
  | answered (r : Response) : HostEffect s (s.respond r)
  | ctrl (v : Word) : HostEffect s ((s.respond .done).writeCtrl v)
  | status (v : Word) : HostEffect s ((s.respond .done).writeStatus v)
  | counter (v : Word) : HostEffect s { s.respond .done with counter := v }
  | nonce0 (v : Word) : HostEffect s { s.respond .done with nonce0 := v }
  | nonce1 (v : Word) : HostEffect s { s.respond .done with nonce1 := v }
  | nonce2 (v : Word) : HostEffect s { s.respond .done with nonce2 := v }
  | data (v : Word) : HostEffect s { s.respond .done with data := v }
  | ewin (e : EW) : HostEffect s ({ s with ewin := some e }.respond .done)

/-- A host transaction submits a command word, or answers with a `HostEffect`. -/
theorem hostStep_cases (tx : HostTx) (s : State) :
    (∃ v, tx = submission v ∧ s.hostStep tx = (s.respond .done).submitWord v) ∨
    ∃ t, HostEffect s t ∧ s.hostStep tx = .next t := by
  cases tx with
  | regRead width off =>
    right
    simp only [State.hostStep]
    split
    · split
      · exact ⟨_, .answered _, rfl⟩
      · exact ⟨_, .answered _, rfl⟩
    · exact ⟨_, .answered _, rfl⟩
  | regWrite width off v =>
    by_cases hok : accessOk width off = true
    · have hw : width = 32 := by
        simp only [accessOk, Bool.and_eq_true, beq_iff_eq] at hok
        exact hok.1
      subst hw
      simp only [State.hostStep, hok, if_true, State.writeRegister]
      split
      · rename_i r hr
        split at hr <;> cases hr
        · exact .inr ⟨_, .answered _, rfl⟩
        · exact .inr ⟨_, .ctrl v, rfl⟩
        · exact .inr ⟨_, .status v, rfl⟩
        · exact .inl ⟨v, rfl, rfl⟩
        · exact .inr ⟨_, .counter v, rfl⟩
        · exact .inr ⟨_, .nonce0 v, rfl⟩
        · exact .inr ⟨_, .nonce1 v, rfl⟩
        · exact .inr ⟨_, .nonce2 v, rfl⟩
        · exact .inr ⟨_, .data v, rfl⟩
      · exact .inr ⟨_, .answered _, rfl⟩
    · simp only [State.hostStep, hok]
      exact .inr ⟨_, .answered _, rfl⟩
  | ewPut e => exact .inr ⟨_, .ewin e, rfl⟩
  | ewGet =>
    right
    simp only [State.hostStep]
    split
    · exact ⟨_, .answered _, rfl⟩
    · exact ⟨_, .answered _, rfl⟩

/-! ### No operation changes the parameters (R9) -/

theorem HostEffect.params_eq {s t : State} (h : HostEffect s t) : t.params = s.params := by
  cases h <;> rfl

@[simp] theorem bodyOf_params (i : Instr) (l : Latches) (s : State) :
    (bodyOf i l s).params = s.params := by
  cases i <;> simp only [bodyOf]

/-- The submission of any word answers a next state, with the parameters kept. -/
theorem submitWord_next_params (v : Word) (s : State) :
    ∃ t, s.submitWord v = .next t ∧ t.params = s.params := by
  rcases submitWord_cases v s with ⟨_, h⟩ | ⟨_, _, _, _, _, h⟩ | ⟨_, _, _, _, _, _, h⟩ |
    ⟨_, _, _, _, _, _, h⟩
  · exact ⟨_, h, rfl⟩
  · exact ⟨_, h, rfl⟩
  · exact ⟨_, h, rfl⟩
  · exact ⟨_, h, by simp⟩

/-- So does every host transaction. -/
theorem hostStep_next_params (tx : HostTx) (s : State) :
    ∃ t, s.hostStep tx = .next t ∧ t.params = s.params := by
  rcases hostStep_cases tx s with ⟨v, _, h⟩ | ⟨t, ht, h⟩
  · rw [h]
    exact submitWord_next_params v (s.respond .done)
  · exact ⟨t, h, ht.params_eq⟩

@[simp] theorem completeIfEnded_params (s : State) : s.completeIfEnded.params = s.params := by
  rcases completeIfEnded_cases s with ⟨_, h⟩ | ⟨_, _, h⟩ <;> rw [h]
  rfl

@[simp] theorem receive_params (tag : Nat) (s : State) : (s.receive tag).params = s.params := by
  rcases receive_cases tag s with h | ⟨p, _, _, _, ⟨r, _, h⟩ | ⟨e, _, h⟩⟩
  · rw [h]
  · rw [h, State.failAlu_params]
  · rw [h, completeIfEnded_params]
    rfl

theorem issue_params {k : Nat} {s t : State} (h : s.issue k = .next t) : t.params = s.params := by
  rcases issue_cases k s with hk | ⟨_, _, _, _, _, _, ⟨_, _, hk⟩ | ⟨_, _, hk⟩⟩ <;> rw [hk] at h <;>
    cases h <;> rfl

/-- An event is an issue, or it answers a next state with the parameters kept. -/
theorem event_cases (ev : Event) (s : State) :
    (∃ k, ev = .issue k) ∨ ∃ t, State.event ev s = .next t ∧ t.params = s.params := by
  cases ev with
  | host tx => exact .inr (hostStep_next_params tx s)
  | issue k => exact .inl ⟨k, rfl⟩
  | alu tag a => exact .inr ⟨_, rfl, rfl⟩
  | receive tag => exact .inr ⟨_, rfl, receive_params tag s⟩
  | reset => exact .inr ⟨_, rfl, rfl⟩

theorem event_params {ev : Event} {s t : State} (h : State.event ev s = .next t) :
    t.params = s.params := by
  rcases event_cases ev s with ⟨k, rfl⟩ | ⟨u, hu, hp⟩
  · exact issue_params h
  · rw [hu] at h
    cases h
    exact hp

/-- Settles O15: a step is one event, and no event changes the parameters. -/
theorem stepKeepsParameters : Obligations.StepKeepsParameters := by
  intro s t h
  obtain ⟨ev, hev⟩ := step_eq_event s
  exact event_params (s := { s with env := s.env.tail }) (hev ▸ h)

/-! ### From the invariant every request can be formed (R12) -/

theorem operand_of_valid {s : State} {n : Nat} (h : s.valid n = true) : ∃ e, s.operand n = .ok e := by
  obtain ⟨e, he⟩ := Option.isSome_iff_exists.mp h
  exact ⟨e, by simp only [State.operand, he]⟩

/-- Selectors 0 to 8 name a public word (R98). -/
theorem publicWord_isSome (l : Latches) {sel : BitVec 4} (h : sel.toNat ≤ 8) :
    (publicWord l sel).isSome = true := by
  unfold publicWord
  interval_cases sel.toNat <;> rfl

theorem publicOperand_of_latched {s : State} {sel : BitVec 4} (hl : s.latch.isSome = true)
    (h : sel.toNat ≤ 8) : ∃ v, s.publicOperand sel = .ok v := by
  obtain ⟨l, hl⟩ := Option.isSome_iff_exists.mp hl
  obtain ⟨v, hv⟩ := Option.isSome_iff_exists.mp (publicWord_isSome l h)
  exact ⟨v, by simp only [State.publicOperand, hl, Option.bind_some, hv]⟩

/-- A line whose registers hold values and whose selector names a public word gives a request. -/
theorem request_of_valid {s : State} {ln : Line} (hsrc : ∀ n ∈ ln.srcs, s.valid n = true)
    (hsel : ln.selectorOk = true) (hl : s.latch.isSome = true) : ∃ req, s.request ln = .ok req := by
  unfold State.request
  unfold Line.srcs at hsrc
  unfold Line.selectorOk at hsel
  cases hop : ln.op with
  | bin op a b =>
    obtain ⟨x, hx⟩ := operand_of_valid (hsrc a (by simp [hop]))
    obtain ⟨y, hy⟩ := operand_of_valid (hsrc b (by simp [hop]))
    exact ⟨.bin op x y, by simp only [hx, hy]; rfl⟩
  | rotl a n =>
    obtain ⟨x, hx⟩ := operand_of_valid (hsrc a (by simp [hop]))
    exact ⟨.rotl x n, by simp only [hx]; rfl⟩
  | rotr a n =>
    obtain ⟨x, hx⟩ := operand_of_valid (hsrc a (by simp [hop]))
    exact ⟨.rotr x n, by simp only [hx]; rfl⟩
  | enc sel =>
    simp only [hop, decide_eq_true_eq] at hsel
    obtain ⟨v, hv⟩ := publicOperand_of_latched hl hsel
    exact ⟨.enc v, by simp only [hv]; rfl⟩

/-- The registers a line reads that may be issued (R221) hold values already: what `ready` leaves to earlier
lines or to outstanding requests, independence excludes. -/
theorem valid_srcs_of_independent {s : State} {k : Nat} {ln : Line} (hd : s.DataInv)
    (hb : s.busy = true) (hln : s.todo[k]? = some ln)
    (hi : independent ln (s.todo.take k) s.pending = true) :
    (∀ n ∈ ln.srcs, s.valid n = true) ∧ ln.selectorOk = true := by
  obtain ⟨hready, _, _⟩ := hd hb
  rw [(eraseIdx_of_getElem? hln).1] at hready
  obtain ⟨hsrc, hsel, _⟩ := ready_get hready
  obtain ⟨hbefore, hpend⟩ := (independent_iff ..).mp hi
  refine ⟨fun n hn => ?_, hsel⟩
  rcases hsrc n hn with hv | ⟨b, hbm, hnb⟩
  · simp only [Bool.or_eq_true, List.any_eq_true, List.contains_iff_mem] at hv
    rcases hv with hv | ⟨p, hp, hnp⟩
    · exact hv
    · exact absurd hn ((hpend p hp).1 n hnp)
  · exact absurd hn ((hbefore b hbm).1 n hnb)

theorem issue_next_of_inv {s : State} (h : s.Inv) (k : Nat) : ∃ t, s.issue k = .next t := by
  obtain ⟨_, ⟨_, _, _, hcur⟩, hdata, _⟩ := h
  rcases issue_cases k s with hk | ⟨ln, hln, hb, _, _, hi, ⟨_, _, hk⟩ | ⟨f, hf, _⟩⟩
  · exact ⟨s, hk⟩
  · exact ⟨_, hk⟩
  · obtain ⟨hsrc, hsel⟩ := valid_srcs_of_independent hdata hb hln hi
    obtain ⟨_, hlatch, _⟩ := hcur hb
    obtain ⟨req, hreq⟩ := request_of_valid hsrc hsel hlatch
    rw [hreq] at hf
    cases hf

/-- The invariant says nothing of the schedule. -/
theorem inv_withEnv {s : State} (es : List Event) : State.Inv { s with env := es } ↔ s.Inv := Iff.rfl

theorem event_next_of_inv {s : State} (h : s.Inv) (ev : Event) : ∃ t, State.event ev s = .next t := by
  rcases event_cases ev s with ⟨k, rfl⟩ | ⟨t, ht, _⟩
  · exact issue_next_of_inv h k
  · exact ⟨t, ht⟩

/-- Settles O13: only an issue can stop, and from the invariant the operands of a line that may be issued
are all there. -/
theorem invariantNeverStops : Obligations.InvariantNeverStops := by
  intro s h
  obtain ⟨ev, hev⟩ := step_eq_event s
  rw [hev]
  exact event_next_of_inv ((inv_withEnv s.env.tail).mpr h) ev

end Sys2Proof.Machine

/-! The state's own statements (spec 10_state.md): the values after reset (R48), STATUS and CTRL as the host
reads and writes them (R27, R28, R38), the submission of a command word (R39), and the invariant (R35, R46,
R49), which reset establishes and every step keeps. -/

namespace Sys2Proof.Machine

/-! ### The values after reset (R48) -/

theorem reg_resetWith (p : Params) (n : Nat) : (State.resetWith p).reg n = none :=
  readEw_replicate_none n

theorem kv_resetWith (p : Params) : (State.resetWith p).kv = 0#8 := by
  simp [State.kv, State.valid, reg_resetWith]

theorem statusWord_resetWith (p : Params) : (State.resetWith p).statusWord = 0#32 := by
  rw [State.statusWord, kv_resetWith]
  simp [State.resetWith, ErrCode.bits]

theorem ctrlWord_resetWith (p : Params) : (State.resetWith p).ctrlWord = 0#32 := by
  simp [State.ctrlWord, State.resetWith]

/-- Settles O8: no register holds a value, so KV is 0; the other fields are R48's table as written. -/
theorem resetValues : Obligations.ResetValues :=
  ⟨rfl, fun p => ⟨reg_resetWith p, rfl, rfl, rfl, ctrlWord_resetWith p, statusWord_resetWith p, rfl, rfl, rfl,
    rfl, rfl, rfl, rfl, rfl, rfl⟩⟩

/-! ### STATUS and CTRL (R27, R28) -/

theorem getLsbD_kv (s : State) {j : Nat} (hj : j < 8) : s.kv.getLsbD j = (s.reg (32 + j)).isSome := by
  simp only [State.kv, BitVec.getLsbD_append]
  interval_cases j <;> simp [State.valid, kReg]

/-- STATUS bits 7 to 0, least significant first (R28); bit 7 is reserved. -/
def statusFlags (s : State) : List Bool :=
  [s.busy, s.done, s.err, s.ctrWrap, s.ewin.isSome, s.ewout.isSome, s.ovr, false]

/-- Bits of STATUS from its fields (R28, R65): the one place where the concatenation is taken apart. -/
theorem getLsbD_statusWord (s : State) {i : Nat} (hi : i < 32) : s.statusWord.getLsbD i =
    if i < 8 then (statusFlags s).getD i false
    else if i < 12 then s.errCode.bits.getLsbD (i - 8)
    else if i < 16 then false
    else if i < 24 then s.kv.getLsbD (i - 16)
    else s.aluReason.getLsbD (i - 24) := by
  simp only [State.statusWord, BitVec.getLsbD_append]
  interval_cases i <;> simp [statusFlags]

theorem getLsbD_ctrlWord (s : State) (i : Nat) : s.ctrlWord.getLsbD i =
    if i = 0 then s.ieDone else if i = 1 then s.ieErr else false := by
  simp only [State.ctrlWord, BitVec.getLsbD_append]
  rcases i with _ | _ | i <;> simp

/-- A field of a word, from the word's bits. -/
theorem extractLsb'_eq_of_getLsbD {w : Word} {start len : Nat} {f : BitVec len}
    (h : ∀ i < len, w.getLsbD (start + i) = f.getLsbD i) : w.extractLsb' start len = f :=
  BitVec.eq_of_getLsbD_eq fun i hi => by simpa [hi] using h i hi

theorem statusWord_flag (s : State) (i : Nat) (hi : i < 8) :
    s.statusWord.getLsbD i = (statusFlags s).getD i false := by
  rw [getLsbD_statusWord s (by omega), if_pos hi]

theorem statusWord_errCode (s : State) : s.statusWord.extractLsb' 8 4 = s.errCode.bits := by
  refine extractLsb'_eq_of_getLsbD fun i hi => ?_
  rw [getLsbD_statusWord s (by omega), if_neg (by omega), if_pos (by omega), Nat.add_sub_cancel_left]

theorem statusWord_reserved (s : State) : s.statusWord.extractLsb' 12 4 = 0#4 := by
  refine extractLsb'_eq_of_getLsbD fun i hi => ?_
  rw [getLsbD_statusWord s (by omega), if_neg (by omega), if_neg (by omega), if_pos (by omega),
    BitVec.getLsbD_zero]

theorem statusWord_kv (s : State) {j : Nat} (hj : j < 8) :
    s.statusWord.getLsbD (16 + j) = (s.reg (32 + j)).isSome := by
  rw [getLsbD_statusWord s (by omega), if_neg (by omega), if_neg (by omega), if_neg (by omega),
    if_pos (by omega), Nat.add_sub_cancel_left, getLsbD_kv s hj]

theorem statusWord_aluReason (s : State) : s.statusWord.extractLsb' 24 8 = s.aluReason := by
  refine extractLsb'_eq_of_getLsbD fun i hi => ?_
  rw [getLsbD_statusWord s (by omega), if_neg (by omega), if_neg (by omega), if_neg (by omega),
    if_neg (by omega), Nat.add_sub_cancel_left]

theorem ctrlWord_reserved (s : State) : s.ctrlWord.extractLsb' 2 30 = 0#30 := by
  refine extractLsb'_eq_of_getLsbD fun i _ => ?_
  rw [getLsbD_ctrlWord, if_neg (by omega), if_neg (by omega), BitVec.getLsbD_zero]

/-- ERRCODE reads as the code R270 gives the error. -/
theorem statusWord_of_errCode {s : State} {c : ErrCode} (h : s.errCode = c) :
    s.statusWord.extractLsb' 8 4 = c.bits := by
  rw [statusWord_errCode, h]

/-- Settles O47: the flags are the low bits of STATUS, and each field above them is read by its own lemma. -/
theorem statusAndCtrlFields : Obligations.StatusAndCtrlFields := by
  intro s
  have flag := statusWord_flag s
  exact ⟨flag 0 (by decide), flag 1 (by decide), flag 2 (by decide), flag 3 (by decide), flag 4 (by decide),
    flag 5 (by decide), flag 6 (by decide), flag 7 (by decide), statusWord_errCode s, statusWord_reserved s,
    fun _ => statusWord_kv s, statusWord_aluReason s, getLsbD_ctrlWord s 0, getLsbD_ctrlWord s 1,
    ctrlWord_reserved s, statusWord_of_errCode, statusWord_of_errCode, statusWord_of_errCode,
    statusWord_of_errCode, statusWord_of_errCode, statusWord_of_errCode, statusWord_of_errCode⟩

/-! ### The host's writes to CMD and STATUS (R38, R39) -/

/-- Settles O16: of the host's registers CMD alone submits, and a word that decodes to a command runs it. -/
theorem stepRunsDecodedCommand : Obligations.StepRunsDecodedCommand := by
  intro s rest v i henv hdec
  rw [step_of_cons henv]
  exact submitWord_of_command hdec

/-- Settles O49: each bit of the written word clears its own flag, bit 2 the three fields of the error. -/
theorem statusWriteClears : Obligations.StatusWriteClears := by
  intro s rest v henv
  have hstep : step s = .next ((State.respond .done { s with env := rest }).writeStatus v) :=
    step_of_cons henv
  have hclear : ∀ b x : Bool, (if b then false else x) = (x && !b) := by decide
  simp only [hstep, State.writeStatus, State.respond, hclear]

/-! ### The decoder reads back a well-formed command's word (30_encoding.md R108) -/

open Laws in
/-- Every command's word lies in its own row of the opcode map. -/
theorem inRow : ∀ i : Instr, InRow.Statement i
  | .nop => InRow.nop
  | .add rd ra rb => InRow.add rd ra rb
  | .xor rd ra rb => InRow.xor rd ra rb
  | .and rd ra rb => InRow.and rd ra rb
  | .or rd ra rb => InRow.or rd ra rb
  | .rotl rd ra sh => InRow.rotl rd ra sh
  | .rotr rd ra sh => InRow.rotr rd ra sh
  | .mov rd ra => InRow.mov rd ra
  | .ldx rd => InRow.ldx rd
  | .stx ra => InRow.stx ra
  | .enc rd sel => InRow.enc rd sel
  | .qr qa qb qc qd => InRow.qr qa qb qc qd
  | .dround => InRow.dround
  | .ff => InRow.ff
  | .init => InRow.init
  | .snap => InRow.snap
  | .block => InRow.block
  | .mix => InRow.mix
  | .ctrinc => InRow.ctrinc
  | .clrs => InRow.clrs
  | .clrk => InRow.clrk

theorem decode_encode_of_wf {i : Instr} (h : i.wf = true) : decode (encode i) = .command i := by
  obtain ⟨row, hfind, hmask, hread⟩ := inRow i
  simp only [Instr.wf, Bool.and_eq_true] at h
  obtain ⟨hsel, hregs⟩ := h
  simp [decode, hfind, hmask, hread, checkFields, hsel, hregs]

/-- The destination set of a command that has just started is its own (R131). -/
theorem curDests_started {i : Instr} {s : State} (hf : s.failure i = none) :
    (s.started i).curDests = destSet i := by
  have hdec := decode_encode_of_wf ((failure_eq_none_iff i s).mp hf).1
  simp only [State.curDests, State.started, hdec]

/-! ### The invariant of an idle instance -/

/-- With nothing in progress the invariant is R49's and R35's relations between ERR, ERRCODE and ALU_REASON. -/
theorem inv_of_idle {s : State} (hb : s.busy = false) (hcur : s.cur = none) (htodo : s.todo = [])
    (hpend : s.pending = []) (hok : s.err = false → s.errCode = .none ∧ s.aluReason = 0#8)
    (herr : s.err = true → s.errCode ≠ .none) (hreason : s.aluReason ≠ 0#8 → s.errCode = .aluError) :
    s.Inv := by
  refine ⟨⟨by simp [hb], hok, herr, hreason, fun _ => ⟨hpend, hcur⟩⟩, ?_, by simp [State.DataInv, hb], ?_⟩
  · simp [State.SeqInv, hpend, hb]
  · simp [State.RoundInv, hpend, htodo]

/-- An idle instance without error. -/
theorem inv_of_idle_noError {s : State} (hb : s.busy = false) (hcur : s.cur = none) (htodo : s.todo = [])
    (hpend : s.pending = []) (he : s.err = false) (hc : s.errCode = .none) (hr : s.aluReason = 0#8) :
    s.Inv :=
  inv_of_idle hb hcur htodo hpend (fun _ => ⟨hc, hr⟩) (by simp [he]) (by simp [hr])

/-- A failed completion leaves the invariant (R130): only ALU_ERROR comes with a reason. -/
theorem inv_completeFailed {s : State} {c : ErrCode} {r : BitVec 8} (hc : c ≠ .none)
    (hr : r ≠ 0#8 → c = .aluError) : (s.completeFailed c r).Inv :=
  inv_of_idle rfl rfl rfl rfl (by simp) (fun _ => hc) hr

theorem inv_resetInput (s : State) : s.resetInput.Inv :=
  inv_of_idle_noError rfl rfl rfl rfl rfl rfl rfl

/-! ### Host transactions keep the invariant -/

/-- A write to STATUS clears ERR only with ERRCODE and ALU_REASON (R38). -/
theorem statusInv_writeStatus {s : State} (h : s.StatusInv) (v : Word) : (s.writeStatus v).StatusInv := by
  obtain ⟨hbusy, hok, herr, hreason, hidle⟩ := h
  refine ⟨fun hb => ?_, ?_, ?_, ?_, hidle⟩
  · obtain ⟨he, hd, hc, hr⟩ := hbusy hb
    simp [he, hd, hc, hr]
  all_goals
    simp only [State.writeStatus_err, State.writeStatus_errCode, State.writeStatus_aluReason]
    cases v.getLsbD 2
  · exact hok
  · simp
  · exact herr
  · simp
  · exact hreason
  · simp

/-- What the host writes besides STATUS is nothing the invariant speaks of. -/
theorem HostEffect.inv {s t : State} (ht : HostEffect s t) (h : s.Inv) : t.Inv := by
  cases ht with
  | status v => exact ⟨statusInv_writeStatus h.1 v, h.2⟩
  | _ => exact h

/-! ### Submission keeps the invariant -/

/-- An immediate command's pseudocode touches EW registers, EWOUT, COUNTER and CTRWRAP only (R240 to R246). -/
theorem bodyOf_frame (i : Instr) (l : Latches) (s : State) : ∃ f o c w,
    bodyOf i l s = { s with regs := f, ewout := o, counter := c, ctrWrap := w } := by
  cases i <;> exact ⟨_, _, _, _, rfl⟩

/-- An immediate command that is accepted completes without error (R125, R129). -/
theorem inv_immediate {s : State} (h : s.StatusInv) (he : s.err = false) (i : Instr) :
    (bodyOf i s.sample (s.accept (encode i) s.sample)).completeOk.Inv := by
  obtain ⟨f, o, c, w, hbody⟩ := bodyOf_frame i s.sample (s.accept (encode i) s.sample)
  obtain ⟨_, hok, _⟩ := h
  obtain ⟨hcode, hreason⟩ := hok he
  rw [hbody]
  exact inv_of_idle_noError rfl rfl rfl rfl he hcode hreason

/-- An ALU command that is accepted starts with its lines in order and none of them issued (R126). -/
theorem inv_started {s : State} {i : Instr} (h : s.StatusInv) (he : s.err = false)
    (hf : s.failure i = none) (hi : isAluCommand i = true) : (s.started i).Inv := by
  obtain ⟨_, hok, herr, hreason, _⟩ := h
  obtain ⟨hcode, hr⟩ := hok he
  refine ⟨⟨fun _ => ⟨he, rfl, hcode, hr⟩, hok, herr, hreason, fun hb => by cases hb⟩, ?_, fun _ => ?_, ?_⟩
  · exact ⟨Nat.zero_le _, List.nodup_nil, by simp [State.started],
      fun _ => ⟨rfl, rfl, .inl (linesOf_ne_nil hi)⟩⟩
  · refine ⟨ready_mono (fun n hn => by simp [hn]) (ready_started hf hi), by simp [State.started], ?_⟩
    rw [curDests_started hf]
    exact fun ln hln => linesOf_dsts hln
  · exact ⟨by simp [State.started], by simp [State.started], pairwise_stageLe_linesOf i⟩

theorem submitWord_inv {v : Word} {s t : State} (h : s.Inv) (ht : s.submitWord v = .next t) : t.Inv := by
  rcases submitWord_cases v s with ⟨_, hx⟩ | ⟨_, _, c, hc, _, hx⟩ | ⟨_, he, i, _, hf, hi, hx⟩ |
    ⟨_, he, i, _, _, _, hx⟩ <;> rw [hx] at ht <;> cases ht
  · exact h
  · exact inv_completeFailed (s := s.accept v s.sample) hc (by simp)
  · exact inv_started h.1 he hf hi
  · exact inv_immediate h.1 he i

theorem hostStep_inv {tx : HostTx} {s t : State} (h : s.Inv) (ht : s.hostStep tx = .next t) : t.Inv := by
  rcases hostStep_cases tx s with ⟨v, _, hx⟩ | ⟨u, hu, hx⟩ <;> rw [hx] at ht
  · exact submitWord_inv (s := s.respond .done) h ht
  · cases ht
    exact hu.inv h

/-! ### An issue keeps the invariant -/

/-- A busy instance satisfies the STATUS relations whatever it has outstanding. -/
theorem statusInv_withPending {s : State} (h : s.StatusInv) (hb : s.busy = true) (ps : List Pending) :
    State.StatusInv { s with pending := ps } := by
  obtain ⟨hbusy, hok, herr, hreason, _⟩ := h
  exact ⟨hbusy, hok, herr, hreason, fun hidle => by cases hb.symm.trans hidle⟩

theorem mem_issued_pending {s : State} {k : Nat} {ln : Line} {req : AluRequest} {p : Pending} :
    p ∈ (s.issued k ln req).pending ↔ p ∈ s.pending ∨ p = ln.pend s.nextTag req := by
  simp [State.issued]

theorem seqInv_issued {s : State} (h : s.SeqInv) {k : Nat} {ln : Line} {req : AluRequest}
    (hlanes : s.pending.length < s.params.aluLanes) : (s.issued k ln req).SeqInv := by
  obtain ⟨_, hnodup, htags, hcur⟩ := h
  refine ⟨?_, ?_, ?_, fun hb => ?_⟩
  · simpa [State.issued] using hlanes
  · have hfresh : ∀ p ∈ s.pending, p.tag ≠ s.nextTag := fun p hp => (htags p hp).ne
    simpa [State.issued, List.nodup_append] using ⟨hnodup, hfresh⟩
  · intro p hp
    rcases mem_issued_pending.mp hp with hp | rfl
    · exact Nat.lt_succ_of_lt (htags p hp)
    · exact Nat.lt_succ_self _
  · obtain ⟨hc, hl, _⟩ := hcur hb
    exact ⟨hc, hl, .inr (by simp [State.issued])⟩

theorem dataInv_issued {s : State} (h : s.DataInv) {k : Nat} {ln : Line} {req : AluRequest}
    (hln : s.todo[k]? = some ln) : (s.issued k ln req).DataInv := by
  intro hb
  obtain ⟨hready, hpend, htodo⟩ := h hb
  obtain ⟨hsplit, herase⟩ := eraseIdx_of_getElem? hln
  have hmem : ln ∈ s.todo := List.mem_of_getElem? hln
  rw [hsplit] at hready
  refine ⟨?_, ?_, fun l hl => htodo l (List.mem_of_mem_eraseIdx hl)⟩
  · show ready _ (s.todo.eraseIdx k) = true
    rw [herase]
    refine ready_mono (fun n hn => ?_) (ready_remove hready)
    show (s.valid n || (s.pending ++ [ln.pend s.nextTag req]).any fun p => p.dsts.contains n) = true
    simpa only [List.any_append, List.any_cons, List.any_nil, Bool.or_false, Line.pend_dsts,
      Bool.or_assoc] using hn
  · intro p hp d hd
    rcases mem_issued_pending.mp hp with hp | rfl
    · exact hpend p hp d hd
    · obtain ⟨_, _, hlt⟩ := ready_get hready
      exact ⟨hlt d hd, htodo ln hmem d hd⟩

theorem mayOverlap_self (a : Option Nat) : mayOverlap a a = true := by
  cases a <;> simp [mayOverlap]

theorem mayOverlap_comm (a b : Option Nat) : mayOverlap a b = mayOverlap b a := by
  cases a <;> cases b <;> simp [mayOverlap, eq_comm]

/-- A line that is independent of the lines before it and of what is outstanding is of no later half than any
line left (R137, R221). -/
theorem roundInv_issued {s : State} (h : s.RoundInv) {k : Nat} {ln : Line} {req : AluRequest}
    (hln : s.todo[k]? = some ln) (hi : independent ln (s.todo.take k) s.pending = true) :
    (s.issued k ln req).RoundInv := by
  obtain ⟨hpp, hpt, htt⟩ := h
  obtain ⟨hsplit, herase⟩ := eraseIdx_of_getElem? hln
  obtain ⟨hbefore, hpend⟩ := (independent_iff ..).mp hi
  have hnew : ∀ p ∈ s.pending, mayOverlap p.stage ln.stage = true := by
    intro p hp
    obtain ⟨_, _, hov⟩ := hpend p hp
    exact hov
  have hrest : ∀ l ∈ s.todo.eraseIdx k, stageLe ln.stage l.stage = true := by
    intro l hl
    rw [herase] at hl
    rcases List.mem_append.mp hl with hl | hl
    · obtain ⟨_, _, _, hov⟩ := hbefore l hl
      exact (stageLe_of_mayOverlap hov).2
    · rw [hsplit, List.pairwise_append] at htt
      obtain ⟨_, hafter, _⟩ := htt
      exact List.rel_of_pairwise_cons hafter hl
  refine ⟨?_, ?_, htt.sublist (List.eraseIdx_sublist ..)⟩
  · intro p hp q hq
    rcases mem_issued_pending.mp hp with hp | rfl <;> rcases mem_issued_pending.mp hq with hq | rfl
    · exact hpp p hp q hq
    · exact hnew p hp
    · exact (mayOverlap_comm ..).trans (hnew q hq)
    · exact mayOverlap_self _
  · intro p hp l hl
    rcases mem_issued_pending.mp hp with hp | rfl
    · exact hpt p hp l (List.mem_of_mem_eraseIdx hl)
    · exact hrest l hl

theorem issue_inv {k : Nat} {s t : State} (h : s.Inv) (ht : s.issue k = .next t) : t.Inv := by
  rcases issue_cases k s with hx | ⟨ln, hln, hb, _, hlanes, hi, ⟨req, _, hx⟩ | ⟨_, _, hx⟩⟩ <;>
    rw [hx] at ht <;> cases ht
  · exact h
  · obtain ⟨hstatus, hseq, hdata, hround⟩ := h
    exact ⟨statusInv_withPending hstatus hb (s.issued k ln req).pending, seqInv_issued hseq hlanes,
      dataInv_issued hdata hln, roundInv_issued hround hln hi⟩

/-! ### An answer of the ALU keeps the invariant -/

/-- An answer changes no request but in its answer. -/
theorem map_aluAnswer {β : Type} (g : Pending → β) (hg : ∀ p a, g { p with answer := a } = g p) (tag : Nat)
    (a : AluAnswer) (s : State) : (s.aluAnswer tag a).pending.map g = s.pending.map g := by
  simp only [State.aluAnswer, List.map_map]
  refine List.map_congr_left fun p _ => ?_
  simp only [Function.comp_apply]
  split
  · exact hg p _
  · rfl

theorem mem_aluAnswer {tag : Nat} {a : AluAnswer} {s : State} {p : Pending}
    (h : p ∈ (s.aluAnswer tag a).pending) : ∃ q ∈ s.pending, ∃ b, p = { q with answer := b } := by
  simp only [State.aluAnswer, List.mem_map] at h
  obtain ⟨q, hq, rfl⟩ := h
  split
  · exact ⟨q, hq, some a, rfl⟩
  · exact ⟨q, hq, q.answer, rfl⟩

theorem aluAnswer_pending_eq_nil {tag : Nat} {a : AluAnswer} {s : State} :
    (s.aluAnswer tag a).pending = [] ↔ s.pending = [] :=
  List.map_eq_nil_iff

theorem statusInv_aluAnswer {s : State} (h : s.StatusInv) (tag : Nat) (a : AluAnswer) :
    (s.aluAnswer tag a).StatusInv := by
  obtain ⟨hbusy, hok, herr, hreason, hidle⟩ := h
  exact ⟨hbusy, hok, herr, hreason, fun hb => (hidle hb).imp_left aluAnswer_pending_eq_nil.mpr⟩

theorem seqInv_aluAnswer {s : State} (h : s.SeqInv) (tag : Nat) (a : AluAnswer) :
    (s.aluAnswer tag a).SeqInv := by
  obtain ⟨hlanes, hnodup, htags, hcur⟩ := h
  refine ⟨?_, ?_, fun p hp => ?_, fun hb => ?_⟩
  · simpa [State.aluAnswer] using hlanes
  · rwa [map_aluAnswer Pending.tag fun _ _ => rfl]
  · obtain ⟨q, hq, _, rfl⟩ := mem_aluAnswer hp
    exact htags q hq
  · obtain ⟨hc, hl, hne⟩ := hcur hb
    exact ⟨hc, hl, hne.imp_right (mt aluAnswer_pending_eq_nil.mp)⟩

theorem dataInv_aluAnswer {s : State} (h : s.DataInv) (tag : Nat) (a : AluAnswer) :
    (s.aluAnswer tag a).DataInv := by
  intro hb
  obtain ⟨hready, hpend, htodo⟩ := h hb
  have hany : ∀ (n : Nat) (ps : List Pending),
      (ps.any fun p => p.dsts.contains n) = (ps.map Pending.dsts).any (·.contains n) := by
    simp [List.any_map, Function.comp_def]
  refine ⟨ready_mono (fun n hn => ?_) hready, fun p hp => ?_, htodo⟩
  · rwa [hany, map_aluAnswer Pending.dsts fun _ _ => rfl, ← hany]
  · obtain ⟨q, hq, _, rfl⟩ := mem_aluAnswer hp
    exact hpend q hq

theorem roundInv_aluAnswer {s : State} (h : s.RoundInv) (tag : Nat) (a : AluAnswer) :
    (s.aluAnswer tag a).RoundInv := by
  obtain ⟨hpp, hpt, htt⟩ := h
  refine ⟨fun p hp q hq => ?_, fun p hp => ?_, htt⟩
  · obtain ⟨p', hp', _, rfl⟩ := mem_aluAnswer hp
    obtain ⟨q', hq', _, rfl⟩ := mem_aluAnswer hq
    exact hpp p' hp' q' hq'
  · obtain ⟨q, hq, _, rfl⟩ := mem_aluAnswer hp
    exact hpt q hq

theorem aluAnswer_inv {s : State} (h : s.Inv) (tag : Nat) (a : AluAnswer) : (s.aluAnswer tag a).Inv := by
  obtain ⟨hstatus, hseq, hdata, hround⟩ := h
  exact ⟨statusInv_aluAnswer hstatus tag a, seqInv_aluAnswer hseq tag a, dataInv_aluAnswer hdata tag a,
    roundInv_aluAnswer hround tag a⟩

/-! ### A receipt keeps the invariant -/

theorem mem_received_pending {s : State} {p q : Pending} {e : EW} :
    q ∈ (s.received p e).pending ↔ q ∈ s.pending ∧ q.tag ≠ p.tag := by
  simp [State.received]

/-- What held a value still does, and the destinations of the received answer hold one now. -/
theorem valid_received {s : State} {p : Pending} {e : EW} {n : Nat}
    (h : s.valid n = true ∨ (n ∈ p.dsts ∧ n < 48)) : (s.received p e).valid n = true := by
  show (readEw (writeEws s.regs p.dsts (some e)) n).isSome = true
  rw [readEw_writeEws]
  split_ifs with hn
  · rfl
  · exact h.resolve_right hn

/-- What `p` was to write, or another request is, is held or awaited after `p`'s answer is received. -/
theorem valid_or_awaited_received {s : State} {p : Pending} {e : EW} {n : Nat}
    (hnodup : (s.pending.map Pending.tag).Nodup) (hp : p ∈ s.pending) (hlt : ∀ d ∈ p.dsts, d < 48)
    (h : s.valid n = true ∨ ∃ q ∈ s.pending, n ∈ q.dsts) :
    (s.received p e).valid n = true ∨ ∃ q ∈ (s.received p e).pending, n ∈ q.dsts := by
  rcases h with hv | ⟨q, hq, hn⟩
  · exact .inl (valid_received (.inl hv))
  · by_cases htag : q.tag = p.tag
    · have hqp : q = p := List.inj_on_of_nodup_map hnodup hq hp htag
      subst hqp
      exact .inl (valid_received (.inr ⟨hn, hlt n hn⟩))
    · exact .inr ⟨q, mem_received_pending.mpr ⟨hq, htag⟩, hn⟩

theorem seqInv_received {s : State} (h : s.SeqInv) (p : Pending) (e : EW)
    (hleft : (s.received p e).todo ≠ [] ∨ (s.received p e).pending ≠ []) : (s.received p e).SeqInv := by
  obtain ⟨hlanes, hnodup, htags, hcur⟩ := h
  refine ⟨(List.length_filter_le ..).trans hlanes, hnodup.sublist (List.filter_sublist.map _),
    fun q hq => htags q (mem_received_pending.mp hq).1, fun hb => ?_⟩
  obtain ⟨hc, hl, _⟩ := hcur hb
  exact ⟨hc, hl, hleft⟩

theorem dataInv_received {s : State} (h : s.DataInv) (hseq : s.SeqInv) {p : Pending} (hp : p ∈ s.pending)
    (e : EW) : (s.received p e).DataInv := by
  intro hb
  obtain ⟨_, hnodup, _⟩ := hseq
  obtain ⟨hready, hpend, htodo⟩ := h hb
  refine ⟨ready_mono (fun n hn => ?_) hready, fun q hq => hpend q (mem_received_pending.mp hq).1, htodo⟩
  simp only [Bool.or_eq_true, List.any_eq_true, List.contains_iff_mem] at hn ⊢
  exact valid_or_awaited_received hnodup hp (fun d hd => (hpend p hp d hd).1) hn

theorem roundInv_received {s : State} (h : s.RoundInv) (p : Pending) (e : EW) : (s.received p e).RoundInv := by
  obtain ⟨hpp, hpt, htt⟩ := h
  have hsub : ∀ {q}, q ∈ (s.received p e).pending → q ∈ s.pending := fun hq =>
    (mem_received_pending.mp hq).1
  exact ⟨fun q hq r hr => hpp q (hsub hq) r (hsub hr), fun q hq => hpt q (hsub hq), htt⟩

/-- Nothing is outstanding while idle (R49). -/
theorem busy_of_mem_pending {s : State} (h : s.StatusInv) {p : Pending} (hp : p ∈ s.pending) :
    s.busy = true := by
  obtain ⟨_, _, _, _, hidle⟩ := h
  by_contra hb
  rw [(hidle (by simpa using hb)).1] at hp
  cases hp

/-- A receipt changes nothing, fails the command, leaves something of it, or completes it (R126, R132). -/
theorem receive_inv {s : State} (h : s.Inv) (tag : Nat) : (s.receive tag).Inv := by
  rcases receive_cases tag s with hx | ⟨p, _, hp, _, ⟨r, _, hx⟩ | ⟨e, _, hx⟩⟩ <;> rw [hx]
  · exact h
  · exact inv_completeFailed (by simp) (fun _ => rfl)
  · obtain ⟨hstatus, hseq, hdata, hround⟩ := h
    have hb := busy_of_mem_pending hstatus hp
    rcases completeIfEnded_cases (s.received p e) with ⟨hleft, hy⟩ | ⟨htodo, hpend, hy⟩ <;> rw [hy]
    · exact ⟨statusInv_withPending hstatus hb (s.received p e).pending, seqInv_received hseq p e hleft,
        dataInv_received hdata hseq hp e, roundInv_received hround p e⟩
    · obtain ⟨hbusy, _⟩ := hstatus
      obtain ⟨he, _, hc, hr⟩ := hbusy hb
      exact inv_of_idle_noError rfl rfl htodo hpend he hc hr

/-! ### Every step keeps the invariant -/

theorem event_inv {ev : Event} {s t : State} (h : s.Inv) (ht : State.event ev s = .next t) : t.Inv := by
  cases ev with
  | host tx => exact hostStep_inv h ht
  | issue k => exact issue_inv h ht
  | alu tag a => cases ht; exact aluAnswer_inv h tag a
  | receive tag => cases ht; exact receive_inv h tag
  | reset => cases ht; exact inv_resetInput s

/-- Settles O12: a step is one event, and each agent's event keeps the invariant. -/
theorem stepKeepsInvariant : Obligations.StepKeepsInvariant := by
  intro s t h ht
  obtain ⟨ev, hev⟩ := step_eq_event s
  exact event_inv ((inv_withEnv s.env.tail).mpr h) (hev ▸ ht)

/-- Settles O11: after reset the instance is idle without error. -/
theorem resetMeetsInvariant : Obligations.ResetMeetsInvariant := fun _ =>
  inv_of_idle_noError rfl rfl rfl rfl rfl rfl rfl

end Sys2Proof.Machine

/-! The memory map's statements (spec 20_memory.md): instances that share no state (R81, R137, R294), register
accesses (R63 to R66), the encrypted-word port (R69, R70), EW registers out of the host's reach (R74, R76), and
byte order (R61, R71, R188 to R190). -/

namespace Sys2Proof.Machine

/-! ### A run of one instance and a step of the whole (R81, R294) -/

/-- Runs compose. -/
theorem run_add {s t : State} {m : Nat} (n : Nat) (h : Host.Core.run core m s = .next t) :
    Host.Core.run core (m + n) s = Host.Core.run core n t := by
  induction m generalizing s with
  | zero =>
    cases h
    rw [Nat.zero_add]
  | succ m ih =>
    cases hstep : step s with
    | next u =>
      rw [run_of_next m hstep] at h
      rw [Nat.succ_add, run_of_next (m + n) hstep, ih h]
    | fault f =>
      rw [run_of_fault m hstep] at h
      cases h
    | refused r =>
      have hs : core.step s = .refused r := hstep
      simp only [Host.Core.run, hs] at h
      cases h

/-- What a step of the whole can do: nothing, or skip a number that is no instance's, or step the one instance
the schedule names. -/
theorem System.step_cases {y z : System} (h : y.step = .next z) :
    (y.sched = [] ∧ z = y) ∨ ∃ j rest, y.sched = j :: rest ∧
      ((y.insts[j]? = none ∧ z = { y with sched := rest }) ∨
       ∃ s t, y.insts[j]? = some s ∧ Machine.step s = .next t ∧
         z = { insts := y.insts.set j t, sched := rest }) := by
  unfold System.step at h
  split at h
  · rename_i hsched
    cases h
    exact .inl ⟨hsched, rfl⟩
  · rename_i j rest hsched
    refine .inr ⟨j, rest, hsched, ?_⟩
    split at h
    · rename_i hj
      cases h
      exact .inl ⟨hj, rfl⟩
    · rename_i s hj
      split at h <;> cases h
      rename_i t ht
      exact .inr ⟨s, t, hj, ht, rfl⟩

theorem System.step_sched {y z : System} (h : y.step = .next z) : z.sched = y.sched.tail := by
  rcases System.step_cases h with ⟨hs, rfl⟩ | ⟨j, rest, hs, ⟨_, rfl⟩ | ⟨s, t, _, _, rfl⟩⟩ <;> simp [hs]

theorem System.step_length {y z : System} (h : y.step = .next z) : z.insts.length = y.insts.length := by
  rcases System.step_cases h with ⟨_, rfl⟩ | ⟨j, rest, _, ⟨_, rfl⟩ | ⟨s, t, _, _, rfl⟩⟩ <;> simp

/-- One step of the whole is, for the instance it names, one step of that instance, and none for any other. -/
theorem System.step_inst {y z : System} (h : y.step = .next z) {k : Nat} {s : State}
    (hk : y.insts[k]? = some s) : ∃ t, z.insts[k]? = some t ∧
      Host.Core.run core ((y.sched.take 1).count k) s = .next t := by
  rcases System.step_cases h with ⟨hs, rfl⟩ | ⟨j, rest, hs, ⟨hj, rfl⟩ | ⟨u, t, hj, ht, rfl⟩⟩
  · exact ⟨s, hk, by simp [hs, run_zero]⟩
  · have hne : j ≠ k := by
      rintro rfl
      cases hj.symm.trans hk
    exact ⟨s, hk, by simp [hs, hne, run_zero]⟩
  · by_cases hjk : j = k
    · subst hjk
      cases hj.symm.trans hk
      obtain ⟨hlt, _⟩ := List.getElem?_eq_some_iff.mp hk
      refine ⟨t, by simp [hlt], ?_⟩
      simpa [hs, run_zero] using run_of_next 0 ht
    · exact ⟨s, by simpa [hjk] using hk, by simp [hs, hjk, run_zero]⟩

/-- A run of the whole is its first step and the run from there. -/
theorem System.run_succ {n : Nat} {y z : System} (h : System.run (n + 1) y = .next z) :
    ∃ x, y.step = .next x ∧ System.run n x = .next z := by
  cases hstep : y.step with
  | next x => exact ⟨x, rfl, by simpa only [System.run, hstep] using h⟩
  | fault f => simp only [System.run, hstep, reduceCtorEq] at h
  | refused r => simp only [System.run, hstep, reduceCtorEq] at h

/-- Settles O58, by induction on the run: the first step of the whole is one step or none of the instance's own
run, and the rest of the run continues from there. -/
theorem instancesAreIsolated : Obligations.InstancesAreIsolated := by
  intro n
  induction n with
  | zero =>
    intro y z h
    cases h
    exact ⟨rfl, fun k s hk => ⟨s, hk, by simp [run_zero]⟩⟩
  | succ n ih =>
    intro y z h
    obtain ⟨x, hx, hxz⟩ := System.run_succ h
    obtain ⟨hlen, hinst⟩ := ih x z hxz
    refine ⟨hlen.trans (System.step_length hx), fun k s hk => ?_⟩
    obtain ⟨u, hu, hrun⟩ := System.step_inst hx hk
    obtain ⟨t, ht, hrest⟩ := hinst k u hu
    have htake : y.sched.take (n + 1) = y.sched.take 1 ++ x.sched.take n := by
      rw [System.step_sched hx, Nat.add_comm, List.take_add, List.drop_one]
    exact ⟨t, ht, by rw [htake, List.count_append, run_add _ hrun, hrest]⟩

/-! ### Register accesses (R62 to R66) -/

/-- Nothing is mapped above 0x20 (R62). -/
theorem readRegister_of_gt {off : Nat} (h : 0x20 < off) (s : State) : s.readRegister off = none := by
  unfold State.readRegister
  split
  case h_10 => rfl
  all_goals omega

theorem writeRegister_of_gt {off : Nat} (h : 0x20 < off) (s : State) (v : Word) :
    s.writeRegister off v = none := by
  unfold State.writeRegister
  split
  case h_10 => rfl
  all_goals omega

/-- An access of a bad form is not performed, or nothing is mapped at its offset (R63, R64). -/
theorem accessOk_eq_false_or_gt {width off : Nat} (h : width ≠ 32 ∨ off % 4 ≠ 0 ∨ 0x20 < off) :
    accessOk width off = false ∨ 0x20 < off := by
  simp only [accessOk, Bool.and_eq_false_iff, beq_eq_false_iff_ne]
  omega

theorem hostStep_regRead_of_bad {width off : Nat} (h : width ≠ 32 ∨ off % 4 ≠ 0 ∨ 0x20 < off) (s : State) :
    s.hostStep (.regRead width off) = .next (s.respond .busError) := by
  rcases accessOk_eq_false_or_gt h with hok | hoff
  · simp only [State.hostStep, hok, Bool.false_eq_true, if_false]
  · simp only [State.hostStep, readRegister_of_gt hoff, ite_self]

theorem hostStep_regWrite_of_bad {width off : Nat} (h : width ≠ 32 ∨ off % 4 ≠ 0 ∨ 0x20 < off) (v : Word)
    (s : State) : s.hostStep (.regWrite width off v) = .next (s.respond .busError) := by
  rcases accessOk_eq_false_or_gt h with hok | hoff
  · simp only [State.hostStep, hok, Bool.false_eq_true, if_false]
  · simp only [State.hostStep, writeRegister_of_gt hoff, ite_self]

theorem hostStep_regRead_of_mapped {s : State} {off : Nat} {v : Word} (hoff : off % 4 = 0)
    (h : s.readRegister off = some v) : s.hostStep (.regRead 32 off) = .next (s.respond (.data v)) := by
  have hok : accessOk 32 off = true := by simp [accessOk, hoff]
  simp only [State.hostStep, hok, if_true, h]

/-- Settles O50: such an access is refused by its form, or no register is mapped at its offset. -/
theorem badAccessChangesNothing : Obligations.BadAccessChangesNothing := fun _ _ _ _ v hbad =>
  ⟨fun henv => (step_of_cons henv).trans (hostStep_regRead_of_bad hbad _),
   fun henv => (step_of_cons henv).trans (hostStep_regWrite_of_bad hbad v _)⟩

/-- Settles O46: each of the nine offsets is aligned and mapped to the register R65 names. -/
theorem registerReads : Obligations.RegisterReads := by
  intro s rest ⟨off, v⟩ hc henv
  have hmapped : off % 4 = 0 ∧ State.readRegister { s with env := rest } off = some v := by
    simp only [List.mem_cons, List.not_mem_nil, or_false, Prod.mk.injEq] at hc
    rcases hc with ⟨rfl, rfl⟩ | ⟨rfl, rfl⟩ | ⟨rfl, rfl⟩ | ⟨rfl, rfl⟩ | ⟨rfl, rfl⟩ | ⟨rfl, rfl⟩ |
      ⟨rfl, rfl⟩ | ⟨rfl, rfl⟩ | ⟨rfl, rfl⟩ <;> exact ⟨rfl, rfl⟩
  obtain ⟨hoff, hread⟩ := hmapped
  exact (step_of_cons henv).trans (hostStep_regRead_of_mapped hoff hread)

/-- Settles O48: each of these writes is the field update R66 names, BUSY or not. -/
theorem registerWrites : Obligations.RegisterWrites := fun _ _ _ =>
  ⟨step_of_cons, step_of_cons, step_of_cons, step_of_cons, step_of_cons, step_of_cons, step_of_cons⟩

/-! ### The encrypted-word port (R69, R70) -/

theorem hostStep_ewGet_of_some {s : State} {e : EW} (h : s.ewout = some e) :
    s.hostStep .ewGet = .next (s.respond (.ew e)) := by
  simp only [State.hostStep, h]

theorem hostStep_ewGet_of_none {s : State} (h : s.ewout = none) :
    s.hostStep .ewGet = .next (s.respond .portError) := by
  simp only [State.hostStep, h]

/-- Settles O51: `EwPut` writes EWIN, `EwGet` answers by what EWOUT holds. -/
theorem portTransfers : Obligations.PortTransfers := fun _ _ _ =>
  ⟨step_of_cons,
   fun henv hout => (step_of_cons henv).trans (hostStep_ewGet_of_some hout),
   fun henv hout => (step_of_cons henv).trans (hostStep_ewGet_of_none hout)⟩

/-! ### The host cannot touch a running command (R76, R122) -/

/-- What the host may write is no part of the command in progress. -/
theorem HostEffect.frame {s t : State} (h : HostEffect s t) :
    t.busy = s.busy ∧ t.regs = s.regs ∧ t.cur = s.cur ∧ t.latch = s.latch ∧ t.todo = s.todo ∧
      t.pending = s.pending ∧ t.nextTag = s.nextTag ∧ t.ewout = s.ewout := by
  cases h <;> exact ⟨rfl, rfl, rfl, rfl, rfl, rfl, rfl, rfl⟩

/-- Settles O53: while BUSY a submission is dropped, and no other transaction reaches the command. -/
theorem hostCannotDisturbRunningCommand : Obligations.HostCannotDisturbRunningCommand := by
  intro s tx rest hb henv
  rw [step_of_cons henv]
  rcases hostStep_cases tx { s with env := rest } with ⟨v, _, h⟩ | ⟨t, ht, h⟩
  · have hdrop := submitWord_of_drop (v := v) (s := State.respond .done { s with env := rest }) (.inl hb)
    exact ⟨_, h.trans hdrop, hb, rfl, rfl, rfl, rfl, rfl, rfl, rfl⟩
  · obtain ⟨hbusy, hframe⟩ := ht.frame
    exact ⟨t, h, hbusy.trans hb, hframe⟩

/-! ### The host sees no EW register (R74) -/

/-- The state with the register file `f`. -/
def State.withRegs (f : EwFile) (s : State) : State := { s with regs := f }

/-- STATUS shows the registers by KV alone (R36). -/
theorem statusWord_withRegs {f : EwFile} {s : State} (hkv : (s.withRegs f).kv = s.kv) :
    (s.withRegs f).statusWord = s.statusWord := by
  simp only [State.statusWord, hkv]
  rfl

theorem readRegister_withRegs {f : EwFile} {s : State} (hkv : (s.withRegs f).kv = s.kv) (off : Nat) :
    (s.withRegs f).readRegister off = s.readRegister off := by
  unfold State.readRegister
  split
  case h_3 => rw [statusWord_withRegs hkv]
  all_goals rfl

/-- While BUSY no write looks at the registers: one to CMD is dropped (R121). -/
theorem writeRegister_withRegs (f : EwFile) {s : State} (hb : s.busy = true) (off : Nat) (v : Word) :
    (s.withRegs f).writeRegister off v = (s.writeRegister off v).map (mapNext (State.withRegs f)) := by
  unfold State.writeRegister
  split
  case h_4 => rw [submitWord_of_drop (s := s.withRegs f) (.inl hb), submitWord_of_drop (.inl hb)]; rfl
  all_goals rfl

/-- While BUSY a host transaction commutes with a change of the registers that keeps KV. -/
theorem hostStep_withRegs {f : EwFile} {s : State} (hb : s.busy = true)
    (hkv : (s.withRegs f).kv = s.kv) (tx : HostTx) :
    (s.withRegs f).hostStep tx = mapNext (State.withRegs f) (s.hostStep tx) := by
  cases tx with
  | regRead width off =>
    simp only [State.hostStep, readRegister_withRegs hkv]
    cases accessOk width off <;> cases s.readRegister off <;> rfl
  | regWrite width off v =>
    have hw := writeRegister_withRegs f (s := s.respond .done) hb off v
    have hcomm : (s.withRegs f).respond .done = (s.respond .done).withRegs f := rfl
    simp only [State.hostStep, hcomm, hw]
    cases accessOk width off <;> cases (s.respond .done).writeRegister off v <;> rfl
  | ewPut e => rfl
  | ewGet =>
    have hout : (s.withRegs f).ewout = s.ewout := rfl
    simp only [State.hostStep, hout]
    cases s.ewout <;> rfl

/-- Settles O54: the two steps differ by the registers alone, so they answer alike. -/
theorem busyHostSeesNoRegister : Obligations.BusyHostSeesNoRegister := by
  intro s f tx rest t t' hb henv hkv ht ht'
  have hcomm := hostStep_withRegs (s := { s with env := rest }) hb hkv tx
  have htx : State.hostStep tx { s with env := rest } = .next t := (step_of_cons henv).symm.trans ht
  have htx' : State.hostStep tx (State.withRegs f { s with env := rest }) = .next t' :=
    (step_of_cons (s := { s with regs := f }) henv).symm.trans ht'
  rw [htx, htx'] at hcomm
  cases hcomm
  exact ⟨rfl, rfl⟩

/-! ### EW registers change only in commands (R74) -/

theorem issue_regs {k : Nat} {s t : State} (h : s.issue k = .next t) : t.regs = s.regs := by
  rcases issue_cases k s with hk | ⟨_, _, _, _, _, _, ⟨_, _, hk⟩ | ⟨_, _, hk⟩⟩ <;> rw [hk] at h <;>
    cases h <;> rfl

/-- With nothing outstanding there is no answer to receive. -/
theorem receive_of_pending_nil {tag : Nat} {s : State} (h : s.pending = []) : s.receive tag = s := by
  simp only [State.receive, h, List.find?_nil]

/-- A block step that changes a register receives an answer. -/
theorem pending_ne_nil_of_blockStep_regs {s t : State} (h : s.blockStep = .next t)
    (hr : t.regs ≠ s.regs) : s.pending ≠ [] := by
  rcases blockStep_cases s with ⟨p, hp, _, _⟩ | ⟨_, hb⟩
  · exact List.ne_nil_of_mem hp
  · exact absurd (issue_regs (hb ▸ h)) hr

/-- A host transaction that changes a register submits a word to an idle instance. -/
theorem submission_of_hostStep_regs {tx : HostTx} {s t : State} (h : s.hostStep tx = .next t)
    (hr : t.regs ≠ s.regs) : ∃ v, tx = submission v ∧ s.busy = false ∧ s.err = false := by
  rcases hostStep_cases tx s with ⟨v, hv, hx⟩ | ⟨u, hu, hx⟩ <;> rw [hx] at h
  · rcases submitWord_cases v (s.respond .done) with ⟨_, hy⟩ | ⟨hb, he, _⟩ | ⟨hb, he, _⟩ | ⟨hb, he, _⟩
    · rw [hy] at h
      cases h
      exact absurd rfl hr
    all_goals exact ⟨v, hv, hb, he⟩
  · cases h
    obtain ⟨_, hregs, _⟩ := hu.frame
    exact absurd hregs hr

/-- Settles O56: of the agents' events an issue and an answer of the ALU write no register, a receipt needs a
request outstanding, and the host writes one only by a submission that is not dropped. -/
theorem registersChangeOnlyInCommands : Obligations.RegistersChangeOnlyInCommands := by
  intro s t h hr
  cases henv : s.env with
  | nil =>
    rw [step_of_nil henv] at h
    exact .inl ⟨rfl, pending_ne_nil_of_blockStep_regs h hr⟩
  | cons ev rest =>
    rw [step_of_cons henv] at h
    refine .inr ?_
    cases ev with
    | host tx =>
      obtain ⟨v, rfl, hb, he⟩ := submission_of_hostStep_regs h hr
      exact .inr (.inl ⟨v, rest, rfl, hb, he⟩)
    | issue k => exact absurd (issue_regs h) hr
    | alu tag a =>
      cases h
      exact absurd rfl hr
    | receive tag =>
      cases h
      refine .inl ⟨tag, rest, rfl, fun hp => ?_⟩
      rw [receive_of_pending_nil (s := { s with env := rest }) hp] at hr
      exact hr rfl
    | reset => exact .inr (.inr ⟨rest, rfl⟩)

/-! ### Byte order (R61, R71, R188 to R190) -/

/-- Concatenation of bit vectors as arithmetic: the upper part counts in units of the lower part's range. -/
theorem toNat_append_eq_add {m n : Nat} (x : BitVec m) (y : BitVec n) :
    (x ++ y).toNat = x.toNat * 2 ^ n + y.toNat := by
  rw [BitVec.toNat_append, ← Nat.shiftLeft_add_eq_or_of_lt y.isLt, Nat.shiftLeft_eq]

theorem toNat_wordOfBytes (b0 b1 b2 b3 : Byte) : (wordOfBytes b0 b1 b2 b3).toNat =
    b0.toNat + b1.toNat * 2 ^ 8 + b2.toNat * 2 ^ 16 + b3.toNat * 2 ^ 24 := by
  simp only [wordOfBytes, toNat_append_eq_add]
  omega

theorem toNat_byteOfWord (w : Word) (k : Nat) : (byteOfWord w k).toNat = w.toNat / 2 ^ (8 * k) % 2 ^ 8 := by
  simp only [byteOfWord, BitVec.extractLsb'_toNat, Nat.shiftRight_eq_div_pow]

theorem wordOfBytes_byteOfWord (w : Word) :
    wordOfBytes (byteOfWord w 0) (byteOfWord w 1) (byteOfWord w 2) (byteOfWord w 3) = w := by
  apply BitVec.eq_of_toNat_eq
  have hw := w.isLt
  simp only [toNat_wordOfBytes, toNat_byteOfWord]
  omega

/-- The bytes of words read back as those words. -/
theorem wordsOfBytes_flatMap_bytesOfWord (ws : List Word) : wordsOfBytes (ws.flatMap bytesOfWord) = ws := by
  induction ws with
  | nil => rfl
  | cons w ws ih =>
    simp only [List.flatMap_cons, bytesOfWord, List.cons_append, List.nil_append, wordsOfBytes,
      wordOfBytes_byteOfWord]
    exact congrArg (w :: ·) ih

/-- Word `j` of a byte array is read from its bytes 4j to 4j + 3 (R188, R189). -/
theorem wordAt_eq_wordOfBytes {bytes : List Byte} {j : Nat} (h : 4 * j + 3 < bytes.length) :
    wordAt bytes j = wordOfBytes bytes[4 * j] bytes[4 * j + 1] bytes[4 * j + 2] bytes[4 * j + 3] := by
  induction j generalizing bytes with
  | zero =>
    match bytes, h with
    | b0 :: b1 :: b2 :: b3 :: rest, _ => rfl
  | succ j ih =>
    match bytes, h with
    | b0 :: b1 :: b2 :: b3 :: rest, h =>
      have hrest : 4 * j + 3 < rest.length := by
        simp only [List.length_cons] at h
        omega
      exact ih hrest

theorem toNat_wordAt_toList {n : Nat} (bytes : Vector Byte n) {j : Nat} (h : 4 * j + 3 < n) :
    (wordAt bytes.toList j).toNat = bytes[4 * j].toNat + bytes[4 * j + 1].toNat * 2 ^ 8 +
      bytes[4 * j + 2].toNat * 2 ^ 16 + bytes[4 * j + 3].toNat * 2 ^ 24 := by
  rw [wordAt_eq_wordOfBytes (by simpa using h), toNat_wordOfBytes]
  simp only [Vector.getElem_toList]

/-- Byte `4i + k` of the bytes of words is byte `k` of word `i` (R190). -/
theorem getElem?_flatMap_bytesOfWord (ws : List Word) (i : Nat) {k : Nat} (hk : k < 4) :
    (ws.flatMap bytesOfWord)[4 * i + k]? = ws[i]?.map (byteOfWord · k) := by
  induction ws generalizing i with
  | nil => simp
  | cons w ws ih =>
    cases i with
    | zero => interval_cases k <;> rfl
    | succ i =>
      have hidx : 4 * (i + 1) + k = 4 * i + k + 4 := by omega
      rw [hidx]
      exact ih i

theorem length_keystreamBytes (x : Block) : (keystreamBytes x).length = 64 := by
  simp [keystreamBytes, List.length_flatMap, bytesOfWord]

theorem getElem?_keystreamBytes (x : Block) (i : Fin 16) (k : Fin 4) :
    (keystreamBytes x)[4 * i.val + k.val]? = some (byteOfWord x[i] k) := by
  rw [keystreamBytes, getElem?_flatMap_bytesOfWord _ _ k.isLt]
  simp

theorem getElem?_registerBytes (v : Word) (k : Fin 4) :
    (registerBytes v)[k.val]? = some (byteOfWord v k) := by
  fin_cases k <;> rfl

/-- Settles O60: key and nonce words are the little-endian readings of their bytes, and each byte of a word or
a keystream is that word's bits. -/
theorem littleEndianWords : Obligations.LittleEndianWords := by
  refine ⟨toNat_wordOfBytes, fun w => wordsOfBytes_flatMap_bytesOfWord [w],
    wordsOfBytes_flatMap_bytesOfWord, fun key j => ?_, fun nonce j => ?_, length_keystreamBytes,
    getElem?_keystreamBytes, getElem?_registerBytes⟩
  · simpa [keyWords] using toNat_wordAt_toList key (j := j) (by omega)
  · simpa [nonceWords] using toNat_wordAt_toList nonce (j := j) (by omega)

end Sys2Proof.Machine

/-! The encoding's statements (spec 30_encoding.md): the bits a row's `match` and `mask` fix in a word (R102 to
R104), decoder and encoder as inverses (R108), the words that are no command (R103 to R106), and that every
command has a meaning. -/

namespace Sys2Proof.Machine

/-! ### A word that matches a row (R102) -/

/-- Where the mask is all ones, a word that matches has the pattern's bits. For the rows of the opcode map,
whose mask and pattern are literals, the condition is decided. -/
theorem fixedBits_of_match {w mask pattern : Word} {start len : Nat} {v : BitVec len}
    (h : w &&& mask = pattern)
    (hbits : mask.extractLsb' start len = BitVec.allOnes len ∧ pattern.extractLsb' start len = v := by decide) :
    w.extractLsb' start len = v := by
  obtain ⟨hmask, hpattern⟩ := hbits
  rw [← hpattern, ← h, BitVec.extractLsb'_and, hmask, BitVec.and_allOnes]

/-- Every row's mask covers the opcode bits, and its pattern has the row's own opcode there. -/
theorem opcodeMap_opc : ∀ row ∈ opcodeMap,
    row.mask.extractLsb' 26 6 = BitVec.allOnes 6 ∧ row.pattern.extractLsb' 26 6 = row.opc := by
  decide

theorem opc_of_match {row : OpcodeRow} (hrow : row ∈ opcodeMap) {w : Word}
    (h : w &&& row.mask = row.pattern) : field.opc w = row.opc :=
  fixedBits_of_match h (opcodeMap_opc row hrow)

/-- Settles O7: a word that matches a row has that row's opcode. -/
theorem opcodeRowsDisjoint : Obligations.OpcodeRowsDisjoint := fun _ hr₁ _ hr₂ _ h₁ h₂ =>
  (opc_of_match hr₁ h₁).symm.trans (opc_of_match hr₂ h₂)

/-! ### The decoder by its row (R108) -/

/-- A word is illegal, or it matches the row of its opcode and the operand checks decide. -/
theorem decode_cases (w : Word) : decode w = .illegal ∨
    ∃ row ∈ opcodeMap, row.opc = field.opc w ∧ w &&& row.mask = row.pattern ∧
      decode w = checkFields (row.read w) := by
  unfold decode
  cases hrow : opcodeMap.find? (fun row => row.opc == field.opc w) with
  | none => exact .inl rfl
  | some row =>
    by_cases hmatch : w &&& row.mask = row.pattern
    · exact .inr ⟨row, List.mem_of_find?_eq_some hrow, by simpa using List.find?_some hrow, hmatch,
        by simp [hmatch]⟩
    · exact .inl (by simp [hmatch])

theorem checkFields_eq_command_iff (i j : Instr) : checkFields i = .command j ↔ i = j ∧ i.wf = true := by
  cases hsel : i.selOk <;> cases hregs : i.regsOk <;> simp [checkFields, Instr.wf, hsel, hregs]

/-- Settles O2: every command's word lies in its own row, which reads the command back (`inRow`). -/
theorem decodeOfEncode : Obligations.DecodeOfEncode := fun _ hwf => decode_encode_of_wf hwf

/-! ### A word put together from its fields (R92 to R99) -/

section
open BitVec (extractLsb'_append_extractLsb'_eq_extractLsb' extractLsb'_eq_self)

variable {o : BitVec 6} {w : Word} (hopc : field.opc w = o)
include hopc

theorem formatR_of_fields (hzero : w.extractLsb' 0 8 = 0#8) :
    (o ++ field.rd w ++ field.ra w ++ field.rb w ++ 0#8 : Word) = w := by
  rw [← hopc, ← hzero]
  simp +arith only [field.opc, field.rd, field.ra, field.rb,
    extractLsb'_append_extractLsb'_eq_extractLsb', extractLsb'_eq_self]

theorem formatS_of_fields (hzero : w.extractLsb' 5 9 = 0#9) :
    (o ++ field.rd w ++ field.ra w ++ 0#9 ++ field.sh w : Word) = w := by
  rw [← hopc, ← hzero]
  simp +arith only [field.opc, field.rd, field.ra, field.sh,
    extractLsb'_append_extractLsb'_eq_extractLsb', extractLsb'_eq_self]

theorem formatM_of_fields (hzero : w.extractLsb' 0 14 = 0#14) :
    (o ++ field.rd w ++ field.ra w ++ 0#14 : Word) = w := by
  rw [← hopc, ← hzero]
  simp +arith only [field.opc, field.rd, field.ra,
    extractLsb'_append_extractLsb'_eq_extractLsb', extractLsb'_eq_self]

theorem formatD_of_fields (hzero : w.extractLsb' 0 20 = 0#20) :
    (o ++ field.rd w ++ 0#20 : Word) = w := by
  rw [← hopc, ← hzero]
  simp +arith only [field.opc, field.rd,
    extractLsb'_append_extractLsb'_eq_extractLsb', extractLsb'_eq_self]

theorem formatA_of_fields (hhigh : w.extractLsb' 20 6 = 0#6) (hlow : w.extractLsb' 0 14 = 0#14) :
    (o ++ 0#6 ++ field.ra w ++ 0#14 : Word) = w := by
  rw [← hopc, ← hhigh, ← hlow]
  simp +arith only [field.opc, field.ra,
    extractLsb'_append_extractLsb'_eq_extractLsb', extractLsb'_eq_self]

theorem formatE_of_fields (hzero : w.extractLsb' 4 16 = 0#16) :
    (o ++ field.rd w ++ 0#16 ++ field.sel w : Word) = w := by
  rw [← hopc, ← hzero]
  simp +arith only [field.opc, field.rd, field.sel,
    extractLsb'_append_extractLsb'_eq_extractLsb', extractLsb'_eq_self]

theorem formatQ_of_fields (hzero : w.extractLsb' 16 10 = 0#10) :
    (o ++ 0#10 ++ field.qa w ++ field.qb w ++ field.qc w ++ field.qd w : Word) = w := by
  rw [← hopc, ← hzero]
  simp +arith only [field.opc, field.qa, field.qb, field.qc, field.qd,
    extractLsb'_append_extractLsb'_eq_extractLsb', extractLsb'_eq_self]

theorem formatN_of_fields (hzero : w.extractLsb' 0 26 = 0#26) : (o ++ 0#26 : Word) = w := by
  rw [← hopc, ← hzero]
  simp +arith only [field.opc, extractLsb'_append_extractLsb'_eq_extractLsb', extractLsb'_eq_self]

end

/-- The command a row reads from a word that matches it has that word: by the row's format, the fields and the
bits the mask fixes are the whole word. -/
theorem encode_read_of_match {w : Word} : ∀ row ∈ opcodeMap, w &&& row.mask = row.pattern →
    encode (row.read w) = w := by
  simp only [opcodeMap, opcodeRowsLow, opcodeRowsHigh, List.forall_mem_append, List.forall_mem_cons,
    List.not_mem_nil, false_implies, implies_true, and_true]
  refine ⟨⟨?_, ?_, ?_, ?_, ?_, ?_, ?_, ?_, ?_, ?_, ?_⟩, ?_, ?_, ?_, ?_, ?_, ?_, ?_, ?_, ?_, ?_⟩
  · exact fun h => formatN_of_fields (fixedBits_of_match h) (fixedBits_of_match h)
  · exact fun h => formatR_of_fields (fixedBits_of_match h) (fixedBits_of_match h)
  · exact fun h => formatR_of_fields (fixedBits_of_match h) (fixedBits_of_match h)
  · exact fun h => formatR_of_fields (fixedBits_of_match h) (fixedBits_of_match h)
  · exact fun h => formatR_of_fields (fixedBits_of_match h) (fixedBits_of_match h)
  · exact fun h => formatS_of_fields (fixedBits_of_match h) (fixedBits_of_match h)
  · exact fun h => formatS_of_fields (fixedBits_of_match h) (fixedBits_of_match h)
  · exact fun h => formatM_of_fields (fixedBits_of_match h) (fixedBits_of_match h)
  · exact fun h => formatD_of_fields (fixedBits_of_match h) (fixedBits_of_match h)
  · exact fun h => formatA_of_fields (fixedBits_of_match h) (fixedBits_of_match h) (fixedBits_of_match h)
  · exact fun h => formatE_of_fields (fixedBits_of_match h) (fixedBits_of_match h)
  · exact fun h => formatQ_of_fields (fixedBits_of_match h) (fixedBits_of_match h)
  · exact fun h => formatN_of_fields (fixedBits_of_match h) (fixedBits_of_match h)
  · exact fun h => formatN_of_fields (fixedBits_of_match h) (fixedBits_of_match h)
  · exact fun h => formatN_of_fields (fixedBits_of_match h) (fixedBits_of_match h)
  · exact fun h => formatN_of_fields (fixedBits_of_match h) (fixedBits_of_match h)
  · exact fun h => formatN_of_fields (fixedBits_of_match h) (fixedBits_of_match h)
  · exact fun h => formatN_of_fields (fixedBits_of_match h) (fixedBits_of_match h)
  · exact fun h => formatN_of_fields (fixedBits_of_match h) (fixedBits_of_match h)
  · exact fun h => formatN_of_fields (fixedBits_of_match h) (fixedBits_of_match h)
  · exact fun h => formatN_of_fields (fixedBits_of_match h) (fixedBits_of_match h)

/-- Settles O3: a word decodes through the row it matches, and that row's command has no other word. -/
theorem encodeOfDecode : Obligations.EncodeOfDecode := by
  intro w i h
  rcases decode_cases w with hill | ⟨row, hrow, _, hmatch, hdec⟩
  · cases hill.symm.trans h
  · obtain ⟨hread, hwf⟩ := (checkFields_eq_command_iff _ i).mp (hdec.symm.trans h)
    subst hread
    exact ⟨encode_read_of_match row hrow hmatch, hwf⟩

/-- Settles O1: each word's opcode selects its row, and the operand checks decide. -/
theorem specWordsDecode : Obligations.SpecWordsDecode := by
  refine ⟨?_, ?_, ?_, ?_, ?_, ?_, ?_, ?_, ?_, ?_, ?_, ?_, ?_⟩ <;> decide

/-! ### Words that are no command (R103 to R106) -/

/-- R103: no row has a reserved opcode. -/
theorem opcodeMap_not_reserved : ∀ row ∈ opcodeMap,
    ¬((0x0B ≤ row.opc.toNat ∧ row.opc.toNat ≤ 0x0F) ∨ row.opc.toNat = 0x17 ∨ 0x1B ≤ row.opc.toNat) := by
  decide

/-- Settles O4: a reserved opcode selects no row, and an illegal word fails at accept. -/
theorem reservedOpcodesFailIllegal : Obligations.ReservedOpcodesFailIllegal := by
  intro w s rest hreserved hbusy herr henv
  have hill : decode w = .illegal := by
    rcases decode_cases w with hill | ⟨row, hrow, hopc, _⟩
    · exact hill
    · exact absurd (hopc ▸ hreserved) (opcodeMap_not_reserved row hrow)
  refine ⟨hill, ?_⟩
  rw [step_of_cons henv]
  exact submitWord_of_illegal (s := State.respond .done { s with env := rest }) hbusy herr hill

/-- R104: where every row of the opcodes `opcs` fixes a field at zero, a word with such an opcode and a bit
of the field set is illegal. -/
theorem decode_eq_illegal_of_mustBeZero {w : Word} {opcs : List Nat} {start len : Nat}
    (hopc : (field.opc w).toNat ∈ opcs) (hset : w.extractLsb' start len ≠ 0#len)
    (hrows : ∀ row ∈ opcodeMap, row.opc.toNat ∈ opcs → row.mask.extractLsb' start len = BitVec.allOnes len ∧
      row.pattern.extractLsb' start len = 0#len := by decide) : decode w = .illegal := by
  rcases decode_cases w with hill | ⟨row, hrow, hrowOpc, hmatch, _⟩
  · exact hill
  · exact absurd (fixedBits_of_match hmatch (hrows row hrow (hrowOpc ▸ hopc))) hset

/-- Settles O5: each format's must-be-zero field is fixed by the masks of all its rows. -/
theorem mustBeZeroBitsAreIllegal : Obligations.MustBeZeroBitsAreIllegal := by
  intro w
  have opc_mem {n : Nat} (h : (field.opc w).toNat = n) : (field.opc w).toNat ∈ [n] :=
    List.mem_singleton.mpr h
  refine ⟨?formatN, ?formatR, ?formatS, ?formatM, ?formatD, ?formatA, ?formatE, ?formatQ⟩
  case formatA =>
    rintro hopc (hset | hset)
    · exact decode_eq_illegal_of_mustBeZero (opc_mem hopc) hset
    · exact decode_eq_illegal_of_mustBeZero (opc_mem hopc) hset
  case formatN | formatR | formatS =>
    exact fun hopc hset => decode_eq_illegal_of_mustBeZero hopc hset
  case formatM | formatD | formatE | formatQ =>
    exact fun hopc hset => decode_eq_illegal_of_mustBeZero (opc_mem hopc) hset

/-- A command's word passes the opcode and the mask, so only the operand checks are left. -/
theorem decode_encode (i : Instr) : decode (encode i) = checkFields i := by
  obtain ⟨row, hfind, hmask, hread⟩ := inRow i
  simp [decode, hfind, hmask, hread]

theorem checkFields_of_not_selOk {i : Instr} (h : i.selOk = false) : checkFields i = .illegal := by
  simp [checkFields, h]

theorem checkFields_of_not_regsOk {i : Instr} (hsel : i.selOk = true) (hregs : i.regsOk = false) :
    checkFields i = .badReg := by
  simp [checkFields, hsel, hregs]

theorem regsOk_eq_false_iff (i : Instr) : i.regsOk = false ↔ ∃ n ∈ i.regFields, 48 ≤ n.toNat := by
  simp [Instr.regsOk, RegNum.implemented]

/-- Opcode 0x0A is ENC's alone (R98). -/
theorem read_of_opc_enc (w : Word) : ∀ row ∈ opcodeMap, row.opc.toNat = 0x0A →
    row.read w = .enc (field.rd w) (field.sel w) := by
  simp [opcodeMap, opcodeRowsLow, opcodeRowsHigh]

/-- Settles O6: the operand checks are the decoder's last, the selector's before the registers'. -/
theorem operandChecksOfDecode : Obligations.OperandChecksOfDecode := by
  refine ⟨fun w hopc hsel => ?_, fun i hsel hregs => ?_⟩
  · rcases decode_cases w with hill | ⟨row, hrow, hrowOpc, _, hdec⟩
    · exact hill
    · rw [hdec, read_of_opc_enc w row hrow (hrowOpc ▸ hopc)]
      exact checkFields_of_not_selOk (decide_eq_false (by omega))
  · rw [decode_encode]
    exact checkFields_of_not_regsOk hsel ((regsOk_eq_false_iff i).mpr hregs)

/-! ### Every command has a meaning (R102, R136) -/

/-- Settles O14: a step is one event; an issue may fault, and every other event answers a next state. -/
theorem stepNeverRefuses : Obligations.StepNeverRefuses := by
  intro s r
  obtain ⟨ev, hev⟩ := step_eq_event s
  rw [hev]
  rcases event_cases ev { s with env := s.env.tail } with ⟨k, rfl⟩ | ⟨t, ht, _⟩
  · rcases issue_cases k { s with env := s.env.tail } with h | ⟨_, _, _, _, _, _, ⟨_, _, h⟩ | ⟨_, _, h⟩⟩ <;>
      simp [State.event, h]
  · simp [ht]

/-! ### Pseudo-instructions (R110) -/

/-- Settles O59: every expansion, and DROUND's requests with their stages left out, compute. -/
theorem pseudoExpansions : Obligations.PseudoExpansions := by
  refine ⟨?_, ?_, ?_, ?_, ?_, ?_, ?_, ?_, ?_, ?_, ?_⟩ <;> rfl

end Sys2Proof.Machine

/-! The command lifecycle's statements (spec 40_command_lifecycle.md): the operand checks at accept (R123,
R124), what a command writes whatever the ALU answers (R131, R132), an ALU failure and its late answers (R132),
and a command left unanswered (R134). -/

namespace Sys2Proof.Machine

/-! ### The operand checks (R123 items 1 and 2) -/

theorem failure_of_not_selOk {i : Instr} (h : i.selOk = false) (s : State) :
    s.failure i = some .illegalCmd := by
  simp [State.failure, State.firstFailure, h]

theorem failure_of_not_regsOk {i : Instr} (hsel : i.selOk = true) (hregs : i.regsOk = false) (s : State) :
    s.failure i = some .badReg := by
  simp [State.failure, State.firstFailure, hsel, hregs]

/-- Settles O19: the selector's check is the first and the registers' the second. -/
theorem operandChecksFail : Obligations.OperandChecksFail := fun _ s hb he =>
  ⟨fun hsel => exec_of_failure hb he (failure_of_not_selOk hsel s),
   fun hsel hregs => exec_of_failure hb he (failure_of_not_regsOk hsel hregs s)⟩

/-! ### Runs and plays -/

/-- A run of the machine is its first step and the run from there. -/
theorem run_succ {n : Nat} {s u : State} (h : Host.Core.run core (n + 1) s = .next u) :
    ∃ t, step s = .next t ∧ Host.Core.run core n t = .next u := by
  cases hstep : step s with
  | next t => exact ⟨t, rfl, run_of_next n hstep ▸ h⟩
  | fault f =>
    rw [run_of_fault n hstep] at h
    cases h
  | refused r => exact absurd hstep (stepNeverRefuses s r)

/-- What every step keeps holds at the end of every run. -/
theorem run_keeps {P : State → Prop} (hstep : ∀ s t, P s → step s = .next t → P t) {n : Nat} {s u : State}
    (hs : P s) (h : Host.Core.run core n s = .next u) : P u := by
  induction n generalizing s with
  | zero =>
    cases h
    exact hs
  | succ n ih =>
    obtain ⟨t, ht, hrun⟩ := run_succ h
    exact ih (hstep s t hs ht) hrun

/-- The events of a play without a submission: the block's and the ALU's own, and the host's transactions that
submit no command. The reset input is not among them. -/
def Event.submitsNothing : Event → Bool
  | .host tx => !tx.submits
  | .issue _ | .alu _ _ | .receive _ => true
  | .reset => false

theorem Move.event_submitsNothing {alu : Alu} {m : Move} {s : State} {ev : Event}
    (h : m.event alu s = some ev) (hm : ∀ tx, m = .host tx → tx.submits = false) :
    ev.submitsNothing = true := by
  cases m with
  | host tx =>
    cases h
    simp [Event.submitsNothing, hm tx rfl]
  | issue k =>
    cases h
    rfl
  | answer j | receive j =>
    obtain ⟨p, _, rfl⟩ := Option.map_eq_some_iff.mp h
    rfl

/-- A play is its first move, which may be none, and the play from there. -/
theorem play_cons {alu : Alu} {m : Move} {ms : List Move} {s u : State}
    (h : play alu (m :: ms) s = .next u) :
    play alu ms s = .next u ∨ ∃ ev t, m.event alu s = some ev ∧
      State.event ev { s with env := [] } = .next t ∧ play alu ms t = .next u := by
  simp only [play] at h
  split at h
  · exact .inl h
  · rename_i ev hev
    rw [step_of_cons (s := { s with env := [ev] }) rfl] at h
    split at h
    · rename_i t ht
      exact .inr ⟨ev, t, hev, ht, h⟩
    · cases h
    · cases h

/-- What every event but a submission and reset keeps, and the schedule does not touch, holds at the end of
every play without a submission. -/
theorem play_keeps {P : State → Prop} (henv : ∀ s es, P s → P { s with env := es })
    (hev : ∀ ev s t, ev.submitsNothing = true → P s → State.event ev s = .next t → P t)
    {alu : Alu} {ms : List Move} {s u : State} (hms : noSubmission ms) (hs : P s)
    (h : play alu ms s = .next u) : P u := by
  induction ms generalizing s with
  | nil =>
    cases h
    exact hs
  | cons m ms ih =>
    have hrest : noSubmission ms := fun tx htx => hms tx (List.mem_cons_of_mem _ htx)
    rcases play_cons h with h | ⟨ev, t, hm, ht, h⟩
    · exact ih hrest hs h
    · have hnone := Move.event_submitsNothing hm fun tx htx => hms tx (htx ▸ List.mem_cons_self)
      exact ih hrest (hev ev _ t hnone (henv s [] hs) ht) h

/-! ### A command keeps to its destination set (R131, R132) -/

/-- INIT and BLOCK start with the key words in S4..S11 and I4..I11 (R213), which their check found held. -/
theorem valid_started_of_needsKey {i : Instr} {s : State} (hf : s.failure i = none)
    (hk : needsKey i = true) {n : Nat} (hn : (4 ≤ n ∧ n < 12) ∨ (20 ≤ n ∧ n < 28)) :
    (s.started i).valid n = true := by
  obtain ⟨_, hkeys, _⟩ := (failure_eq_none_iff i s).mp hf
  have hkey : ∀ m, 32 ≤ m → m < 40 → (readEw s.regs m).isSome = true := fun m h1 h2 =>
    hkeys hk m ((mem_kRegs m).mpr ⟨h1, h2⟩)
  show (readEw (startRegs i s.regs) n).isSome = true
  rw [readEw_startRegs]
  split_ifs with h1 h2
  · exact hkey _ (by omega) (by omega)
  · exact hkey _ (by omega) (by omega)
  · simp only [hk, true_and] at h1 h2
    exact absurd hn (not_or.mpr ⟨h1, h2⟩)

/-- INIT-body gives every word of S and I a value: the key copies before its requests, the rest by them. -/
theorem initLines_cover {i : Instr} {s : State} (hf : s.failure i = none) (hk : needsKey i = true) {d : Nat}
    (hd : d < 32) : (s.started i).valid d = true ∨ ∃ ln ∈ initLines, d ∈ ln.dsts := by
  by_cases hkey : (4 ≤ d ∧ d < 12) ∨ (20 ≤ d ∧ d < 28)
  · exact .inl (valid_started_of_needsKey hf hk hkey)
  · have hany : (initLines.any fun ln => ln.dsts.contains d) = true := by
      rw [initLines_dsts, decide_eq_true_iff]
      omega
    exact .inr (by simpa using hany)

/-- QR-body writes each of its four words. -/
theorem qrLines_cover {a b c d n : Nat} (hn : n ∈ [sReg a, sReg b, sReg c, sReg d]) :
    ∃ ln ∈ qrLines a b c d, n ∈ ln.dsts := by
  simp only [List.mem_cons, List.not_mem_nil, or_false] at hn
  rcases hn with rfl | rfl | rfl | rfl <;> simp [qrLines, quarterLines, sReg]

/-- Every register of a command's destination set holds a value when it starts, or a line of it writes it. -/
theorem linesOf_cover {i : Instr} {s : State} (hf : s.failure i = none) (hi : isAluCommand i = true) :
    ∀ d ∈ destSet i, (s.started i).valid d = true ∨ ∃ ln ∈ linesOf i, d ∈ ln.dsts := by
  have hff : ∀ d ∈ sRegs, ∃ ln ∈ ffLines, d ∈ ln.dsts := by decide
  have hdround : ∀ d ∈ sRegs, ∃ ln ∈ droundLines 0, d ∈ ln.dsts := by decide
  have hlt : ∀ d ∈ sRegs ++ iRegs, d < 32 := by decide
  intro d hd
  cases i with
  | qr qa qb qc qd => exact .inr (qrLines_cover hd)
  | dround => exact .inr (hdround d hd)
  | ff => exact .inr (hff d hd)
  | mix =>
    obtain ⟨ln, hln, hdln⟩ := hff d hd
    exact .inr ⟨ln, List.mem_append_right _ hln, hdln⟩
  | init => exact initLines_cover hf rfl (hlt d hd)
  | block =>
    refine (initLines_cover hf rfl (hlt d hd)).imp_right fun ⟨ln, hln, hdln⟩ => ⟨ln, ?_, hdln⟩
    exact List.mem_append_left _ (List.mem_append_left _ hln)
  | nop | mov | ldx | stx | snap | ctrinc | clrs | clrk => cases hi
  | _ => exact .inr (by simpa [linesOf, wordLine, destSet] using hd)

/-- The key copies go to registers of the destination set only (R131). -/
theorem readEw_startRegs_of_notMem {i : Instr} {n : Nat} (hn : n ∉ destSet i) (f : EwFile) :
    readEw (startRegs i f) n = readEw f n := by
  rw [readEw_startRegs]
  by_cases hk : needsKey i = true
  · have hdest : destSet i = sRegs ++ iRegs := by
      cases i with
      | init | block => rfl
      | _ => cases hk
    rw [hdest, List.mem_append, mem_sRegs, mem_iRegs] at hn
    rw [if_neg (by omega), if_neg (by omega)]
  · simp [hk]

/-- A command that has just started meets the sequencer's part of the invariant, also where the state before
did not meet the invariant: what that held in CUR, ERRCODE or its requests plays no part. -/
theorem seqInv_dataInv_started {i : Instr} {s : State} (hf : s.failure i = none)
    (hi : isAluCommand i = true) : (s.started i).SeqInv ∧ (s.started i).DataInv := by
  have hinv := inv_started (i := i)
    (s := { s with busy := false, err := false, errCode := .none, aluReason := 0#8, cur := none,
                   pending := [] })
    ⟨by simp, by simp, by simp, by simp, by simp⟩ rfl hf hi
  obtain ⟨_, hseq, hdata, _⟩ := hinv
  exact ⟨hseq, hdata⟩

/-- Command `i`, accepted when the registers were `f`, is in progress: it has written nothing outside its
destination set, and each register of the set holds a value, is awaited, or is still to be requested. -/
structure InProgress (i : Instr) (f : EwFile) (s : State) : Prop where
  busy : s.busy = true
  seq : s.SeqInv
  data : s.DataInv
  dests : s.curDests = destSet i
  frame : ∀ n, n ∉ destSet i → s.reg n = readEw f n
  cover : ∀ d ∈ destSet i, (s.valid d = true ∨ ∃ p ∈ s.pending, d ∈ p.dsts) ∨ ∃ ln ∈ s.todo, d ∈ ln.dsts

/-- Command `i`, accepted when the registers were `f`, is over, with or without success. -/
structure IsOver (i : Instr) (f : EwFile) (s : State) : Prop where
  idle : s.busy = false
  pending : s.pending = []
  frame : ∀ n, n ∉ destSet i → s.reg n = readEw f n
  allOrNone : (∀ n ∈ destSet i, (s.reg n).isSome = true) ∨ (∀ n ∈ destSet i, s.reg n = none)

theorem inProgress_started {i : Instr} {s : State} (hf : s.failure i = none) (hi : isAluCommand i = true) :
    InProgress i s.regs (s.started i) := by
  obtain ⟨hseq, hdata⟩ := seqInv_dataInv_started hf hi
  exact ⟨rfl, hseq, hdata, curDests_started hf, fun n hn => readEw_startRegs_of_notMem hn s.regs,
    fun d hd => (linesOf_cover hf hi d hd).imp_left .inl⟩

section
variable {i : Instr} {f : EwFile} {s t : State}

theorem InProgress.withEnv (h : InProgress i f s) (es : List Event) : InProgress i f { s with env := es } :=
  ⟨h.busy, h.seq, h.data, h.dests, h.frame, h.cover⟩

theorem IsOver.withEnv (h : IsOver i f s) (es : List Event) : IsOver i f { s with env := es } :=
  ⟨h.idle, h.pending, h.frame, h.allOrNone⟩

theorem InProgress.hostEffect (h : InProgress i f s) (ht : HostEffect s t) : InProgress i f t := by
  cases ht <;> exact ⟨h.busy, h.seq, h.data, h.dests, h.frame, h.cover⟩

theorem IsOver.hostEffect (h : IsOver i f s) (ht : HostEffect s t) : IsOver i f t := by
  cases ht <;> exact ⟨h.idle, h.pending, h.frame, h.allOrNone⟩

/-- The line issued is awaited from now on, the others are still to be requested. -/
theorem InProgress.issued (h : InProgress i f s) {k : Nat} {ln : Line} {req : AluRequest}
    (hln : s.todo[k]? = some ln) (hlanes : s.pending.length < s.params.aluLanes) :
    InProgress i f (s.issued k ln req) := by
  refine ⟨h.busy, seqInv_issued h.seq hlanes, dataInv_issued h.data hln, h.dests, h.frame, fun d hd => ?_⟩
  obtain ⟨hsplit, herase⟩ := eraseIdx_of_getElem? hln
  rcases h.cover d hd with (hv | ⟨p, hp, hdp⟩) | ⟨l, hl, hdl⟩
  · exact .inl (.inl hv)
  · exact .inl (.inr ⟨p, mem_issued_pending.mpr (.inl hp), hdp⟩)
  · rw [hsplit, List.mem_append, List.mem_cons] at hl
    have hrest : l = ln ∨ l ∈ s.todo.eraseIdx k := by
      rw [herase, List.mem_append]
      tauto
    rcases hrest with rfl | hl
    · exact .inl (.inr ⟨_, mem_issued_pending.mpr (.inr rfl), hdl⟩)
    · exact .inr ⟨l, hl, hdl⟩

theorem InProgress.issue (h : InProgress i f s) {k : Nat} (ht : s.issue k = .next t) : InProgress i f t := by
  rcases issue_cases k s with hx | ⟨ln, hln, _, _, hlanes, _, ⟨req, _, hx⟩ | ⟨_, _, hx⟩⟩ <;>
    rw [hx] at ht <;> cases ht
  · exact h
  · exact h.issued hln hlanes

theorem InProgress.aluAnswer (h : InProgress i f s) (tag : Nat) (a : AluAnswer) :
    InProgress i f (s.aluAnswer tag a) := by
  have hawaited : ∀ d, (∃ p ∈ s.pending, d ∈ p.dsts) → ∃ p ∈ (s.aluAnswer tag a).pending, d ∈ p.dsts := by
    rintro d ⟨p, hp, hd⟩
    have hmem := List.mem_map_of_mem (f := Pending.dsts) hp
    rw [← map_aluAnswer Pending.dsts (fun _ _ => rfl) tag a s, List.mem_map] at hmem
    obtain ⟨q, hq, hqp⟩ := hmem
    exact ⟨q, hq, hqp ▸ hd⟩
  exact ⟨h.busy, seqInv_aluAnswer h.seq tag a, dataInv_aluAnswer h.data tag a, h.dests, h.frame,
    fun d hd => (h.cover d hd).imp_left (.imp_right (hawaited d))⟩

/-- An ALU failure leaves no register of the destination set a value (R132). -/
theorem InProgress.failAlu (h : InProgress i f s) (r : AluReason) : IsOver i f (s.failAlu r) := by
  have hreg : ∀ n, (s.failAlu r).reg n = if n ∈ destSet i ∧ n < 48 then none else s.reg n := fun n => by
    rw [State.reg_eq, State.failAlu_regs, h.dests, readEw_writeEws, State.reg_eq]
  refine ⟨rfl, rfl, fun n hn => ?_, .inr fun n hn => ?_⟩
  · rw [hreg, if_neg (fun hc => hn hc.1)]
    exact h.frame n hn
  · rw [hreg]
    split_ifs with hc
    · rfl
    · exact readEw_of_ge (Nat.le_of_not_lt fun hlt => hc ⟨hn, hlt⟩)

/-- An answer received is written inside the destination set (R131). -/
theorem InProgress.received_frame (h : InProgress i f s) {p : Pending} (hp : p ∈ s.pending) (e : EW) :
    ∀ n, n ∉ destSet i → (s.received p e).reg n = readEw f n := by
  intro n hn
  obtain ⟨_, hdsts, _⟩ := h.data h.busy
  have hnp : n ∉ p.dsts := fun hc => hn (h.dests ▸ (hdsts p hp n hc).2)
  show readEw (writeEws s.regs p.dsts (some e)) n = _
  rw [readEw_writeEws, if_neg (fun hc => hnp hc.1)]
  exact h.frame n hn

/-- What awaited the answer received holds a value from now on. -/
theorem InProgress.received_cover (h : InProgress i f s) {p : Pending} (hp : p ∈ s.pending) (e : EW) :
    ∀ d ∈ destSet i, ((s.received p e).valid d = true ∨ ∃ q ∈ (s.received p e).pending, d ∈ q.dsts) ∨
      ∃ ln ∈ s.todo, d ∈ ln.dsts := by
  obtain ⟨_, hnodup, _⟩ := h.seq
  obtain ⟨_, hdsts, _⟩ := h.data h.busy
  exact fun d hd => (h.cover d hd).imp_left
    (valid_or_awaited_received hnodup hp fun x hx => (hdsts p hp x hx).1)

/-- A receipt leaves the command in progress or ends it (R126, R132, R134). -/
theorem InProgress.receive (h : InProgress i f s) (tag : Nat) :
    InProgress i f (s.receive tag) ∨ IsOver i f (s.receive tag) := by
  rcases receive_cases tag s with hx | ⟨p, _, hp, _, ⟨r, _, hx⟩ | ⟨e, _, hx⟩⟩ <;> rw [hx]
  · exact .inl h
  · exact .inr (h.failAlu r)
  · have hframe := h.received_frame hp e
    have hcover := h.received_cover hp e
    rcases completeIfEnded_cases (s.received p e) with ⟨hleft, hy⟩ | ⟨htodo, hpend, hy⟩ <;> rw [hy]
    · exact .inl ⟨h.busy, seqInv_received h.seq p e hleft, dataInv_received h.data h.seq hp e, h.dests,
        hframe, hcover⟩
    · have hnone : ∀ d, ¬ ∃ ln ∈ s.todo, d ∈ ln.dsts := fun d ⟨_, hln, _⟩ =>
        List.not_mem_nil (htodo ▸ hln : _ ∈ ([] : List Line))
      refine .inr ⟨rfl, hpend, hframe, .inl fun d hd => ?_⟩
      show (s.received p e).valid d = true
      simpa [hpend] using (hcover d hd).resolve_right (hnone d)

/-- Nothing but a submission or reset takes the command further than to its end. -/
theorem InProgress.event (h : InProgress i f s) {ev : Event} (hev : ev.submitsNothing = true)
    (ht : State.event ev s = .next t) : InProgress i f t ∨ IsOver i f t := by
  cases ev with
  | host tx =>
    rcases hostStep_cases tx s with ⟨v, rfl, _⟩ | ⟨u, hu, hx⟩
    · cases hev
    · cases hx.symm.trans ht
      exact .inl (h.hostEffect hu)
  | issue k => exact .inl (h.issue ht)
  | alu tag a => cases ht; exact .inl (h.aluAnswer tag a)
  | receive tag => cases ht; exact h.receive tag
  | reset => cases hev

/-- After its end nothing but a submission or reset changes a register. -/
theorem IsOver.event (h : IsOver i f s) {ev : Event} (hev : ev.submitsNothing = true)
    (ht : State.event ev s = .next t) : IsOver i f t := by
  cases ev with
  | host tx =>
    rcases hostStep_cases tx s with ⟨v, rfl, _⟩ | ⟨u, hu, hx⟩
    · cases hev
    · cases hx.symm.trans ht
      exact h.hostEffect hu
  | issue k =>
    rcases issue_cases k s with hx | ⟨_, _, hb, _⟩
    · cases hx.symm.trans ht
      exact h
    · cases hb.symm.trans h.idle
  | alu tag a =>
    cases ht
    exact ⟨h.idle, aluAnswer_pending_eq_nil.mpr h.pending, h.frame, h.allOrNone⟩
  | receive tag =>
    cases ht
    rw [receive_of_pending_nil h.pending]
    exact h
  | reset => cases hev

end

/-- A command that leaves the block busy is an ALU command whose checks passed (R125, R126). -/
theorem started_of_exec_busy {i : Instr} {s t : State} (hb : s.busy = false) (he : s.err = false)
    (hx : exec i s = .next t) (ht : t.busy = true) :
    s.failure i = none ∧ isAluCommand i = true ∧ t = s.started i := by
  rcases exec_cases i s with ⟨hd, _⟩ | ⟨_, _, c, _, hy⟩ | ⟨_, _, hf, hi, hy⟩ | ⟨_, _, _, _, hy⟩
  · simp [hb, he] at hd
  · cases hy.symm.trans hx
    cases ht
  · cases hy.symm.trans hx
    exact ⟨hf, hi, rfl⟩
  · cases hy.symm.trans hx
    cases ht

/-- Settles O44: a play keeps the command in progress until it is over, and over from then on. -/
theorem commandKeepsToDestinationSet : Obligations.CommandKeepsToDestinationSet := by
  intro alu ms s t u i hb he hx ht hms hplay
  obtain ⟨hf, hi, rfl⟩ := started_of_exec_busy hb he hx ht
  have hkeeps := play_keeps (P := fun v => InProgress i s.regs v ∨ IsOver i s.regs v)
    (fun _ es h => h.imp (·.withEnv es) (·.withEnv es))
    (fun _ _ _ hev h hnext => h.elim (·.event hev hnext) fun hover => .inr (hover.event hev hnext))
    hms (.inl (inProgress_started hf hi)) hplay
  rcases hkeeps with hrun | hover
  · exact ⟨hrun.frame, fun hidle => by cases hrun.busy.symm.trans hidle⟩
  · exact ⟨hover.frame, fun _ => hover.allOrNone⟩

/-! ### An ALU failure and its late answers (R132) -/

/-- Every request outstanding now or later carries the tag `k` or a later one. -/
def State.TagsFrom (k : Nat) (s : State) : Prop := k ≤ s.nextTag ∧ ∀ p ∈ s.pending, k ≤ p.tag

theorem tagsFrom_of_pending_nil {k : Nat} {s : State} (hk : k ≤ s.nextTag) (hp : s.pending = []) :
    s.TagsFrom k :=
  ⟨hk, by simp [hp]⟩

theorem submitWord_tagsFrom {k : Nat} {v : Word} {s t : State} (h : s.TagsFrom k)
    (ht : s.submitWord v = .next t) : t.TagsFrom k := by
  rcases submitWord_cases v s with ⟨_, hx⟩ | ⟨_, _, c, _, _, hx⟩ | ⟨_, _, i, _, _, _, hx⟩ |
    ⟨_, _, i, _, _, _, hx⟩ <;> cases hx.symm.trans ht
  · exact h
  · exact tagsFrom_of_pending_nil h.1 rfl
  · exact tagsFrom_of_pending_nil h.1 rfl
  · obtain ⟨f, o, c, w, hbody⟩ := bodyOf_frame i s.sample (s.accept (encode i) s.sample)
    rw [hbody]
    exact tagsFrom_of_pending_nil h.1 rfl

theorem hostStep_tagsFrom {k : Nat} {tx : HostTx} {s t : State} (h : s.TagsFrom k)
    (ht : s.hostStep tx = .next t) : t.TagsFrom k := by
  rcases hostStep_cases tx s with ⟨v, _, hx⟩ | ⟨u, hu, hx⟩
  · exact submitWord_tagsFrom (s := s.respond .done) h (hx ▸ ht)
  · cases hx.symm.trans ht
    cases hu <;> exact h

theorem issue_tagsFrom {k j : Nat} {s t : State} (h : s.TagsFrom k) (ht : s.issue j = .next t) :
    t.TagsFrom k := by
  obtain ⟨hk, htags⟩ := h
  rcases issue_cases j s with hx | ⟨_, _, _, _, _, _, ⟨_, _, hx⟩ | ⟨_, _, hx⟩⟩ <;> cases hx.symm.trans ht
  · exact ⟨hk, htags⟩
  · refine ⟨Nat.le_succ_of_le hk, fun p hp => ?_⟩
    rcases mem_issued_pending.mp hp with hp | rfl
    · exact htags p hp
    · exact hk

theorem aluAnswer_tagsFrom {k : Nat} {s : State} (h : s.TagsFrom k) (tag : Nat) (a : AluAnswer) :
    (s.aluAnswer tag a).TagsFrom k := by
  refine ⟨h.1, fun p hp => ?_⟩
  obtain ⟨q, hq, _, rfl⟩ := mem_aluAnswer hp
  exact h.2 q hq

theorem receive_tagsFrom {k : Nat} {s : State} (h : s.TagsFrom k) (tag : Nat) :
    (s.receive tag).TagsFrom k := by
  rcases receive_cases tag s with hx | ⟨p, _, _, _, ⟨r, _, hx⟩ | ⟨e, _, hx⟩⟩ <;> rw [hx]
  · exact h
  · exact tagsFrom_of_pending_nil h.1 rfl
  · have hreceived : (s.received p e).TagsFrom k := ⟨h.1, fun q hq => h.2 q (mem_received_pending.mp hq).1⟩
    rcases completeIfEnded_cases (s.received p e) with ⟨_, hy⟩ | ⟨_, _, hy⟩ <;> rw [hy] <;> exact hreceived

/-- No tag is used twice, over reset either (R132, R312): no step goes back to a tag before `k`. -/
theorem step_tagsFrom {k : Nat} (s t : State) (h : s.TagsFrom k) (ht : step s = .next t) : t.TagsFrom k := by
  obtain ⟨ev, hev⟩ := step_eq_event s
  rw [hev] at ht
  cases ev with
  | host tx => exact hostStep_tagsFrom (s := { s with env := s.env.tail }) h ht
  | issue j => exact issue_tagsFrom (s := { s with env := s.env.tail }) h ht
  | alu tag a => cases ht; exact aluAnswer_tagsFrom (s := { s with env := s.env.tail }) h tag a
  | receive tag => cases ht; exact receive_tagsFrom (s := { s with env := s.env.tail }) h tag
  | reset => cases ht; exact tagsFrom_of_pending_nil h.1 rfl

/-- An answer to no outstanding request changes nothing. -/
theorem aluAnswer_of_not_outstanding {s : State} {tag : Nat} (h : ∀ p ∈ s.pending, p.tag ≠ tag)
    (a : AluAnswer) : s.aluAnswer tag a = s := by
  have hmap : (s.aluAnswer tag a).pending = s.pending := by
    refine (List.map_congr_left fun p hp => ?_).trans (List.map_id _)
    simp [h p hp]
  show { s with pending := (s.aluAnswer tag a).pending } = s
  rw [hmap]

/-- Once everything outstanding was abandoned, its answers change nothing at any later state (R132, R312). -/
theorem aluAnswer_abandoned {s t u : State} {n : Nat} (h : s.SeqInv)
    (hrun : Host.Core.run core n t = .next u) (hpend : t.pending = []) (htag : t.nextTag = s.nextTag) :
    ∀ q ∈ s.pending, ∀ a : AluAnswer, u.aluAnswer q.tag a = u := by
  obtain ⟨_, _, hissued, _⟩ := h
  obtain ⟨_, hlater⟩ := run_keeps step_tagsFrom (tagsFrom_of_pending_nil htag.ge hpend) hrun
  exact fun q hq => aluAnswer_of_not_outstanding fun p hp => ((hissued q hq).trans_le (hlater p hp)).ne'

theorem receive_of_err {s : State} {p : Pending} {r : AluReason} (hnodup : (s.pending.map Pending.tag).Nodup)
    (hp : p ∈ s.pending) (ha : p.answer = some (.err r)) : s.receive p.tag = s.failAlu r := by
  simp only [State.receive, find?_tag_of_mem hnodup hp, ha]

theorem curDests_of_cur {s : State} {i : Instr} (hcur : s.cur = some (encode i)) (hw : i.wf = true) :
    s.curDests = destSet i := by
  simp only [State.curDests, hcur, decode_encode_of_wf hw]

/-- Invalidation of a well-formed command's destination set, register by register. -/
theorem readEw_writeEws_destSet {i : Instr} (hw : i.wf = true) (f : EwFile) (v : Option EW) (n : Nat) :
    readEw (writeEws f (destSet i) v) n = if n ∈ destSet i then v else readEw f n := by
  have hlt : (n ∈ destSet i ∧ n < 48) ↔ n ∈ destSet i := and_iff_left_of_imp (destSet_lt hw n)
  simp only [readEw_writeEws, hlt]

/-- Settles O43: the receipt is the failure of R132, and no later request has a tag of the abandoned ones. -/
theorem aluFailureInvalidates : Obligations.AluFailureInvalidates := by
  intro s rest p i r hinv henv hp ha hcur hw
  obtain ⟨_, hseq, _, _⟩ := hinv
  have ⟨_, hnodup, _⟩ := hseq
  have hstep : step s = .next (State.failAlu r { s with env := rest }) := by
    rw [step_of_cons henv]
    exact congrArg _ (receive_of_err (s := { s with env := rest }) hnodup hp ha)
  have hdests : State.curDests { s with env := rest } = destSet i := curDests_of_cur hcur hw
  refine ⟨writeEws s.regs (destSet i) none, _, hstep, ?_, readEw_writeEws_destSet hw s.regs none,
    fun n u hrun => aluAnswer_abandoned hseq hrun rfl rfl⟩
  simp only [State.failAlu, hdests, State.completeFailed]

/-! ### A command left unanswered (R134) -/

/-- A command is in progress, none of its outstanding requests is answered, and the schedule holds no answer
and no reset. -/
structure Unanswered (s : State) : Prop where
  inv : s.Inv
  busy : s.busy = true
  noAnswer : ∀ p ∈ s.pending, p.answer = none
  schedule : ∀ ev ∈ s.env, (∀ tag a, ev ≠ .alu tag a) ∧ ev ≠ .reset

section
variable {s t : State}

theorem HostEffect.env_eq (h : HostEffect s t) : t.env = s.env := by
  cases h <;> rfl

/-- With no answer given there is none to receive. -/
theorem receive_of_noAnswer (h : ∀ p ∈ s.pending, p.answer = none) (tag : Nat) : s.receive tag = s := by
  rcases receive_cases tag s with hx | ⟨p, _, hp, _, ⟨r, ha, _⟩ | ⟨e, ha, _⟩⟩
  · exact hx
  all_goals cases (h p hp).symm.trans ha

/-- What the block and the host can do to a command left unanswered: issue a request, or nothing. -/
theorem event_of_noAnswer {ev : Event} (hb : s.busy = true) (hno : ∀ p ∈ s.pending, p.answer = none)
    (hev : (∀ tag a, ev ≠ .alu tag a) ∧ ev ≠ .reset) (ht : State.event ev s = .next t) :
    t.busy = true ∧ t.cur = s.cur ∧ t.env = s.env ∧ ∀ p ∈ t.pending, p.answer = none := by
  cases ev with
  | host tx =>
    rcases hostStep_cases tx s with ⟨v, _, hx⟩ | ⟨u, hu, hx⟩
    · rw [submitWord_of_drop (s := s.respond .done) (.inl hb)] at hx
      cases hx.symm.trans ht
      exact ⟨hb, rfl, rfl, hno⟩
    · cases hx.symm.trans ht
      obtain ⟨hbusy, _, hcur, _, _, hpend, _⟩ := hu.frame
      exact ⟨hbusy.trans hb, hcur, hu.env_eq, hpend ▸ hno⟩
  | issue k =>
    rcases issue_cases k s with hx | ⟨_, _, _, _, _, _, ⟨_, _, hx⟩ | ⟨_, _, hx⟩⟩ <;> cases hx.symm.trans ht
    · exact ⟨hb, rfl, rfl, hno⟩
    · refine ⟨hb, rfl, rfl, fun p hp => ?_⟩
      rcases mem_issued_pending.mp hp with hp | rfl
      · exact hno p hp
      · rfl
  | alu tag a => exact absurd rfl (hev.1 tag a)
  | receive tag =>
    cases ht
    rw [receive_of_noAnswer hno]
    exact ⟨hb, rfl, rfl, hno⟩
  | reset => exact absurd rfl hev.2

/-- The step of a command left unanswered is such an event: by itself the block can only issue. -/
theorem Unanswered.step_eq_event (h : Unanswered s) : ∃ ev, ((∀ tag a, ev ≠ .alu tag a) ∧ ev ≠ .reset) ∧
    step s = State.event ev { s with env := s.env.tail } := by
  cases henv : s.env with
  | nil =>
    have hs : { s with env := s.env.tail } = s := by rw [henv, List.tail_nil, ← henv]
    rw [← henv, hs, step_of_nil henv]
    rcases blockStep_cases s with ⟨p, hp, ha, _⟩ | ⟨_, hx⟩
    · simp [h.noAnswer p hp] at ha
    · exact ⟨.issue 0, by simp, hx⟩
  | cons ev rest => exact ⟨ev, h.schedule ev (by simp [henv]), step_of_cons henv⟩

theorem Unanswered.step (h : Unanswered s) : ∃ t, step s = .next t ∧ Unanswered t ∧ t.cur = s.cur := by
  obtain ⟨t, ht⟩ := invariantNeverStops s h.inv
  obtain ⟨ev, hev, hstep⟩ := h.step_eq_event
  obtain ⟨hbusy, hcur, henv, hno⟩ :=
    event_of_noAnswer (s := { s with env := s.env.tail }) h.busy h.noAnswer hev (hstep ▸ ht)
  refine ⟨t, ht, ⟨stepKeepsInvariant s t h.inv ht, hbusy, hno, fun e he => ?_⟩, hcur⟩
  rw [henv] at he
  exact h.schedule e (List.mem_of_mem_tail he)

/-- However long the run, the command is still in progress. -/
theorem Unanswered.run (h : Unanswered s) (n : Nat) :
    ∃ u, Host.Core.run core n s = .next u ∧ u.busy = true ∧ u.cur = s.cur := by
  induction n generalizing s with
  | zero => exact ⟨s, run_zero s, h.busy, rfl⟩
  | succ n ih =>
    obtain ⟨t, ht, hwait, hcur⟩ := h.step
    obtain ⟨u, hu, hbusy, hcur'⟩ := ih hwait
    exact ⟨u, (run_of_next n ht).trans hu, hbusy, hcur'.trans hcur⟩

end

/-- Settles O45: without an answer each step leaves the command as it is, or issues one more request of it. -/
theorem noAnswerNoCompletion : Obligations.NoAnswerNoCompletion := fun _ n hinv hbusy hno hsched =>
  Unanswered.run ⟨hinv, hbusy, hno, hsched⟩ n

end Sys2Proof.Machine

/-! The word operations' statements (spec 41_word_ops.md): no step inspects a ciphertext (R156, R157), the word
commands complete under an ALU that answers `Ok` (R160 to R166), and without ENC no command that needs it
succeeds (R154). -/

namespace Sys2Proof.Machine

/-! ### Renaming and the register file -/

theorem map_writeEw (g : EW → EW) (f : EwFile) (n : Nat) (v : Option EW) :
    (writeEw f n v).map (Option.map g) = writeEw (f.map (Option.map g)) n (v.map g) :=
  ewFile_ext fun m => by
    simp only [readEw_map, readEw_writeEw]
    split_ifs <;> rfl

theorem map_writeEws (g : EW → EW) (f : EwFile) (ns : List Nat) (v : Option EW) :
    (writeEws f ns v).map (Option.map g) = writeEws (f.map (Option.map g)) ns (v.map g) :=
  ewFile_ext fun m => by
    simp only [readEw_map, readEw_writeEws]
    split_ifs <;> rfl

theorem map_copyEws (g : EW → EW) (f : EwFile) (pairs : List (Nat × Nat)) :
    (copyEws f pairs).map (Option.map g) = copyEws (f.map (Option.map g)) pairs := by
  induction pairs generalizing f with
  | nil => rfl
  | cons p ps ih =>
    have hstep : ∀ h : EwFile, copyEws h (p :: ps) = copyEws (writeEw h p.1 (readEw h p.2)) ps := fun _ => rfl
    rw [hstep, hstep, ih, map_writeEw, readEw_map]

/-- The register file a command starts from is renamed with the registers. -/
theorem map_startRegs (g : EW → EW) (i : Instr) (f : EwFile) :
    (startRegs i f).map (Option.map g) = startRegs i (f.map (Option.map g)) := by
  cases i with
  | init | block => exact map_copyEws g f keyCopies
  | _ => rfl

/-! ### What the block reads of a ciphertext: whether one is there -/

section
variable (g : EW → EW) (s : State)

theorem reg_mapEw (n : Nat) : (s.mapEw g).reg n = (s.reg n).map g := readEw_map g s.regs n

theorem valid_mapEw : (s.mapEw g).valid = s.valid :=
  funext fun n => by simp only [State.valid, reg_mapEw, Option.isSome_map]

theorem kv_mapEw : (s.mapEw g).kv = s.kv := by
  simp only [State.kv, valid_mapEw]

theorem statusWord_mapEw : (s.mapEw g).statusWord = s.statusWord := by
  simp only [State.statusWord, kv_mapEw]
  simp only [State.mapEw, Option.isSome_map]

theorem readRegister_mapEw (off : Nat) : (s.mapEw g).readRegister off = s.readRegister off := by
  unfold State.readRegister
  split
  case h_3 => rw [statusWord_mapEw]
  all_goals rfl

/-- The checks ask only which registers hold a value, and whether EWIN did (R123). -/
theorem failure_mapEw (i : Instr) : (s.mapEw g).failure i = s.failure i := by
  have hewin : (s.mapEw g).sample.ewin.isNone = s.sample.ewin.isNone := Option.isNone_map
  simp only [State.failure, State.firstFailure, valid_mapEw, hewin]

/-! ### Commands commute with renaming -/

/-- A write to the registers commutes with renaming where its register files do. -/
theorem withRegs_mapEw {f h : EwFile} (hf : f.map (Option.map g) = h) :
    (s.mapEw g).withRegs h = (s.withRegs f).mapEw g :=
  hf ▸ rfl

theorem bodyOf_mapEw (i : Instr) (l : Latches) :
    bodyOf i (l.mapEw g) (s.mapEw g) = (bodyOf i l s).mapEw g := by
  cases i with
  | mov rd ra => exact withRegs_mapEw g s (map_copyEws g s.regs [(rd.toNat, ra.toNat)])
  | ldx rd => exact withRegs_mapEw g s (map_writeEw g s.regs rd.toNat l.ewin)
  | stx ra => exact congrArg (fun o => ({ s.mapEw g with ewout := o } : State)) (reg_mapEw g s ra.toNat)
  | clrs => exact withRegs_mapEw g s (map_writeEws g s.regs (sRegs ++ iRegs ++ tRegs) none)
  | clrk => exact withRegs_mapEw g s (map_writeEws g s.regs kRegs none)
  | snap => exact withRegs_mapEw g s (map_copyEws g s.regs snapCopies)
  | _ => rfl

theorem started_mapEw (i : Instr) : (s.mapEw g).started i = (s.started i).mapEw g :=
  withRegs_mapEw g (s.started i) (map_startRegs g i s.regs)

theorem exec_mapEw (i : Instr) : exec i (s.mapEw g) = mapNext (State.mapEw g) (exec i s) := by
  have hfail := failure_mapEw g s i
  rcases exec_cases i s with ⟨hd, h⟩ | ⟨hb, he, c, hf, h⟩ | ⟨hb, he, hf, hi, h⟩ | ⟨hb, he, hf, hi, h⟩ <;>
    rw [h]
  · exact exec_of_drop (s := s.mapEw g) hd
  · exact exec_of_failure (s := s.mapEw g) hb he (hfail.trans hf)
  · rw [exec_of_alu (s := s.mapEw g) hb he (hfail.trans hf) hi, started_mapEw]
    rfl
  · have hbody := bodyOf_mapEw g (s.accept (encode i) s.sample) i s.sample
    exact (exec_of_immediate (s := s.mapEw g) hb he (hfail.trans hf) hi).trans
      (congrArg (fun t => Host.Outcome.next (State.completeOk t)) hbody)

theorem submitWord_mapEw (v : Word) :
    (s.mapEw g).submitWord v = mapNext (State.mapEw g) (s.submitWord v) := by
  unfold State.submitWord
  have hdrop : ((s.mapEw g).busy || (s.mapEw g).err) = (s.busy || s.err) := rfl
  rw [hdrop]
  cases s.busy || s.err with
  | true => rfl
  | false =>
    cases decode v with
    | command i => exact exec_mapEw g s i
    | illegal | badReg => rfl

theorem writeRegister_mapEw (off : Nat) (v : Word) :
    (s.mapEw g).writeRegister off v = (s.writeRegister off v).map (mapNext (State.mapEw g)) := by
  unfold State.writeRegister
  split
  case h_4 => rw [submitWord_mapEw]; rfl
  all_goals rfl

theorem hostStep_mapEw (tx : HostTx) :
    (s.mapEw g).hostStep (tx.mapEw g) = mapNext (State.mapEw g) (s.hostStep tx) := by
  cases tx with
  | regRead width off =>
    simp only [HostTx.mapEw, State.hostStep, readRegister_mapEw]
    cases accessOk width off <;> cases s.readRegister off <;> rfl
  | regWrite width off v =>
    have hw := writeRegister_mapEw g (s.respond .done) off v
    have hcomm : (s.mapEw g).respond .done = (s.respond .done).mapEw g := rfl
    simp only [HostTx.mapEw, State.hostStep, hcomm, hw]
    cases accessOk width off <;> cases (s.respond .done).writeRegister off v <;> rfl
  | ewPut e => rfl
  | ewGet =>
    have hout : (s.mapEw g).ewout = s.ewout.map g := rfl
    simp only [HostTx.mapEw, State.hostStep, hout]
    cases s.ewout <;> rfl

/-! ### The block's and the ALU's steps commute with renaming -/

theorem operand_mapEw (n : Nat) : (s.mapEw g).operand n = (s.operand n).map g := by
  simp only [State.operand, reg_mapEw]
  cases s.reg n <;> rfl

/-- The public words are cleartext (R166). -/
theorem publicOperand_mapEw (sel : BitVec 4) : (s.mapEw g).publicOperand sel = s.publicOperand sel := by
  have hword : (s.mapEw g).latch.bind (publicWord · sel) = s.latch.bind (publicWord · sel) := by
    simp only [State.mapEw, Option.bind_map]
    rfl
  simp only [State.publicOperand, hword]

/-- Operands are passed exactly as they are held (R157). -/
theorem request_mapEw (ln : Line) : (s.mapEw g).request ln = (s.request ln).map (AluRequest.mapEw g) := by
  unfold State.request
  cases ln.op with
  | bin op a b => simp only [operand_mapEw]; cases s.operand a <;> cases s.operand b <;> rfl
  | rotl a n | rotr a n => simp only [operand_mapEw]; cases s.operand a <;> rfl
  | enc sel => simp only [publicOperand_mapEw]; cases s.publicOperand sel <;> rfl

theorem independent_mapEw (ln : Line) (before : List Line) (pend : List Pending) :
    independent ln before (pend.map (Pending.mapEw g)) = independent ln before pend := by
  simp only [independent, List.all_map]
  rfl

theorem issued_mapEw (k : Nat) (ln : Line) (req : AluRequest) :
    (s.mapEw g).issued k ln (req.mapEw g) = (s.issued k ln req).mapEw g := by
  simp only [State.issued, State.mapEw, List.map_append]
  rfl

theorem issue_mapEw (k : Nat) : (s.mapEw g).issue k = mapNext (State.mapEw g) (s.issue k) := by
  have htodo : (s.mapEw g).todo[k]? = s.todo[k]? := rfl
  have hguard : ∀ ln, ((s.mapEw g).busy && (s.mapEw g).mayChoose k &&
      decide ((s.mapEw g).pending.length < (s.mapEw g).params.aluLanes) &&
      independent ln ((s.mapEw g).todo.take k) (s.mapEw g).pending) =
      (s.busy && s.mayChoose k && decide (s.pending.length < s.params.aluLanes) &&
        independent ln (s.todo.take k) s.pending) := fun ln => by
    simp only [State.mapEw, independent_mapEw, List.length_map]
    rfl
  simp only [State.issue, htodo, hguard, request_mapEw]
  cases s.todo[k]? with
  | none => rfl
  | some ln =>
    simp only
    split_ifs
    · cases s.request ln with
      | error f => rfl
      | ok req => exact congrArg _ (issued_mapEw g s k ln req)
    · rfl

/-- What the ALU's contract allows does not depend on the ciphertexts (R154). -/
theorem permitted_mapEw (p : Params) (req : AluRequest) (a : AluAnswer) :
    permitted p (req.mapEw g) (a.mapEw g) = permitted p req a := by
  cases req <;> cases a <;> rfl

theorem aluAnswer_mapEw (tag : Nat) (a : AluAnswer) :
    (s.mapEw g).aluAnswer tag (a.mapEw g) = (s.aluAnswer tag a).mapEw g := by
  have hanswer : ∀ p : Pending, (p.mapEw g).answer.isNone = p.answer.isNone := fun _ => Option.isNone_map
  have hpend : ((s.mapEw g).aluAnswer tag (a.mapEw g)).pending =
      (s.aluAnswer tag a).pending.map (Pending.mapEw g) := by
    simp only [State.aluAnswer, State.mapEw, List.map_map]
    refine List.map_congr_left fun p _ => ?_
    have hguard : ((p.mapEw g).tag == tag && (p.mapEw g).answer.isNone &&
        permitted s.params (p.mapEw g).req (a.mapEw g)) =
        (p.tag == tag && p.answer.isNone && permitted s.params p.req a) := by
      rw [hanswer, ← permitted_mapEw g s.params p.req a]
      rfl
    simp only [Function.comp_apply, hguard]
    split_ifs <;> rfl
  exact congrArg (fun ps => ({ s.mapEw g with pending := ps } : State)) hpend

theorem completeIfEnded_mapEw : (s.mapEw g).completeIfEnded = s.completeIfEnded.mapEw g := by
  have hguard : ((s.mapEw g).todo.isEmpty && (s.mapEw g).pending.isEmpty) =
      (s.todo.isEmpty && s.pending.isEmpty) := by
    simp only [State.mapEw, List.isEmpty_map]
  unfold State.completeIfEnded
  rw [hguard]
  split_ifs <;> rfl

theorem failAlu_mapEw (r : AluReason) : (s.mapEw g).failAlu r = (s.failAlu r).mapEw g :=
  withRegs_mapEw g (s.failAlu r) (map_writeEws g s.regs s.curDests none)

theorem received_mapEw (p : Pending) (e : EW) :
    (s.mapEw g).received (p.mapEw g) (g e) = (s.received p e).mapEw g := by
  simp only [State.received, State.mapEw, map_writeEws, List.filter_map]
  rfl

theorem receive_mapEw (tag : Nat) : (s.mapEw g).receive tag = (s.receive tag).mapEw g := by
  have hfind : (s.mapEw g).pending.find? (fun p => p.tag == tag) =
      (s.pending.find? (fun p => p.tag == tag)).map (Pending.mapEw g) := List.find?_map ..
  unfold State.receive
  rw [hfind]
  cases s.pending.find? (fun p => p.tag == tag) with
  | none => rfl
  | some p =>
    have hanswer : (p.mapEw g).answer = p.answer.map (AluAnswer.mapEw g) := rfl
    simp only [Option.map_some, hanswer]
    cases p.answer with
    | none => rfl
    | some a =>
      cases a with
      | err r => exact failAlu_mapEw g s r
      | ok e =>
        exact (congrArg State.completeIfEnded (received_mapEw g s { p with tag := tag } e)).trans
          (completeIfEnded_mapEw g _)

theorem blockStep_mapEw : (s.mapEw g).blockStep = mapNext (State.mapEw g) s.blockStep := by
  have hfind : (s.mapEw g).pending.find? (fun p => p.answer.isSome) =
      (s.pending.find? (fun p => p.answer.isSome)).map (Pending.mapEw g) := by
    simp only [State.mapEw, List.find?_map, Function.comp_def, Pending.mapEw, Option.isSome_map]
  unfold State.blockStep
  rw [hfind]
  cases s.pending.find? (fun p => p.answer.isSome) with
  | none => exact issue_mapEw g s 0
  | some p => exact congrArg _ (receive_mapEw g s p.tag)

theorem resetInput_mapEw : (s.mapEw g).resetInput = s.resetInput.mapEw g := by
  have hregs : (Vector.replicate 48 none).map (Option.map g) = Vector.replicate 48 none :=
    Vector.map_replicate
  exact withRegs_mapEw g s.resetInput hregs

theorem event_mapEw (ev : Event) :
    State.event (ev.mapEw g) (s.mapEw g) = mapNext (State.mapEw g) (State.event ev s) := by
  cases ev with
  | host tx => exact hostStep_mapEw g s tx
  | issue k => exact issue_mapEw g s k
  | alu tag a => exact congrArg _ (aluAnswer_mapEw g s tag a)
  | receive tag => exact congrArg _ (receive_mapEw g s tag)
  | reset => exact congrArg _ (resetInput_mapEw g s)

end

/-- Settles O55: the block reads of a ciphertext only whether it is there, so every event commutes with
renaming. -/
theorem ciphertextsNeverInspected : Obligations.CiphertextsNeverInspected := by
  intro g s
  cases henv : s.env with
  | nil =>
    have hmap : (s.mapEw g).env = [] := congrArg (List.map (Event.mapEw g)) henv
    rw [step_of_nil henv, step_of_nil hmap, blockStep_mapEw]
  | cons ev rest =>
    have hmap : (s.mapEw g).env = ev.mapEw g :: rest.map (Event.mapEw g) :=
      congrArg (List.map (Event.mapEw g)) henv
    rw [step_of_cons henv, step_of_cons hmap]
    exact event_mapEw g { s with env := rest } ev

/-! ### A line in canonical order under an ALU that answers `Ok` (R220) -/

/-- A move whose event answers a next state leaves the rest of the play to that state. -/
theorem play_of_event {alu : Alu} {m : Move} {s t : State} {ev : Event} (ms : List Move)
    (hm : m.event alu s = some ev) (ht : State.event ev { s with env := [] } = .next t) :
    play alu (m :: ms) s = play alu ms t := by
  simp only [play, hm, step_of_cons (s := { s with env := [ev] }) rfl, ht]

/-- The next line's request `p` is the one outstanding, and the lines `rest` are left to issue. -/
def State.awaiting (s : State) (rest : List Line) (p : Pending) : State :=
  { s with todo := rest, pending := [p], nextTag := s.nextTag + 1, env := [] }

/-- The answer `e` to the next line `ln` is received, and the lines `rest` are left to issue; the end of the
command is not yet looked for. -/
def State.lineDone (s : State) (rest : List Line) (ln : Line) (e : EW) : State :=
  { s with regs := writeEws s.regs ln.dsts (some e), todo := rest, pending := [],
           nextTag := s.nextTag + 1, env := [] }

section
variable {s : State} {ln : Line} {rest : List Line} {req : AluRequest}

theorem event_issue_next (hb : s.busy = true) (hlanes : 1 ≤ s.params.aluLanes)
    (htodo : s.todo = ln :: rest) (hpend : s.pending = []) (hreq : s.request ln = .ok req) :
    State.event (.issue 0) { s with env := [] } = .next (s.awaiting rest (ln.pend s.nextTag req)) := by
  have hissue : State.issue 0 { s with env := [] } = .next (State.issued { s with env := [] } 0 ln req) :=
    issue_of_enabled (by simp [htodo]) hb (mayChoose_zero _) (by rwa [hpend])
      (by rw [hpend]; exact independent_nil ln) hreq
  refine hissue.trans ?_
  simp [State.issued, State.awaiting, htodo, hpend]

theorem event_answer_awaited {p : Pending} {a : AluAnswer} (hp : p.answer = none)
    (hperm : permitted s.params p.req a = true) :
    State.event (.alu p.tag a) (s.awaiting rest p) = .next (s.awaiting rest { p with answer := some a }) := by
  simp [State.event, State.aluAnswer, State.awaiting, hp, hperm]

theorem event_receive_awaited (tag : Nat) (e : EW) :
    State.event (.receive tag) (s.awaiting rest { ln.pend tag req with answer := some (.ok e) }) =
      .next (s.lineDone rest ln e).completeIfEnded := by
  simp [State.event, State.receive, State.awaiting, State.lineDone]

/-- With nothing outstanding, the next line is issued, answered and received in three steps. -/
theorem play_line {ans : Nat → AluRequest → EW} (ms : List Move) (hb : s.busy = true)
    (hlanes : 1 ≤ s.params.aluLanes) (htodo : s.todo = ln :: rest) (hpend : s.pending = [])
    (hreq : s.request ln = .ok req) (hperm : ∀ e, permitted s.params req (.ok e) = true) :
    play (okAlu ans) (.issue 0 :: .answer 0 :: .receive 0 :: ms) s =
      play (okAlu ans) ms (s.lineDone rest ln (ans s.nextTag req)).completeIfEnded := by
  have hanswer := event_answer_awaited (s := s) (rest := rest) (p := ln.pend s.nextTag req) rfl
    (hperm (ans s.nextTag req))
  have hreceive := event_receive_awaited (s := s) (rest := rest) (ln := ln) (req := req) s.nextTag
    (ans s.nextTag req)
  rw [play_of_event _ rfl (event_issue_next hb hlanes htodo hpend hreq), play_of_event _ rfl hanswer,
    play_of_event _ rfl hreceive]

/-! ### The request of a line -/

theorem operand_of_reg {n : Nat} {e : EW} (h : s.reg n = some e) : s.operand n = .ok e := by
  simp only [State.operand, h]

theorem request_bin {op : BinOp} {a b : Nat} {x y : EW} (hop : ln.op = .bin op a b)
    (hx : s.reg a = some x) (hy : s.reg b = some y) : s.request ln = .ok (.bin op x y) := by
  simp only [State.request, hop, operand_of_reg hx, operand_of_reg hy]
  rfl

theorem request_rotl {a : Nat} {n : BitVec 5} {x : EW} (hop : ln.op = .rotl a n) (hx : s.reg a = some x) :
    s.request ln = .ok (.rotl x n) := by
  simp only [State.request, hop, operand_of_reg hx]
  rfl

theorem request_rotr {a : Nat} {n : BitVec 5} {x : EW} (hop : ln.op = .rotr a n) (hx : s.reg a = some x) :
    s.request ln = .ok (.rotr x n) := by
  simp only [State.request, hop, operand_of_reg hx]
  rfl

theorem request_enc {sel : BitVec 4} {l : Latches} {v : Word} (hop : ln.op = .enc sel)
    (hl : s.latch = some l) (hv : publicWord l sel = some v) : s.request ln = .ok (.enc v) := by
  simp only [State.request, hop, State.publicOperand, hl, Option.bind_some, hv]
  rfl

end

/-! ### A word command in canonical order -/

theorem accepts_started (s : State) (i : Instr) : s.accepts i (s.started i) := rfl

/-- A word command whose checks pass and whose one request is `req` completes in three steps, with the answer
in its destination alone; the ALU's laws give its value. -/
theorem wordCommand_completes (h : Scheme) {ans : Nat → AluRequest → EW} {s : State} {i : Instr}
    {rd : RegNum} {op : LineOp} {req : AluRequest} (hb : s.busy = false) (he : s.err = false)
    (hlanes : 1 ≤ s.params.aluLanes) (hrd : rd.toNat < 48) (hf : s.failure i = none)
    (hi : isAluCommand i = true) (hlines : linesOf i = wordLine rd op) (hregs : startRegs i s.regs = s.regs)
    (hreq : (s.started i).request { dsts := [rd.toNat], op := op } = .ok req)
    (hperm : ∀ e, permitted s.params req (.ok e) = true) :
    ∃ t f, exec i s = .next t ∧ s.accepts i t ∧ t.regs = s.regs ∧
      play (okAlu ans) (canonical 1) t = .next (s.finished f 1).unscheduled ∧
      (∀ n, readEw f n = if n = rd.toNat then some (ans s.nextTag req) else s.reg n) ∧
      (LawfulAlu h (okAlu ans) → h.session (ans s.nextTag req) ∧
        ((∀ x ∈ req.operands, h.session x) → h.dec (ans s.nextTag req) = req.value h.dec)) := by
  refine ⟨s.started i, writeEws s.regs [rd.toNat] (some (ans s.nextTag req)), exec_of_alu hb he hf hi,
    accepts_started s i, hregs, ?_, fun n => ?_, fun hlaw => hlaw s.nextTag req _ rfl⟩
  · refine (play_line (s := s.started i) [] rfl hlanes hlines rfl hreq hperm).trans ?_
    simp only [State.lineDone, State.started, hregs]
    rfl
  · have hn : n ∈ [rd.toNat] ∧ n < 48 ↔ n = rd.toNat := by
      rw [List.mem_singleton]
      exact and_iff_left_of_imp fun h => h ▸ hrd
    simp only [readEw_writeEws, hn, State.reg_eq]

/-! ### ADD, XOR, AND and OR (R160 to R163) -/

/-- The command of a binary operation. -/
def BinOp.instr : BinOp → RegNum → RegNum → RegNum → Instr
  | .add => .add
  | .xor => .xor
  | .and => .and
  | .or => .or

theorem failure_binInstr {s : State} {rd ra rb : RegNum} {x y : EW} (op : BinOp) (hrd : rd.toNat < 48)
    (hra : ra.toNat < 48) (hrb : rb.toNat < 48) (hx : s.reg ra.toNat = some x) (hy : s.reg rb.toNat = some y) :
    s.failure (op.instr rd ra rb) = none := by
  rw [failure_eq_none_iff]
  cases op <;>
    simp [BinOp.instr, Instr.wf, Instr.selOk, Instr.regsOk, Instr.regFields, RegNum.implemented, needsKey,
      needsEwin, sourceSet, hrd, hra, hrb, hx, hy]

/-- Settles O28: each of the four is the command of its operation, whose one request reads the two sources as
they stand at accept; the operation's law (R150) gives the value. -/
theorem binaryWordCommandsComplete : Obligations.BinaryWordCommandsComplete := by
  intro h ans s rd ra rb x y hb he hlanes hrd hra hrb hx hy c hc
  obtain ⟨op, rfl⟩ : ∃ op : BinOp, c = (op.instr rd ra rb, op, op.apply (h.dec x) (h.dec y)) := by
    simp only [List.mem_cons, List.not_mem_nil, or_false] at hc
    rcases hc with rfl | rfl | rfl | rfl
    exacts [⟨.add, rfl⟩, ⟨.xor, rfl⟩, ⟨.and, rfl⟩, ⟨.or, rfl⟩]
  have halu : isAluCommand (op.instr rd ra rb) = true := by cases op <;> rfl
  have hlines : linesOf (op.instr rd ra rb) = wordLine rd (.bin op ra.toNat rb.toNat) := by cases op <;> rfl
  have hstart : startRegs (op.instr rd ra rb) s.regs = s.regs := by cases op <;> rfl
  have hreg : ∀ n, (s.started (op.instr rd ra rb)).reg n = s.reg n := fun n => congrArg (readEw · n) hstart
  obtain ⟨t, f, hexec, hacc, hregs, hplay, hf, hlaw⟩ := wordCommand_completes h (ans := ans) hb he hlanes hrd
    (failure_binInstr op hrd hra hrb hx hy) halu hlines hstart
    (request_bin rfl ((hreg _).trans hx) ((hreg _).trans hy)) fun _ => rfl
  exact ⟨t, f, hexec, hacc, hregs, hplay, hf, fun hl => (hlaw hl).imp_right fun hvalue hxs hys =>
    hvalue (by simp [AluRequest.operands, hxs, hys])⟩

/-! ### ROTL and ROTR (R164, R165) -/

/-- `rotl32` of R11 is the rotation of bit vectors, amount 0 included. -/
theorem rotl32_eq_rotateLeft (x : Word) {n : Nat} (hn : n < 32) : rotl32 x n = x.rotateLeft n := by
  rw [BitVec.rotateLeft_eq_rotateLeftAux_of_lt hn]
  unfold rotl32 BitVec.rotateLeftAux
  split_ifs with h
  · subst h
    simp [BitVec.ushiftRight_eq_zero]
  · rfl

theorem rotr32_eq_rotateRight (x : Word) {n : Nat} (hn : n < 32) : rotr32 x n = x.rotateRight n := by
  rw [BitVec.rotateRight_eq_rotateRightAux_of_lt hn]
  unfold rotr32 BitVec.rotateRightAux
  by_cases h : n = 0
  · subst h
    simp [rotl32]
  · have hmod : (32 - n) % 32 = 32 - n := Nat.mod_eq_of_lt (by omega)
    have hback : 32 - (32 - n) = n := by omega
    rw [hmod, rotl32, if_neg (by omega), hback, BitVec.or_comm]

theorem failure_rotation {s : State} {i : Instr} {rd ra : RegNum} {sh : BitVec 5} {x : EW}
    (hi : i = .rotl rd ra sh ∨ i = .rotr rd ra sh) (hrd : rd.toNat < 48) (hra : ra.toNat < 48)
    (hx : s.reg ra.toNat = some x) : s.failure i = none := by
  rw [failure_eq_none_iff]
  rcases hi with rfl | rfl <;>
    simp [Instr.wf, Instr.selOk, Instr.regsOk, Instr.regFields, RegNum.implemented, needsKey, needsEwin,
      sourceSet, hrd, hra, hx]

/-- Settles O29: the law of each rotation (R151) gives `rotl32` or `rotr32`, which are the rotations. -/
theorem rotationsComplete : Obligations.RotationsComplete := by
  intro h ans s rd ra sh x hb he hlanes hrd hra hx c hc
  simp only [List.mem_cons, List.not_mem_nil, or_false] at hc
  rcases hc with rfl | rfl
  · obtain ⟨t, f, hexec, hacc, hregs, hplay, hf, hlaw⟩ := wordCommand_completes h (ans := ans) hb he hlanes hrd
      (failure_rotation (.inl rfl) hrd hra hx) rfl rfl rfl (request_rotl rfl hx) fun _ => rfl
    exact ⟨t, f, hexec, hacc, hregs, hplay, hf, fun hl => (hlaw hl).imp_right fun hvalue hxs =>
      (hvalue (by simpa [AluRequest.operands] using hxs)).trans (rotl32_eq_rotateLeft _ sh.isLt)⟩
  · obtain ⟨t, f, hexec, hacc, hregs, hplay, hf, hlaw⟩ := wordCommand_completes h (ans := ans) hb he hlanes hrd
      (failure_rotation (.inr rfl) hrd hra hx) rfl rfl rfl (request_rotr rfl hx) fun _ => rfl
    exact ⟨t, f, hexec, hacc, hregs, hplay, hf, fun hl => (hlaw hl).imp_right fun hvalue hxs =>
      (hvalue (by simpa [AluRequest.operands] using hxs)).trans (rotr32_eq_rotateRight _ sh.isLt)⟩

/-! ### ENC (R166) -/

/-- The selectors of R98 and the words they name. -/
theorem publicWord_eq_lookup (l : Latches) (sel : BitVec 4) :
    publicWord l sel = [(0, 0x61707865#32), (1, 0x3320646e#32), (2, 0x79622d32#32), (3, 0x6b206574#32),
      (4, l.counter), (5, l.nonce0), (6, l.nonce1), (7, l.nonce2), (8, l.data)].lookup sel.toNat := by
  unfold publicWord
  have hsel := sel.isLt
  interval_cases sel.toNat <;> rfl

/-- Selectors 9 to 15 name no word (R105). -/
theorem publicWord_of_reserved (l : Latches) {sel : BitVec 4} (h : 9 ≤ sel.toNat) :
    publicWord l sel = none := by
  unfold publicWord
  have hsel := sel.isLt
  interval_cases sel.toNat <;> rfl

theorem le_of_publicWord {l : Latches} {sel : BitVec 4} {v : Word} (h : publicWord l sel = some v) :
    sel.toNat ≤ 8 := by
  by_contra hsel
  cases (publicWord_of_reserved l (by omega)).symm.trans h

theorem failure_enc {s : State} {rd : RegNum} {sel : BitVec 4} (hrd : rd.toNat < 48) (hsel : sel.toNat ≤ 8) :
    s.failure (.enc rd sel) = none := by
  rw [failure_eq_none_iff]
  simp [Instr.wf, Instr.selOk, Instr.regsOk, Instr.regFields, RegNum.implemented, needsKey, needsEwin,
    sourceSet, hrd, hsel]

/-- Settles O30: the command's latches are the registers as they stand at accept, and the selected word is its
one request. -/
theorem encCompletes : Obligations.EncCompletes := by
  intro h ans s rd sel v hb he hlanes havail hrd hv
  have hword : publicWord s.sample sel = some v := (publicWord_eq_lookup s.sample sel).trans hv
  obtain ⟨t, f, hexec, hacc, hregs, hplay, hf, hlaw⟩ := wordCommand_completes h (ans := ans) hb he hlanes hrd
    (failure_enc hrd (le_of_publicWord hword)) rfl rfl rfl (request_enc rfl rfl hword) fun _ => havail
  exact ⟨t, f, hexec, hacc, hregs, hplay, hf, fun hl => (hlaw hl).imp_right fun hvalue =>
    hvalue (by simp [AluRequest.operands])⟩

/-! ### A request to encrypt that is still to succeed (R154) -/

/-- The line encrypts a public word (R166). -/
def LineOp.isEnc : LineOp → Bool
  | .enc _ => true
  | .bin _ _ _ | .rotl _ _ | .rotr _ _ => false

/-- The request is ENC. -/
def AluRequest.isEnc : AluRequest → Bool
  | .enc _ => true
  | .bin _ _ _ | .rotl _ _ | .rotr _ _ => false

theorem isEnc_request {s : State} {ln : Line} {req : AluRequest} (h : s.request ln = .ok req)
    (hop : ln.op.isEnc = true) : req.isEnc = true := by
  unfold State.request at h
  cases hln : ln.op with
  | enc sel =>
    rw [hln] at h
    cases hv : s.publicOperand sel <;> simp only [hv] at h <;> cases h
    rfl
  | bin | rotl | rotr => simp [hln, LineOp.isEnc] at hop

/-- The contract allows no `Ok` to ENC where it is unavailable (R154). -/
theorem permitted_ok_enc {p : Params} {req : AluRequest} (hp : p.encAvailable = false)
    (hreq : req.isEnc = true) (e : EW) : permitted p req (.ok e) = false := by
  cases req with
  | enc v => exact hp
  | bin | rotl | rotr => cases hreq

theorem eq_or_mem_eraseIdx {ls : List Line} {k : Nat} {ln l : Line} (hln : ls[k]? = some ln) (hl : l ∈ ls) :
    l = ln ∨ l ∈ ls.eraseIdx k := by
  obtain ⟨hsplit, herase⟩ := eraseIdx_of_getElem? hln
  rw [hsplit, List.mem_append, List.mem_cons] at hl
  rw [herase, List.mem_append]
  tauto

/-- ENC is unavailable, and a request to encrypt is still to be issued, or outstanding without an `Ok`. -/
def State.NeedsEnc (s : State) : Prop :=
  s.params.encAvailable = false ∧ ((∃ ln ∈ s.todo, ln.op.isEnc = true) ∨
    ∃ p ∈ s.pending, p.req.isEnc = true ∧ ∀ e, p.answer ≠ some (.ok e))

section
variable {s t : State}

theorem needsEnc_started {i : Instr} (hp : s.params.encAvailable = false)
    (hi : (∃ rd sel, i = .enc rd sel) ∨ i = .init ∨ i = .block) : (s.started i).NeedsEnc := by
  have hinit : initLine 0 0#4 ∈ initLines := List.mem_cons_self
  refine ⟨hp, .inl ?_⟩
  rcases hi with ⟨rd, sel, rfl⟩ | rfl | rfl
  · exact ⟨_, List.mem_cons_self, rfl⟩
  · exact ⟨_, hinit, rfl⟩
  · exact ⟨_, List.mem_append_left _ (List.mem_append_left _ hinit), rfl⟩

theorem State.NeedsEnc.left (h : s.NeedsEnc) : s.todo ≠ [] ∨ s.pending ≠ [] := by
  obtain ⟨_, ⟨ln, hln, _⟩ | ⟨p, hp, _⟩⟩ := h
  · exact .inl (List.ne_nil_of_mem hln)
  · exact .inr (List.ne_nil_of_mem hp)

theorem State.NeedsEnc.hostEffect (h : s.NeedsEnc) (ht : HostEffect s t) : t.NeedsEnc := by
  cases ht <;> exact h

theorem State.NeedsEnc.issued (h : s.NeedsEnc) {k : Nat} {ln : Line} {req : AluRequest}
    (hln : s.todo[k]? = some ln) (hreq : s.request ln = .ok req) : (s.issued k ln req).NeedsEnc := by
  obtain ⟨havail, ⟨l, hl, hop⟩ | ⟨p, hp, hwait⟩⟩ := h
  · rcases eq_or_mem_eraseIdx hln hl with rfl | hl
    · have hwait : ∀ e, (l.pend s.nextTag req).answer ≠ some (.ok e) := by simp
      exact ⟨havail, .inr ⟨_, mem_issued_pending.mpr (.inr rfl), isEnc_request hreq hop, hwait⟩⟩
    · exact ⟨havail, .inl ⟨l, hl, hop⟩⟩
  · exact ⟨havail, .inr ⟨p, mem_issued_pending.mpr (.inl hp), hwait⟩⟩

theorem State.NeedsEnc.issue (h : s.NeedsEnc) {k : Nat} (ht : s.issue k = .next t) : t.NeedsEnc := by
  rcases issue_cases k s with hx | ⟨ln, hln, _, _, _, _, ⟨req, hreq, hx⟩ | ⟨_, _, hx⟩⟩ <;>
    cases hx.symm.trans ht
  · exact h
  · exact h.issued hln hreq

theorem State.NeedsEnc.aluAnswer (h : s.NeedsEnc) (tag : Nat) (a : AluAnswer) :
    (s.aluAnswer tag a).NeedsEnc := by
  obtain ⟨havail, hline | ⟨p, hp, henc, hwait⟩⟩ := h
  · exact ⟨havail, .inl hline⟩
  · refine ⟨havail, .inr ⟨_, List.mem_map_of_mem hp, ?_⟩⟩
    split_ifs with hc
    · refine ⟨henc, fun e he => ?_⟩
      cases he
      simp [permitted_ok_enc havail henc] at hc
    · exact ⟨henc, hwait⟩

/-- The answer received is to another request. -/
theorem State.NeedsEnc.received (h : s.NeedsEnc) (hnodup : (s.pending.map Pending.tag).Nodup) {p : Pending}
    (hp : p ∈ s.pending) {e : EW} (ha : p.answer = some (.ok e)) : (s.received p e).NeedsEnc := by
  obtain ⟨havail, hline | ⟨q, hq, henc, hwait⟩⟩ := h
  · exact ⟨havail, .inl hline⟩
  · refine ⟨havail, .inr ⟨q, mem_received_pending.mpr ⟨hq, fun htag => ?_⟩, henc, hwait⟩⟩
    have hqp : q = p := List.inj_on_of_nodup_map hnodup hq hp htag
    exact hwait e (hqp ▸ ha)

end

/-! ### The host transactions that clear the error (R38) -/

/-- A write to STATUS with bit 2 set. -/
def HostTx.clearsError : HostTx → Bool
  | .regWrite _ off v => off == 0x08 && v.getLsbD 2
  | .regRead _ _ | .ewPut _ | .ewGet => false

/-- Such a write as an event; reset, which no play has, is not counted. -/
def Event.clearsError : Event → Bool
  | .host tx => tx.clearsError
  | .issue _ | .alu _ _ | .receive _ | .reset => false

theorem hostStep_err {tx : HostTx} {s t : State} (hsub : tx.submits = false) (hclear : tx.clearsError = false)
    (ht : s.hostStep tx = .next t) : t.err = s.err ∧ t.errCode = s.errCode := by
  cases tx with
  | regRead width off =>
    simp only [State.hostStep] at ht
    split_ifs at ht
    · split at ht <;> cases ht <;> exact ⟨rfl, rfl⟩
    · cases ht
      exact ⟨rfl, rfl⟩
  | regWrite width off v =>
    simp only [State.hostStep, State.writeRegister] at ht
    split_ifs at ht with hok
    · simp only [accessOk, Bool.and_eq_true, beq_iff_eq] at hok
      obtain ⟨rfl, _⟩ := hok
      split at ht
      · rename_i r hr
        split at hr <;> cases hr
        case h_3 =>
          cases ht
          have hbit : v.getLsbD 2 = false := hclear
          simp only [State.writeStatus_err, State.writeStatus_errCode, hbit, Bool.false_eq_true, if_false]
          exact ⟨rfl, rfl⟩
        case h_4 => cases hsub
        all_goals
          cases ht
          exact ⟨rfl, rfl⟩
      · cases ht
        exact ⟨rfl, rfl⟩
    · cases ht
      exact ⟨rfl, rfl⟩
  | ewPut e =>
    cases ht
    exact ⟨rfl, rfl⟩
  | ewGet =>
    simp only [State.hostStep] at ht
    split at ht <;> cases ht <;> exact ⟨rfl, rfl⟩

/-- While idle no event of a play but the host's clears the error. -/
theorem event_err_of_idle {ev : Event} {s t : State} (hb : s.busy = false) (hp : s.pending = [])
    (hsub : ev.submitsNothing = true) (hclear : ev.clearsError = false) (ht : State.event ev s = .next t) :
    t.err = s.err ∧ t.errCode = s.errCode := by
  cases ev with
  | host tx => exact hostStep_err (by simpa [Event.submitsNothing] using hsub) hclear ht
  | issue k =>
    rcases issue_cases k s with hx | ⟨_, _, hbusy, _⟩
    · cases hx.symm.trans ht
      exact ⟨rfl, rfl⟩
    · cases hbusy.symm.trans hb
  | alu tag a =>
    cases ht
    exact ⟨rfl, rfl⟩
  | receive tag =>
    cases ht
    rw [receive_of_pending_nil hp]
    exact ⟨rfl, rfl⟩
  | reset => cases hsub

theorem Move.event_clearsError {alu : Alu} {m : Move} {s : State} {ev : Event}
    (h : m.event alu s = some ev) (hm : ∀ tx, m = .host tx → tx.clearsError = false) :
    ev.clearsError = false := by
  cases m with
  | host tx =>
    cases h
    exact hm tx rfl
  | issue k =>
    cases h
    rfl
  | answer j | receive j =>
    obtain ⟨p, _, rfl⟩ := Option.map_eq_some_iff.mp h
    rfl

theorem clearsError_of_noErrorClear {ms : List Move} (h : noErrorClear ms) {tx : HostTx}
    (htx : .host tx ∈ ms) : tx.clearsError = false := by
  cases tx with
  | regWrite width off v =>
    refine Bool.eq_false_iff.mpr fun hclear => ?_
    simp only [HostTx.clearsError, Bool.and_eq_true, beq_iff_eq] at hclear
    obtain ⟨hoff, hbit⟩ := hclear
    cases hbit.symm.trans (h width off v htx hoff)
  | regRead | ewPut | ewGet => rfl

/-! ### A command that needs ENC fails (R154) -/

/-- What every event of a play keeps, and the schedule does not touch, holds at its end: `play_keeps` for
events of any kind `ok`. -/
theorem play_keeps_of {P : State → Prop} {ok : Event → Prop} (henv : ∀ s es, P s → P { s with env := es })
    (hev : ∀ ev s t, ok ev → P s → State.event ev s = .next t → P t) {alu : Alu} {ms : List Move} {s u : State}
    (hms : ∀ m ∈ ms, ∀ (v : State) (ev : Event), m.event alu v = some ev → ok ev) (hs : P s)
    (h : play alu ms s = .next u) : P u := by
  induction ms generalizing s with
  | nil =>
    cases h
    exact hs
  | cons m ms ih =>
    have hrest : ∀ m' ∈ ms, ∀ (v : State) (ev : Event), m'.event alu v = some ev → ok ev := fun m' hm' =>
      hms m' (List.mem_cons_of_mem _ hm')
    rcases play_cons h with h | ⟨ev, t, hm, ht, h⟩
    · exact ih hrest hs h
    · exact ih hrest (hev ev _ t (hms m List.mem_cons_self s ev hm) (henv s [] hs) ht) h

/-- Command `i` has failed in the ALU: no register of its destination set holds a value, and the error stands
as long as the host leaves it, which it does where `c` holds. -/
structure FailedInAlu (i : Instr) (c : Prop) (s : State) : Prop where
  idle : s.busy = false
  pending : s.pending = []
  dests : ∀ n ∈ destSet i, s.reg n = none
  error : c → s.err = true ∧ s.errCode = .aluError

section
variable {i : Instr} {f : EwFile} {c : Prop} {s t : State}

theorem FailedInAlu.withEnv (h : FailedInAlu i c s) (es : List Event) : FailedInAlu i c { s with env := es } :=
  ⟨h.idle, h.pending, h.dests, h.error⟩

theorem InProgress.failedInAlu (h : InProgress i f s) (r : AluReason) : FailedInAlu i c (s.failAlu r) := by
  refine ⟨rfl, rfl, fun n hn => ?_, fun _ => ⟨rfl, rfl⟩⟩
  rw [State.reg_eq, State.failAlu_regs, h.dests, readEw_writeEws]
  split_ifs with hc
  · rfl
  · exact readEw_of_ge (Nat.le_of_not_lt fun hlt => hc ⟨hn, hlt⟩)

/-- While ENC is unavailable a receipt leaves a command that needs it in progress, or fails it. -/
theorem InProgress.receive_of_needsEnc (h : InProgress i f s) (henc : s.NeedsEnc) (tag : Nat) :
    (InProgress i f (s.receive tag) ∧ (s.receive tag).NeedsEnc) ∨ FailedInAlu i c (s.receive tag) := by
  have hkeep := h.receive tag
  rcases receive_cases tag s with hx | ⟨p, _, hp, _, ⟨r, _, hx⟩ | ⟨e, ha, hx⟩⟩ <;> rw [hx] at hkeep ⊢
  · exact .inl ⟨h, henc⟩
  · exact .inr (h.failedInAlu r)
  · obtain ⟨_, hnodup, _⟩ := h.seq
    have hleft := henc.received hnodup hp ha
    rcases completeIfEnded_cases (s.received p e) with ⟨_, hy⟩ | ⟨htodo, hpend, _⟩
    · rw [hy] at hkeep ⊢
      have hbusy : ¬ IsOver i f (s.received p e) := fun hover => by cases h.busy.symm.trans hover.idle
      exact .inl ⟨hkeep.resolve_right hbusy, hleft⟩
    · exact absurd hpend (hleft.left.resolve_left (not_not_intro htodo))

/-- No event of a play takes a command that needs ENC to another end than failure. -/
theorem InProgress.event_of_needsEnc (h : InProgress i f s) (henc : s.NeedsEnc) {ev : Event}
    (hev : ev.submitsNothing = true) (ht : State.event ev s = .next t) :
    (InProgress i f t ∧ t.NeedsEnc) ∨ FailedInAlu i c t := by
  cases ev with
  | host tx =>
    rcases hostStep_cases tx s with ⟨v, rfl, _⟩ | ⟨u, hu, hx⟩
    · cases hev
    · cases hx.symm.trans ht
      exact .inl ⟨h.hostEffect hu, henc.hostEffect hu⟩
  | issue k => exact .inl ⟨h.issue ht, henc.issue ht⟩
  | alu tag a => cases ht; exact .inl ⟨h.aluAnswer tag a, henc.aluAnswer tag a⟩
  | receive tag => cases ht; exact h.receive_of_needsEnc henc tag
  | reset => cases hev

/-- After the failure nothing but a submission or reset gives a register a value, and only the host clears the
error. -/
theorem FailedInAlu.event (h : FailedInAlu i c s) {ev : Event} (hev : ev.submitsNothing = true)
    (hclear : c → ev.clearsError = false) (ht : State.event ev s = .next t) : FailedInAlu i c t := by
  -- NOP's destination set is empty, so what is over keeps every register.
  have hover : IsOver .nop s.regs s := ⟨h.idle, h.pending, fun _ _ => rfl, .inl (by simp [destSet])⟩
  have hover' := hover.event hev ht
  refine ⟨hover'.idle, hover'.pending, fun n hn => ?_, fun hc => ?_⟩
  · exact (hover'.frame n List.not_mem_nil).trans (h.dests n hn)
  · obtain ⟨herr, hcode⟩ := event_err_of_idle h.idle h.pending hev (hclear hc) ht
    obtain ⟨herr', hcode'⟩ := h.error hc
    exact ⟨herr.trans herr', hcode.trans hcode'⟩

end

/-- Settles O31: as long as the command is in progress a request to encrypt is left of it, which no `Ok`
answers, so that it can only fail; and only the host clears the failure's error. -/
theorem encUnavailableNeverSucceeds : Obligations.EncUnavailableNeverSucceeds := by
  intro alu ms s t u i hb he havail hi hx ht hms hplay
  obtain ⟨hf, halu, rfl⟩ := started_of_exec_busy hb he hx ht
  have hok : ∀ m ∈ ms, ∀ (v : State) (ev : Event), m.event alu v = some ev →
      ev.submitsNothing = true ∧ (noErrorClear ms → ev.clearsError = false) := fun m hm _ _ hev =>
    ⟨Move.event_submitsNothing hev fun tx htx => hms tx (htx ▸ hm),
     fun hclear => Move.event_clearsError hev fun tx htx => clearsError_of_noErrorClear hclear (htx ▸ hm)⟩
  have hkeeps := play_keeps_of
    (P := fun v => (InProgress i s.regs v ∧ v.NeedsEnc) ∨ FailedInAlu i (noErrorClear ms) v)
    (fun _ es h => h.imp (fun ⟨hrun, henc⟩ => ⟨hrun.withEnv es, henc⟩) (·.withEnv es))
    (fun _ _ _ ⟨hsub, hclear⟩ h hnext => h.elim (fun ⟨hrun, henc⟩ => hrun.event_of_needsEnc henc hsub hnext)
      fun hfail => .inr (hfail.event hsub hclear hnext))
    hok (.inl ⟨inProgress_started hf halu, needsEnc_started havail hi⟩) hplay
  rcases hkeeps with ⟨hrun, _⟩ | hfail
  · exact .inl hrun.busy
  · exact .inr ⟨hfail.dests, hfail.error⟩

end Sys2Proof.Machine

/-! The round operations' statements (spec 43_round_ops.md): the round commands in canonical order (R210 to R216,
R220), their requests by kind (R219), and BLOCK, and SNAP then MIX, under every order of steps (R217, R218, R221,
R223). The lines of a command are run on cleartext words (`plainRun`); whatever order the block takes, what the
registers hold and what is awaited decrypts to a point of that run (`Tracks`). -/

namespace Sys2Proof.Machine

/-! ### The pseudocode on cleartext words -/

/-- What each register decrypts to, as far as it is known. -/
abbrev Plain := Nat → Option Word

/-- The cleartext result of a line, known where what it reads is. -/
def Line.plainValue (l : Latches) (ln : Line) (V : Plain) : Option Word :=
  match ln.op with
  | .bin op a b => (V a).bind fun x => (V b).map (op.apply x)
  | .rotl a n => (V a).map (rotl32 · n.toNat)
  | .rotr a n => (V a).map (rotr32 · n.toNat)
  | .enc sel => publicWord l sel

/-- One line on cleartext words. -/
def plainStep (l : Latches) (V : Plain) (ln : Line) : Plain :=
  fun n => if n ∈ ln.dsts then ln.plainValue l V else V n

/-- Lines on cleartext words, in canonical order (R220). -/
def plainRun (l : Latches) (lines : List Line) (V : Plain) : Plain := lines.foldl (plainStep l) V

section
variable {l : Latches} {V W : Plain} {ln b : Line}

@[simp] theorem plainRun_nil : plainRun l [] V = V := rfl

@[simp] theorem plainRun_cons (rest : List Line) :
    plainRun l (ln :: rest) V = plainRun l rest (plainStep l V ln) := rfl

theorem plainRun_append (as bs : List Line) : plainRun l (as ++ bs) V = plainRun l bs (plainRun l as V) :=
  List.foldl_append

theorem plainStep_of_notMem {n : Nat} (h : n ∉ ln.dsts) : plainStep l V ln n = V n := if_neg h

theorem plainStep_of_mem {n : Nat} (h : n ∈ ln.dsts) : plainStep l V ln n = ln.plainValue l V := if_pos h

/-- Only the destinations of lines change. -/
theorem plainRun_of_notMem {lines : List Line} {n : Nat} (h : ∀ ln ∈ lines, n ∉ ln.dsts) :
    plainRun l lines V n = V n := by
  induction lines generalizing V with
  | nil => rfl
  | cons ln rest ih =>
    rw [plainRun_cons, ih fun b hb => h b (List.mem_cons_of_mem _ hb),
      plainStep_of_notMem (h ln List.mem_cons_self)]

/-- A line looks at the registers it reads only. -/
theorem plainValue_congr (h : ∀ n ∈ ln.srcs, V n = W n) : ln.plainValue l V = ln.plainValue l W := by
  unfold Line.srcs at h
  unfold Line.plainValue
  cases hop : ln.op with
  | bin op x y => simp only [h x (by simp [hop]), h y (by simp [hop])]
  | rotl x n | rotr x n => simp only [h x (by simp [hop])]
  | enc sel => rfl

/-- The stage of a line, which only bounds overlap, has no part in its value. -/
theorem plainRun_withStage (stage : Option Nat) (lines : List Line) :
    plainRun l (lines.map fun ln => { ln with stage := stage }) V = plainRun l lines V :=
  List.foldl_map

/-- Two lines of which neither writes what the other reads or writes may be exchanged. -/
theorem plainStep_comm (hsrcs : ∀ x ∈ b.dsts, x ∉ ln.srcs) (hdsts : ∀ x ∈ b.dsts, x ∉ ln.dsts)
    (hreads : ∀ x ∈ b.srcs, x ∉ ln.dsts) :
    plainStep l (plainStep l V b) ln = plainStep l (plainStep l V ln) b := by
  have hln : ln.plainValue l (plainStep l V b) = ln.plainValue l V :=
    plainValue_congr fun n hn => plainStep_of_notMem fun hc => hsrcs n hc hn
  have hb : b.plainValue l (plainStep l V ln) = b.plainValue l V :=
    plainValue_congr fun n hn => plainStep_of_notMem (hreads n hn)
  funext n
  simp only [plainStep, hln, hb]
  split_ifs with h1 h2
  · exact absurd h1 (hdsts n h2)
  all_goals rfl

/-- A line independent of those before it may be run first (R221). -/
theorem plainRun_first {before after : List Line} (h : ∀ b ∈ before, (∀ x ∈ b.dsts, x ∉ ln.srcs) ∧
    (∀ x ∈ b.dsts, x ∉ ln.dsts) ∧ ∀ x ∈ b.srcs, x ∉ ln.dsts) :
    plainRun l (before ++ ln :: after) V = plainRun l (before ++ after) (plainStep l V ln) := by
  induction before generalizing V with
  | nil => rfl
  | cons b before ih =>
    obtain ⟨hsrcs, hdsts, hreads⟩ := h b List.mem_cons_self
    rw [List.cons_append, plainRun_cons, ih fun c hc => h c (List.mem_cons_of_mem _ hc),
      plainStep_comm hsrcs hdsts hreads, List.cons_append, plainRun_cons]

end

/-! ### The round commands' lines compute the reference cipher (42_reference_cipher.md) -/

/-- S, and I, decrypt to the words of a block. -/
def Plain.IsS (V : Plain) (x : Block) : Prop := ∀ j < 16, V j = x[j]?
def Plain.IsI (V : Plain) (x : Block) : Prop := ∀ j < 16, V (16 + j) = x[j]?

theorem getElem?_eq_word (x : Block) {j : Nat} (hj : j < 16) : x[j]? = some (x.word j) := by
  simp [Block.word, hj]

section
variable {l : Latches} {V : Plain} {x : Block} {ln : Line}

theorem Plain.IsS.word (h : V.IsS x) {j : Nat} (hj : j < 16) : V j = some (x.word j) :=
  (h j hj).trans (getElem?_eq_word x hj)

/-- A line that writes one word of S. -/
theorem Plain.IsS.step (h : V.IsS x) {a : Nat} {v : Word} (hdsts : ln.dsts = [sReg a])
    (hv : ln.plainValue l V = some v) : (plainStep l V ln).IsS (x.put a v) := by
  intro j hj
  simp only [plainStep, hdsts, sReg, List.mem_singleton, hv, Block.put, Vector.getElem?_setIfInBounds]
  by_cases hja : j = a
  · subst hja
    simp [hj]
  · rw [if_neg hja, if_neg (Ne.symm hja)]
    exact h j hj

/-- The three kinds of lines of a quarter-round (R210). -/
theorem Plain.IsS.bin (h : V.IsS x) (op : BinOp) {a b : Nat} (ha : a < 16) (hb : b < 16) :
    (plainStep l V { dsts := [sReg a], op := .bin op (sReg a) (sReg b) }).IsS
      (x.put a (op.apply (x.word a) (x.word b))) :=
  h.step rfl (by simp only [Line.plainValue, sReg, h.word ha, h.word hb]; rfl)

theorem Plain.IsS.rotl (h : V.IsS x) (n : BitVec 5) {a : Nat} (ha : a < 16) :
    (plainStep l V { dsts := [sReg a], op := .rotl (sReg a) n }).IsS
      (x.put a (rotl32 (x.word a) n.toNat)) :=
  h.step rfl (by simp only [Line.plainValue, sReg, h.word ha]; rfl)

theorem isS_quarterLines (h : V.IsS x) {a b d : Nat} (n : BitVec 5) (ha : a < 16) (hb : b < 16)
    (hd : d < 16) : (plainRun l (quarterLines a b d n) V).IsS (x.halfStep a b d n.toNat) :=
  ((h.bin .add ha hb).bin .xor hd ha).rotl n hd

/-- QR-body computes `qr` for any four indices (R183, R210). -/
theorem isS_qrLines (h : V.IsS x) {a b c d : Nat} (ha : a < 16) (hb : b < 16) (hc : c < 16)
    (hd : d < 16) : (plainRun l (qrLines a b c d) V).IsS (x.qr a b c d) := by
  simp only [qrLines, plainRun_append]
  exact isS_quarterLines (isS_quarterLines (isS_quarterLines (isS_quarterLines h 16#5 ha hb hd) 12#5 hc hd hb)
    8#5 ha hb hd) 7#5 hc hd hb

/-- Quarter-rounds one after another, in one half of a double round. -/
theorem isS_halfLines (h : V.IsS x) (stage : Nat) {quads : List (Nat × Nat × Nat × Nat)}
    (hq : ∀ q ∈ quads, q.1 < 16 ∧ q.2.1 < 16 ∧ q.2.2.1 < 16 ∧ q.2.2.2 < 16) :
    (plainRun l (halfLines stage quads) V).IsS (quads.foldl (fun y (a, b, c, d) => y.qr a b c d) x) := by
  induction quads generalizing V x with
  | nil => exact h
  | cons q quads ih =>
    obtain ⟨ha, hb, hc, hd⟩ := hq q List.mem_cons_self
    rw [halfLines, List.flatMap_cons, plainRun_append, plainRun_withStage, List.foldl_cons]
    exact ih (isS_qrLines h ha hb hc hd) fun q hm => hq q (List.mem_cons_of_mem _ hm)

/-- DROUND-body computes `dround` (R186, R211), whichever double round of its command it is. -/
theorem isS_droundLines (h : V.IsS x) (r : Nat) : (plainRun l (droundLines r) V).IsS x.dround := by
  rw [droundLines, plainRun_append, Block.dround, List.foldl_append]
  exact isS_halfLines (isS_halfLines h (2 * r) (by decide)) (2 * r + 1) (by decide)

/-- Double rounds one after another. -/
theorem isS_droundsLines (h : V.IsS x) (rs : List Nat) :
    (plainRun l (rs.flatMap droundLines) V).IsS (x.drounds rs.length) := by
  induction rs generalizing V x with
  | nil => exact h
  | cons r rs ih =>
    rw [List.flatMap_cons, plainRun_append]
    exact ih (isS_droundLines h r)

theorem isS_roundsLines (h : V.IsS x) : (plainRun l roundsLines V).IsS (x.drounds 10) :=
  isS_droundsLines h (List.range 10)

/-- The double rounds leave I as it is. -/
theorem isI_roundsLines {y : Block} (h : V.IsI y) : (plainRun l roundsLines V).IsI y := by
  intro j hj
  rw [plainRun_of_notMem, h j hj]
  intro ln hln hc
  obtain ⟨r, _, hr⟩ := mem_roundsLines.mp hln
  obtain ⟨_, _, hdsts, _⟩ := droundLines_spec hr
  have := hdsts _ hc
  omega

/-- The first `k` lines of FF-body add I to the first `k` words of S. -/
theorem plainRun_ffLines_take {k : Nat} (hk : k ≤ 16) (n : Nat) :
    plainRun l ((List.range k).map fun i => { dsts := [sReg i], op := .bin .add (sReg i) (iReg i) }) V n =
      if n < k then (V n).bind fun a => (V (16 + n)).map (a + ·) else V n := by
  induction k generalizing n with
  | zero => rfl
  | succ k ih =>
    have ih := ih (by omega)
    rw [List.range_succ, List.map_append, plainRun_append, List.map_singleton, plainRun_cons, plainRun_nil]
    by_cases hn : n = k
    · subst hn
      rw [plainStep_of_mem (List.mem_singleton_self _), if_pos (Nat.lt_succ_self n)]
      simp only [Line.plainValue, sReg, iReg] at ih ⊢
      rw [ih n, ih (16 + n), if_neg (Nat.lt_irrefl n), if_neg (by omega)]
      rfl
    · rw [plainStep_of_notMem (by simpa [sReg] using hn), ih n]
      simp only [show n < k + 1 ↔ n < k by omega]

/-- FF-body computes the feed-forward (R187, R212). -/
theorem isS_ffLines (h : V.IsS x) {y : Block} (hI : V.IsI y) :
    (plainRun l ffLines V).IsS (x.feedForward y) := by
  intro j hj
  have hx : V j = some x[j] := by simp [h j hj, hj]
  have hy : V (16 + j) = some y[j] := by simp [hI j hj, hj]
  rw [ffLines, plainRun_ffLines_take le_rfl, if_pos hj, hx, hy]
  simp [Block.feedForward, hj]

theorem isI_ffLines {y : Block} (h : V.IsI y) : (plainRun l ffLines V).IsI y := by
  intro j hj
  rw [ffLines, plainRun_ffLines_take le_rfl, if_neg (by omega), h j hj]

/-- Ten double rounds and the feed-forward (R215, R216). -/
theorem isS_mixLines (h : V.IsS x) {y : Block} (hI : V.IsI y) :
    (plainRun l (roundsLines ++ ffLines) V).IsS ((x.drounds 10).feedForward y) := by
  rw [plainRun_append]
  exact isS_ffLines (isS_roundsLines h) (isI_roundsLines hI)

theorem isI_mixLines {y : Block} (hI : V.IsI y) :
    (plainRun l (roundsLines ++ ffLines) V).IsI y := by
  rw [plainRun_append]
  exact isI_ffLines (isI_roundsLines hI)

/-- What INIT and BLOCK start their requests from: the key words in S4..S11 and I4..I11 (R213). -/
def plainKeys (k : Vector Word 8) : Plain := fun n =>
  if 4 ≤ n ∧ n < 12 then k[n - 4]? else if 20 ≤ n ∧ n < 28 then k[n - 20]? else none

/-- INIT-body computes `init` in S and in I (R182, R213). -/
theorem plainRun_initLines (l : Latches) (k : Vector Word 8) :
    (plainRun l initLines (plainKeys k)).IsS (initBlock k l.counter #v[l.nonce0, l.nonce1, l.nonce2]) ∧
      (plainRun l initLines (plainKeys k)).IsI (initBlock k l.counter #v[l.nonce0, l.nonce1, l.nonce2]) := by
  constructor <;>
  · intro j hj
    interval_cases j <;> rfl

end

/-! ### The request of a line and what its answer decrypts to -/

theorem exists_of_bind_eq_ok {α β : Type} {x : Except Fault α} {f : α → Except Fault β} {r : β}
    (h : (x >>= f) = .ok r) : ∃ a, x = .ok a ∧ f a = .ok r := by
  cases x with
  | error e => cases h
  | ok a => exact ⟨a, rfl, h⟩

theorem reg_of_operand {s : State} {n : Nat} {e : EW} (h : s.operand n = .ok e) : s.reg n = some e := by
  cases hn : s.reg n with
  | none => simp [State.operand, hn] at h
  | some x => exact congrArg some (Except.ok.inj ((operand_of_reg hn).symm.trans h))

/-- What the request of a line is, by the kind of line: the converse of `request_bin` to `request_enc`. -/
theorem request_cases {s : State} {ln : Line} {req : AluRequest} (h : s.request ln = .ok req) :
    (∃ op a b x y, ln.op = .bin op a b ∧ s.reg a = some x ∧ s.reg b = some y ∧ req = .bin op x y) ∨
    (∃ a n x, ln.op = .rotl a n ∧ s.reg a = some x ∧ req = .rotl x n) ∨
    (∃ a n x, ln.op = .rotr a n ∧ s.reg a = some x ∧ req = .rotr x n) ∨
    (∃ sel l v, ln.op = .enc sel ∧ s.latch = some l ∧ publicWord l sel = some v ∧ req = .enc v) := by
  unfold State.request at h
  cases hop : ln.op with
  | bin op a b =>
    rw [hop] at h
    obtain ⟨x, hx, h⟩ := exists_of_bind_eq_ok h
    obtain ⟨y, hy, h⟩ := exists_of_bind_eq_ok h
    cases h
    exact .inl ⟨op, a, b, x, y, rfl, reg_of_operand hx, reg_of_operand hy, rfl⟩
  | rotl a n =>
    rw [hop] at h
    obtain ⟨x, hx, h⟩ := exists_of_bind_eq_ok h
    cases h
    exact .inr (.inl ⟨a, n, x, rfl, reg_of_operand hx, rfl⟩)
  | rotr a n =>
    rw [hop] at h
    obtain ⟨x, hx, h⟩ := exists_of_bind_eq_ok h
    cases h
    exact .inr (.inr (.inl ⟨a, n, x, rfl, reg_of_operand hx, rfl⟩))
  | enc sel =>
    rw [hop] at h
    obtain ⟨v, hv, h⟩ := exists_of_bind_eq_ok h
    cases h
    cases hw : s.latch.bind (publicWord · sel) with
    | none => simp [State.publicOperand, hw] at hv
    | some w =>
      obtain ⟨l, hl, hpub⟩ := Option.bind_eq_some_iff.mp hw
      simp only [State.publicOperand, hw, Except.ok.injEq] at hv
      exact .inr (.inr (.inr ⟨sel, l, w, rfl, hl, hpub, by rw [hv]⟩))

/-- A session ciphertext of a word. -/
def Scheme.Encrypts (h : Scheme) (e : EW) (w : Word) : Prop := h.session e ∧ h.dec e = w

/-- The register file holds session ciphertexts of all that `V` knows. -/
def Scheme.Shows (h : Scheme) (f : EwFile) (V : Plain) : Prop :=
  ∀ n w, V n = some w → ∃ e, readEw f n = some e ∧ h.Encrypts e w

/-- By the ALU's laws the answer to the request `p` decrypts to `w`, and an answer given does. -/
structure Pending.Yields (h : Scheme) (p : Pending) (w : Word) : Prop where
  operands : ∀ x ∈ p.req.operands, h.session x
  value : p.req.value h.dec = w
  answer : ∀ e, p.answer = some (.ok e) → h.Encrypts e w

/-- The request of a line whose sources hold what `V` knows of them asks for the line's cleartext value. -/
theorem request_value {h : Scheme} {l : Latches} {V : Plain} {s : State} {ln : Line} {req : AluRequest} {w : Word}
    (hreq : s.request ln = .ok req) (hl : s.latch = some l)
    (hheld : ∀ n ∈ ln.srcs, ∀ v, V n = some v → ∃ e, s.reg n = some e ∧ h.Encrypts e v)
    (hw : ln.plainValue l V = some w) : (∀ x ∈ req.operands, h.session x) ∧ req.value h.dec = w := by
  have held : ∀ {n x v}, n ∈ ln.srcs → s.reg n = some x → V n = some v → h.Encrypts x v := by
    intro n x v hn hx hv
    obtain ⟨e, he, henc⟩ := hheld n hn v hv
    cases he.symm.trans hx
    exact henc
  unfold Line.plainValue at hw
  rcases request_cases hreq with ⟨op, a, b, x, y, hop, hx, hy, rfl⟩ | ⟨a, n, x, hop, hx, rfl⟩ |
    ⟨a, n, x, hop, hx, rfl⟩ | ⟨sel, l', v, hop, hl', hv, rfl⟩ <;> simp only [hop] at hw
  · obtain ⟨u, hu, v, hv, rfl⟩ : ∃ u, V a = some u ∧ ∃ v, V b = some v ∧ op.apply u v = w := by
      simpa [Option.bind_eq_some_iff] using hw
    obtain ⟨hsx, rfl⟩ := held (by simp [Line.srcs, hop]) hx hu
    obtain ⟨hsy, rfl⟩ := held (by simp [Line.srcs, hop]) hy hv
    exact ⟨by simp [AluRequest.operands, hsx, hsy], rfl⟩
  · obtain ⟨u, hu, rfl⟩ := Option.map_eq_some_iff.mp hw
    obtain ⟨hsx, rfl⟩ := held (by simp [Line.srcs, hop]) hx hu
    exact ⟨by simp [AluRequest.operands, hsx], rfl⟩
  · obtain ⟨u, hu, rfl⟩ := Option.map_eq_some_iff.mp hw
    obtain ⟨hsx, rfl⟩ := held (by simp [Line.srcs, hop]) hx hu
    exact ⟨by simp [AluRequest.operands, hsx], rfl⟩
  · cases hl.symm.trans hl'
    cases hv.symm.trans hw
    exact ⟨by simp [AluRequest.operands], rfl⟩

/-! ### A command in progress tracks its pseudocode on cleartext words, in every order of steps -/

/-- A point of the pseudocode that ends in `F`: were every outstanding request answered, the registers would
decrypt to `V`, and the lines not yet issued, run in canonical order from `V`, give `F`. -/
structure Tracks (h : Scheme) (l : Latches) (F V : Plain) (s : State) : Prop where
  latch : s.latch = some l
  ends : plainRun l s.todo V = F
  awaited : ∀ n w, V n = some w → ∀ p ∈ s.pending, n ∈ p.dsts → p.Yields h w
  held : ∀ n w, V n = some w → (∀ p ∈ s.pending, n ∉ p.dsts) → ∃ e, s.reg n = some e ∧ h.Encrypts e w

section
variable {h : Scheme} {l : Latches} {F V : Plain} {s t : State}

theorem Tracks.withEnv (ht : Tracks h l F V s) (es : List Event) : Tracks h l F V { s with env := es } :=
  ⟨ht.latch, ht.ends, ht.awaited, ht.held⟩

theorem tracks_started {i : Instr} (hV : h.Shows (startRegs i s.regs) V) :
    Tracks h s.sample (plainRun s.sample (linesOf i) V) V (s.started i) :=
  ⟨rfl, rfl, fun _ _ _ _ hp => absurd hp List.not_mem_nil, fun n w hw _ => hV n w hw⟩

theorem Tracks.hostEffect (ht : Tracks h l F V s) (hs : HostEffect s t) : Tracks h l F V t := by
  cases hs <;> exact ⟨ht.latch, ht.ends, ht.awaited, ht.held⟩

/-- An issue takes one line out of the rest of the pseudocode, which may be run first by its independence; what
it reads is awaited by no request. -/
theorem Tracks.issued (ht : Tracks h l F V s) {k : Nat} {ln : Line} {req : AluRequest}
    (hln : s.todo[k]? = some ln) (hi : independent ln (s.todo.take k) s.pending = true)
    (hreq : s.request ln = .ok req) : Tracks h l F (plainStep l V ln) (s.issued k ln req) := by
  obtain ⟨hbefore, hpend⟩ := (independent_iff ..).mp hi
  obtain ⟨hsplit, herase⟩ := eraseIdx_of_getElem? hln
  have hsrcs : ∀ n ∈ ln.srcs, ∀ v, V n = some v → ∃ e, s.reg n = some e ∧ h.Encrypts e v := by
    refine fun n hn v hv => ht.held n v hv fun p hp hc => ?_
    obtain ⟨hfinal, _⟩ := hpend p hp
    exact hfinal n hc hn
  refine ⟨ht.latch, ?_, fun n w hw p hp hn => ?_, fun n w hw hnone => ?_⟩
  · have hfirst : plainRun l s.todo V = plainRun l (s.todo.take k ++ s.todo.drop (k + 1)) (plainStep l V ln) := by
      conv_lhs => rw [hsplit]
      refine plainRun_first fun b hb => ?_
      obtain ⟨h1, h2, h3, _⟩ := hbefore b hb
      exact ⟨h1, h2, h3⟩
    rw [← herase] at hfirst
    exact hfirst.symm.trans ht.ends
  · rcases mem_issued_pending.mp hp with hp | rfl
    · obtain ⟨_, hfree, _⟩ := hpend p hp
      rw [plainStep_of_notMem (hfree n hn)] at hw
      exact ht.awaited n w hw p hp hn
    · rw [plainStep_of_mem hn] at hw
      obtain ⟨hops, hval⟩ := request_value hreq ht.latch hsrcs hw
      exact ⟨hops, hval, by simp⟩
  · have hnln : n ∉ ln.dsts := hnone _ (mem_issued_pending.mpr (.inr rfl))
    rw [plainStep_of_notMem hnln] at hw
    exact ht.held n w hw fun p hp => hnone p (mem_issued_pending.mpr (.inl hp))

/-- An answer a lawful ALU gives to an outstanding request is what the request yields (R150 to R152, R157). -/
theorem Tracks.aluAnswer {alu : Alu} (hlaw : LawfulAlu h alu) (ht : Tracks h l F V s)
    (hnodup : (s.pending.map Pending.tag).Nodup) {p : Pending} (hp : p ∈ s.pending) :
    Tracks h l F V (s.aluAnswer p.tag (alu p.tag p.req)) := by
  refine ⟨ht.latch, ht.ends, fun n w hw q hq hn => ?_, fun n w hw hnone => ?_⟩
  · obtain ⟨q, hmem, rfl⟩ := List.mem_map.mp hq
    split_ifs at hn ⊢ with hc
    · simp only [Bool.and_eq_true, beq_iff_eq] at hc
      obtain ⟨⟨htag, _⟩, _⟩ := hc
      obtain rfl : q = p := List.inj_on_of_nodup_map hnodup hmem hp htag
      obtain ⟨hops, hval, _⟩ := ht.awaited n w hw q hmem hn
      refine ⟨hops, hval, fun e he => ?_⟩
      obtain ⟨hs, hdec⟩ := hlaw q.tag q.req e (Option.some.inj he)
      exact ⟨hs, (hdec hops).trans hval⟩
    · exact ht.awaited n w hw q hmem hn
  · refine ht.held n w hw fun q hq hn => hnone _ (List.mem_map_of_mem hq) ?_
    split_ifs <;> exact hn

/-- What is received goes to the registers that awaited it. -/
theorem Tracks.received (ht : Tracks h l F V s) (hnodup : (s.pending.map Pending.tag).Nodup) {p : Pending}
    (hp : p ∈ s.pending) (hlt : ∀ d ∈ p.dsts, d < 48) {e : EW} (ha : p.answer = some (.ok e)) :
    Tracks h l F V (s.received p e) := by
  refine ⟨ht.latch, ht.ends, fun n w hw q hq hn => ht.awaited n w hw q (mem_received_pending.mp hq).1 hn,
    fun n w hw hnone => ?_⟩
  show ∃ e', readEw (writeEws s.regs p.dsts (some e)) n = some e' ∧ h.Encrypts e' w
  rw [readEw_writeEws]
  by_cases hn : n ∈ p.dsts
  · rw [if_pos ⟨hn, hlt n hn⟩]
    exact ⟨e, rfl, (ht.awaited n w hw p hp hn).answer e ha⟩
  · rw [if_neg fun hc => hn hc.1]
    refine ht.held n w hw fun q hq hnq => ?_
    by_cases htag : q.tag = p.tag
    · obtain rfl : q = p := List.inj_on_of_nodup_map hnodup hq hp htag
      exact hn hnq
    · exact hnone q (mem_received_pending.mpr ⟨hq, htag⟩) hnq

/-- At the end of the pseudocode the registers show its result. -/
theorem Tracks.shows_of_ended (ht : Tracks h l F V s) (htodo : s.todo = []) (hpend : s.pending = []) :
    h.Shows s.regs F := by
  have hF : V = F := by simpa [htodo] using ht.ends
  subst hF
  exact fun n w hw => ht.held n w hw (by simp [hpend])

end

/-- Command `i`, accepted when the registers were `f`, is in progress at some point of the pseudocode that ends
in `F`. -/
def Computing (i : Instr) (f : EwFile) (h : Scheme) (l : Latches) (F : Plain) (s : State) : Prop :=
  InProgress i f s ∧ ∃ V, Tracks h l F V s

/-- A command is over and the registers show `F`. -/
structure Succeeded (h : Scheme) (F : Plain) (s : State) : Prop where
  idle : s.busy = false
  pending : s.pending = []
  shown : h.Shows s.regs F

section
variable {h : Scheme} {alu : Alu} {i : Instr} {f : EwFile} {l : Latches} {F : Plain} {c : Prop} {s t : State}

theorem Computing.receive (hs : Computing i f h l F s) (tag : Nat) :
    Computing i f h l F (s.receive tag) ∨ FailedInAlu i c (s.receive tag) ∨ Succeeded h F (s.receive tag) := by
  obtain ⟨hrun, V, htr⟩ := hs
  have hkeep := hrun.receive tag
  rcases receive_cases tag s with hx | ⟨p, _, hp, _, ⟨r, _, hx⟩ | ⟨e, ha, hx⟩⟩ <;> rw [hx] at hkeep ⊢
  · exact .inl ⟨hrun, V, htr⟩
  · exact .inr (.inl (hrun.failedInAlu r))
  · obtain ⟨_, hnodup, _⟩ := hrun.seq
    obtain ⟨_, hdsts, _⟩ := hrun.data hrun.busy
    have htr' := htr.received hnodup hp (fun d hd => (hdsts p hp d hd).1) ha
    rcases completeIfEnded_cases (s.received p e) with ⟨_, hy⟩ | ⟨htodo, hpend, hy⟩ <;> rw [hy] at hkeep ⊢
    · have hbusy : ¬ IsOver i f (s.received p e) := fun hover => by cases hrun.busy.symm.trans hover.idle
      exact .inl ⟨hkeep.resolve_right hbusy, V, htr'⟩
    · exact .inr (.inr ⟨rfl, hpend, htr'.shows_of_ended htodo hpend⟩)

/-- No move but a submission takes the command further than to its end. -/
theorem Computing.move (hlaw : LawfulAlu h alu) (hs : Computing i f h l F s) {m : Move} {ev : Event}
    (hm : m.event alu s = some ev) (hev : ev.submitsNothing = true) (ht : State.event ev s = .next t) :
    Computing i f h l F t ∨ FailedInAlu i c t ∨ Succeeded h F t := by
  have ⟨hrun, V, htr⟩ := hs
  cases m with
  | host tx =>
    cases hm
    rcases hostStep_cases tx s with ⟨v, rfl, _⟩ | ⟨u, hu, hx⟩
    · cases hev
    · cases hx.symm.trans ht
      exact .inl ⟨hrun.hostEffect hu, V, htr.hostEffect hu⟩
  | issue k =>
    cases hm
    refine .inl ⟨hrun.issue ht, ?_⟩
    rcases issue_cases k s with hx | ⟨ln, hln, _, _, _, hi, ⟨req, hreq, hx⟩ | ⟨_, _, hx⟩⟩ <;>
      cases hx.symm.trans ht
    · exact ⟨V, htr⟩
    · exact ⟨_, htr.issued hln hi hreq⟩
  | answer j =>
    obtain ⟨p, hp, rfl⟩ := Option.map_eq_some_iff.mp hm
    obtain ⟨_, hnodup, _⟩ := hrun.seq
    cases ht
    exact .inl ⟨hrun.aluAnswer _ _, V, htr.aluAnswer hlaw hnodup (List.mem_of_getElem? hp)⟩
  | receive j =>
    obtain ⟨p, _, rfl⟩ := Option.map_eq_some_iff.mp hm
    cases ht
    exact hs.receive p.tag

/-- After success no event but a submission or reset changes a register. -/
theorem Succeeded.event (hs : Succeeded h F s) {ev : Event} (hev : ev.submitsNothing = true)
    (ht : State.event ev s = .next t) : Succeeded h F t := by
  -- As in `FailedInAlu.event`: NOP's destination set is empty, so what is over keeps every register.
  have hover : IsOver .nop s.regs s := ⟨hs.idle, hs.pending, fun _ _ => rfl, .inl (by simp [destSet])⟩
  have hover' := hover.event hev ht
  have hregs : t.regs = s.regs := ewFile_ext fun n => hover'.frame n List.not_mem_nil
  exact ⟨hover'.idle, hover'.pending, hregs ▸ hs.shown⟩

end

/-- What every move of a play keeps, whatever it knows of the state it meets, holds at its end. -/
theorem play_keeps_moves {P : State → Prop} {alu : Alu} {ms : List Move} {s u : State}
    (hmove : ∀ m ∈ ms, ∀ s t ev, m.event alu s = some ev → P s →
      State.event ev { s with env := [] } = .next t → P t) (hs : P s) (h : play alu ms s = .next u) : P u := by
  induction ms generalizing s with
  | nil =>
    cases h
    exact hs
  | cons m ms ih =>
    have hrest := fun m' hm' => hmove m' (List.mem_cons_of_mem _ hm')
    rcases play_cons h with h | ⟨ev, t, hm, ht, h⟩
    · exact ih hrest hs h
    · exact ih hrest (hmove m List.mem_cons_self s t ev hm hs ht) h

/-- Under every lawful ALU and every order of steps an ALU command is in progress, has failed, or has left the
registers showing what its pseudocode computes on cleartext words. -/
theorem command_outcome {h : Scheme} {alu : Alu} {ms : List Move} {s u : State} {i : Instr} {V : Plain}
    (hlaw : LawfulAlu h alu) (hf : s.failure i = none) (hi : isAluCommand i = true)
    (hV : h.Shows (startRegs i s.regs) V) (hms : noSubmission ms) (hplay : play alu ms (s.started i) = .next u) :
    u.busy = true ∨ FailedInAlu i (noErrorClear ms) u ∨
      Succeeded h (plainRun s.sample (linesOf i) V) u := by
  have hkeeps := play_keeps_moves
    (P := fun v => Computing i s.regs h s.sample (plainRun s.sample (linesOf i) V) v ∨
      FailedInAlu i (noErrorClear ms) v ∨ Succeeded h (plainRun s.sample (linesOf i) V) v)
    (fun m hm v t ev hev hP ht => ?_) (.inl ⟨inProgress_started hf hi, V, tracks_started hV⟩) hplay
  · exact hkeeps.imp_left fun hrun => hrun.1.busy
  · have hsub := Move.event_submitsNothing hev fun tx htx => hms tx (htx ▸ hm)
    rcases hP with ⟨hrun, W, htr⟩ | hfail | hsucc
    · have hs : Computing i s.regs h s.sample _ { v with env := [] } := ⟨hrun.withEnv [], W, htr.withEnv []⟩
      exact hs.move (m := m) hlaw hev hsub ht
    · exact .inr (.inl ((hfail.withEnv []).event hsub (fun hclear => Move.event_clearsError hev fun tx htx =>
        clearsError_of_noErrorClear hclear (htx ▸ hm)) ht))
    · exact .inr (.inr (Succeeded.event (s := { v with env := [] }) ⟨hsucc.idle, hsucc.pending, hsucc.shown⟩
        hsub ht))

/-! ### Registers that show a block, or the keys -/

section
variable {h : Scheme} {s : State} {F : Plain} {x y : Block} {k : Vector Word 8}

theorem holdsS_of_shows (hs : h.Shows s.regs F) (hF : F.IsS x) : s.holdsS h x := fun i =>
  hs i x[i] ((hF i i.isLt).trans (by simp))

theorem holdsI_of_shows (hs : h.Shows s.regs F) (hF : F.IsI x) : s.holdsI h x := fun i =>
  hs (16 + i) x[i] ((hF i i.isLt).trans (by simp))

/-- S decrypts to `x`; nothing else is known. -/
def plainState (x : Block) : Plain := fun n => x[n]?

/-- S decrypts to `x` and I to `y`. -/
def plainLoaded (x y : Block) : Plain := fun n => if n < 16 then x[n]? else y[n - 16]?

theorem isS_plainState (x : Block) : (plainState x).IsS x := fun _ _ => rfl

theorem isS_plainLoaded (x y : Block) : (plainLoaded x y).IsS x := fun _ hj => if_pos hj

theorem isI_plainLoaded (x y : Block) : (plainLoaded x y).IsI y := fun j _ => by
  simp [plainLoaded]

theorem shows_plainState (hx : s.holdsS h x) : h.Shows s.regs (plainState x) := by
  intro n w hw
  obtain ⟨hn, rfl⟩ := Vector.getElem?_eq_some_iff.mp hw
  exact hx ⟨n, hn⟩

theorem shows_plainLoaded (hx : s.holdsS h x) (hy : s.holdsI h y) : h.Shows s.regs (plainLoaded x y) := by
  intro n w hw
  unfold plainLoaded at hw
  split_ifs at hw with hn
  · exact shows_plainState hx n w hw
  · obtain ⟨hlt, rfl⟩ := Vector.getElem?_eq_some_iff.mp hw
    have hreg := hy ⟨n - 16, hlt⟩
    rwa [show iReg (n - 16) = n by unfold iReg; omega] at hreg

/-- INIT and BLOCK have copied the key words before their requests (R213). -/
theorem shows_plainKeys {i : Instr} (hi : needsKey i = true) (hk : s.holdsK h k) :
    h.Shows (startRegs i s.regs) (plainKeys k) := by
  have key : ∀ {j w}, k[j]? = some w → ∃ e, readEw s.regs (32 + j) = some e ∧ h.Encrypts e w := by
    intro j w hw
    obtain ⟨hj, rfl⟩ := Vector.getElem?_eq_some_iff.mp hw
    exact hk ⟨j, hj⟩
  intro n w hw
  rw [readEw_startRegs]
  unfold plainKeys at hw
  split_ifs at hw with h1 h2
  · rw [if_pos ⟨hi, h1⟩, show n + 28 = 32 + (n - 4) by omega]
    exact key hw
  · rw [if_neg fun hc => h1 hc.2, if_pos ⟨hi, h2⟩, show n + 12 = 32 + (n - 20) by omega]
    exact key hw

/-! ### The checks of the round commands (R123, R127) -/

theorem isSome_of_holdsS (hx : s.holdsS h x) {n : Nat} (hn : n < 16) : (s.reg n).isSome = true := by
  obtain ⟨e, he, _⟩ := hx ⟨n, hn⟩
  exact Option.isSome_of_eq_some he

theorem isSome_of_holds (hx : s.holdsS h x) (hy : s.holdsI h y) {n : Nat} (hn : n < 32) :
    (s.reg n).isSome = true := by
  by_cases hn' : n < 16
  · exact isSome_of_holdsS hx hn'
  · obtain ⟨e, he, _⟩ := hy ⟨n - 16, by omega⟩
    rw [show iReg (n - 16) = n by unfold iReg; omega] at he
    exact Option.isSome_of_eq_some he

/-- The checks pass where the sources are held: the key registers are INIT's and BLOCK's own sources. -/
theorem failure_of_sources {i : Instr} (hw : i.wf = true) (hE : needsEwin i = false)
    (hK : needsKey i = true → sourceSet i = kRegs) (hsrc : ∀ n ∈ sourceSet i, (s.reg n).isSome = true) :
    s.failure i = none :=
  (failure_eq_none_iff i s).mpr ⟨hw, fun hk => hK hk ▸ hsrc, fun hc => by simp [hE] at hc, hsrc⟩

theorem isSome_kRegs (hk : ∀ j < 8, (s.reg (32 + j)).isSome = true) : ∀ n ∈ kRegs, (s.reg n).isSome = true := by
  simpa [kRegs, kReg] using hk

theorem isSome_sRegs (hs : ∀ j < 16, (s.reg j).isSome = true) : ∀ n ∈ sRegs, (s.reg n).isSome = true :=
  fun n hn => hs n ((mem_sRegs n).mp hn)

theorem isSome_sRegs_iRegs (hs : ∀ j < 32, (s.reg j).isSome = true) :
    ∀ n ∈ sRegs ++ iRegs, (s.reg n).isSome = true := fun n hn => by
  rw [List.mem_append, mem_sRegs, mem_iRegs] at hn
  exact hs n (by omega)

end

/-! ### BLOCK, and SNAP then MIX, under every order of steps (R217, R218, R223) -/

/-- `command_outcome` for a command that computes a block in S. -/
theorem command_outcome_S {h : Scheme} {alu : Alu} {ms : List Move} {s u : State} {i : Instr} {V : Plain} {z : Block}
    (hlaw : LawfulAlu h alu) (hf : s.failure i = none) (hi : isAluCommand i = true)
    (hdest : ∀ j < 16, j ∈ destSet i) (hV : h.Shows (startRegs i s.regs) V)
    (hz : (plainRun s.sample (linesOf i) V).IsS z) (hms : noSubmission ms)
    (hplay : play alu ms (s.started i) = .next u) :
    u.busy = true ∨ ((∀ j < 16, u.reg j = none) ∧ (noErrorClear ms → u.err = true)) ∨ u.holdsS h z := by
  rcases command_outcome hlaw hf hi hV hms hplay with hbusy | hfail | hsucc
  · exact .inl hbusy
  · exact .inr (.inl ⟨fun j hj => hfail.dests j (hdest j hj), fun hc => (hfail.error hc).1⟩)
  · exact .inr (.inr (holdsS_of_shows hsucc.shown hz))

/-- BLOCK's lines compute `chacha_block` in S and leave the initial state in I (R187, R215). -/
theorem plainRun_blockLines (l : Latches) (k : Vector Word 8) :
    (plainRun l (linesOf .block) (plainKeys k)).IsS (chachaBlock k l.counter #v[l.nonce0, l.nonce1, l.nonce2]) ∧
      (plainRun l (linesOf .block) (plainKeys k)).IsI
        (initBlock k l.counter #v[l.nonce0, l.nonce1, l.nonce2]) := by
  obtain ⟨hS, hI⟩ := plainRun_initLines l k
  rw [linesOf, List.append_assoc, plainRun_append]
  exact ⟨isS_mixLines hS hI, isI_mixLines hI⟩

/-- Settles O38: INIT-body, ten double rounds and the feed-forward on cleartext words are `chacha_block`, and
every order of steps tracks them. -/
theorem blockIsChaCha20OrNothing : Obligations.BlockIsChaCha20OrNothing := by
  intro h alu ms s k hlaw hb he hk hms
  have hf : s.failure .block = none := failure_of_sources rfl rfl (fun _ => rfl) <| isSome_kRegs fun j hj => by
    obtain ⟨e, hreg, _⟩ := hk ⟨j, hj⟩
    exact Option.isSome_of_eq_some hreg
  refine ⟨s.started .block, exec_of_alu hb he hf rfl, accepts_started s .block, fun u hplay => ?_⟩
  exact command_outcome_S hlaw hf rfl (fun j hj => List.mem_append_left _ ((mem_sRegs j).mpr hj))
    (shows_plainKeys rfl hk) (plainRun_blockLines s.sample k).1 hms hplay

/-- SNAP's copies are its whole effect (R214). -/
theorem completeOk_snap (s : State) :
    (bodyOf .snap s.sample (s.accept (encode .snap) s.sample)).completeOk =
      s.finished (copyEws s.regs snapCopies) 0 := by
  simp only [bodyOf, State.completeOk, State.accept, State.finished, Nat.add_zero]

/-- SNAP from a state whose S is held. -/
theorem exec_snap {s : State} (hb : s.busy = false) (he : s.err = false)
    (hs : ∀ j < 16, (s.reg j).isSome = true) :
    exec .snap s = .next (s.finished (copyEws s.regs snapCopies) 0) := by
  have hf : s.failure .snap = none :=
    failure_of_sources rfl rfl (fun hk => by cases hk) (isSome_sRegs hs)
  rw [exec_of_immediate hb he hf rfl, completeOk_snap]

theorem reg_finished (s : State) (f : EwFile) (n m : Nat) : (s.finished f n).reg m = readEw f m := rfl

/-- After SNAP both S and I decrypt to what S decrypted to. -/
theorem holds_finished_snap {h : Scheme} {s : State} {x : Block} (hx : s.holdsS h x) :
    (s.finished (copyEws s.regs snapCopies) 0).holdsS h x ∧
      (s.finished (copyEws s.regs snapCopies) 0).holdsI h x := by
  refine ⟨fun i => ?_, fun i => ?_⟩
  · have hi : ¬(16 ≤ sReg i ∧ sReg i < 32) := fun hc => absurd hc.1 (Nat.not_le_of_lt i.isLt)
    rw [reg_finished, readEw_snapCopies, if_neg hi]
    exact hx i
  · have hi : 16 ≤ iReg i ∧ iReg i < 32 := by
      have := i.isLt
      unfold iReg
      omega
    rw [reg_finished, readEw_snapCopies, if_pos hi, show iReg i - 16 = sReg i from Nat.add_sub_cancel_left ..]
    exact hx i

/-- Settles O39: SNAP leaves the loaded state in S and I, from which MIX's lines compute `chacha_block`. -/
theorem snapThenMixIsChaCha20OrNothing : Obligations.SnapThenMixIsChaCha20OrNothing := by
  intro h alu ms s k c n hlaw hb he hx hms
  have hsnap := exec_snap hb he fun j hj => isSome_of_holdsS hx hj
  obtain ⟨hS, hI⟩ := holds_finished_snap hx
  generalize copyEws s.regs snapCopies = f at hsnap hS hI
  have hf : (s.finished f 0).failure .mix = none :=
    failure_of_sources rfl rfl (fun hk => by cases hk) <| isSome_sRegs_iRegs fun j hj => isSome_of_holds hS hI hj
  refine ⟨_, State.started (s.finished f 0) .mix, hsnap, exec_of_alu rfl he hf rfl, accepts_started _ .mix,
    fun u hplay => ?_⟩
  exact command_outcome_S hlaw hf rfl (fun j hj => (mem_sRegs j).mpr hj) (shows_plainLoaded hS hI)
    (isS_mixLines (isS_plainLoaded _ _) (isI_plainLoaded _ _)) hms hplay

/-- A BLOCK that is over, with no error and none cleared, has left `chacha_block` in S (R217). -/
theorem holdsS_of_block_succeeded {h : Scheme} {alu : Alu} {ms : List Move} {s t u : State} {k : Vector Word 8}
    (hlaw : LawfulAlu h alu) (hms : noSubmission ms) (hclear : noErrorClear ms) (hb : s.busy = false)
    (he : s.err = false) (hk : s.holdsK h k) (hx : exec .block s = .next t) (hplay : play alu ms t = .next u)
    (hidle : u.busy = false) (hok : u.err = false) : u.holdsS h (chachaBlock k s.counter s.nonce) := by
  obtain ⟨t', hx', _, hend⟩ := blockIsChaCha20OrNothing h alu ms s k hlaw hb he hk hms
  cases hx'.symm.trans hx
  rcases hend u hplay with hbusy | ⟨_, herr⟩ | hS
  · cases hbusy.symm.trans hidle
  · cases (herr hclear).symm.trans hok
  · exact hS

/-- Settles O40: each of the two leaves `chacha_block` of the same inputs. -/
theorem blockIsDeterministicOnDecryptions : Obligations.BlockIsDeterministicOnDecryptions := by
  intro h alu₁ alu₂ ms₁ ms₂ s₁ s₂ t₁ t₂ u₁ u₂ k hlaw₁ hlaw₂ hms₁ hms₂ hclear₁ hclear₂ hb₁ he₁ hb₂ he₂ hk₁ hk₂
    hcounter hnonce hx₁ hx₂ hplay₁ hplay₂ hidle₁ hok₁ hidle₂ hok₂ j hj
  have hS₁ := holdsS_of_block_succeeded hlaw₁ hms₁ hclear₁ hb₁ he₁ hk₁ hx₁ hplay₁ hidle₁ hok₁
  have hS₂ := holdsS_of_block_succeeded hlaw₂ hms₂ hclear₂ hb₂ he₂ hk₂ hx₂ hplay₂ hidle₂ hok₂
  obtain ⟨e₁, hreg₁, _, hdec₁⟩ := hS₁ ⟨j, hj⟩
  obtain ⟨e₂, hreg₂, _, hdec₂⟩ := hS₂ ⟨j, hj⟩
  exact ⟨e₁, e₂, hreg₁, hreg₂, by rw [hdec₁, hdec₂, hcounter, hnonce]⟩

/-- Settles O27: SNAP's checks pass and its copies are I from S. -/
theorem snapCompletes : Obligations.SnapCompletes := fun s hb he hs =>
  ⟨_, exec_snap hb he hs, readEw_snapCopies s.regs⟩

/-! ### A command in canonical order under an ALU that answers `Ok` (R220) -/

/-- `g` comes from `f` by writing, line after line, one handle to all of a line's destinations. -/
def WritesInOrder : List Line → EwFile → EwFile → Prop
  | [], f, g => g = f
  | ln :: rest, f, g => ∃ e, WritesInOrder rest (writeEws f ln.dsts (some e)) g

theorem writesInOrder_of_notMem {lines : List Line} {f g : EwFile} (h : WritesInOrder lines f g) {n : Nat}
    (hn : ∀ ln ∈ lines, n ∉ ln.dsts) : readEw g n = readEw f n := by
  induction lines generalizing f with
  | nil => rw [h]
  | cons ln rest ih =>
    obtain ⟨e, h⟩ := h
    rw [ih h fun b hb => hn b (List.mem_cons_of_mem _ hb), readEw_writeEws,
      if_neg fun hc => hn ln List.mem_cons_self hc.1]

/-- What held a value, or is written, holds one. -/
theorem writesInOrder_isSome {lines : List Line} {f g : EwFile} (h : WritesInOrder lines f g) {n : Nat}
    (hlt : n < 48) (hn : (readEw f n).isSome = true ∨ ∃ ln ∈ lines, n ∈ ln.dsts) :
    (readEw g n).isSome = true := by
  induction lines generalizing f with
  | nil => simpa [show g = f from h] using hn
  | cons ln rest ih =>
    obtain ⟨e, h⟩ := h
    refine ih h ?_
    rw [readEw_writeEws]
    by_cases hd : n ∈ ln.dsts
    · exact .inl (by simp [hd, hlt])
    · rw [if_neg fun hc => hd hc.1]
      exact hn.imp_right fun ⟨b, hb, hnb⟩ =>
        ⟨b, (List.mem_cons.mp hb).resolve_left fun hc => hd (hc ▸ hnb), hnb⟩

/-- Two registers that every line writes both or neither hold the same handle, if they did before or some line
writes them. -/
theorem writesInOrder_same {lines : List Line} {f g : EwFile} (h : WritesInOrder lines f g) {m n : Nat}
    (hm : m < 48) (hn : n < 48) (hboth : ∀ ln ∈ lines, m ∈ ln.dsts ↔ n ∈ ln.dsts)
    (hsame : readEw f m = readEw f n ∨ ∃ ln ∈ lines, m ∈ ln.dsts) : readEw g m = readEw g n := by
  induction lines generalizing f with
  | nil => simpa [show g = f from h] using hsame
  | cons ln rest ih =>
    obtain ⟨e, h⟩ := h
    refine ih h (fun b hb => hboth b (List.mem_cons_of_mem _ hb)) ?_
    have hln := hboth ln List.mem_cons_self
    rw [readEw_writeEws, readEw_writeEws]
    by_cases hd : m ∈ ln.dsts
    · exact .inl (by rw [if_pos ⟨hd, hm⟩, if_pos ⟨hln.mp hd, hn⟩])
    · rw [if_neg fun hc => hd hc.1, if_neg fun hc => hd (hln.mpr hc.1)]
      exact hsame.imp_right fun ⟨b, hb, hmb⟩ =>
        ⟨b, (List.mem_cons.mp hb).resolve_left fun hc => hd (hc ▸ hmb), hmb⟩

/-- The contract allows `Ok` to every request, to ENC where it is available (R154). -/
theorem permitted_ok {s : State} {ln : Line} {req : AluRequest} (hreq : s.request ln = .ok req)
    (henc : s.params.encAvailable = true ∨ ln.op.isEnc = false) (e : EW) :
    permitted s.params req (.ok e) = true := by
  rcases request_cases hreq with ⟨_, _, _, _, _, _, _, _, rfl⟩ | ⟨_, _, _, _, _, rfl⟩ | ⟨_, _, _, _, _, rfl⟩ |
    ⟨sel, _, _, hop, _, _, rfl⟩
  · rfl
  · rfl
  · rfl
  · exact henc.resolve_right (by simp [hop, LineOp.isEnc])

/-- The state in which the command in progress has completed, with the register file `f`, after `n` more
requests. -/
def State.completed (s : State) (f : EwFile) (n : Nat) : State :=
  { s with regs := f, busy := false, done := true, cur := none, todo := [], pending := [],
           nextTag := s.nextTag + n, env := [] }

/-- A line that is ready is issued, answered and received, with nothing outstanding before or after. -/
theorem play_ready_line {ans : Nat → AluRequest → EW} {s : State} {ln : Line} {rest : List Line} (n : Nat)
    (hb : s.busy = true) (hlanes : 1 ≤ s.params.aluLanes) (hl : s.latch.isSome = true)
    (hpend : s.pending = []) (htodo : s.todo = ln :: rest) (hready : ready s.valid (ln :: rest) = true)
    (henc : s.params.encAvailable = true ∨ ln.op.isEnc = false) :
    ∃ e, play (okAlu ans) (canonical (n + 1)) s =
      play (okAlu ans) (canonical n) (s.lineDone rest ln e).completeIfEnded := by
  obtain ⟨hsrcs, hsel, _⟩ := ready_get (before := []) hready
  obtain ⟨req, hreq⟩ := request_of_valid (fun n hn => (hsrcs n hn).resolve_right (by simp)) hsel hl
  exact ⟨_, play_line (canonical n) hb hlanes htodo hpend hreq (permitted_ok hreq henc)⟩

/-- After its answer the registers a line writes hold a value too. -/
theorem ready_lineDone {s : State} {ln : Line} {rest : List Line} (hready : ready s.valid (ln :: rest) = true)
    (e : EW) : ready (s.lineDone rest ln e).valid rest = true := by
  obtain ⟨_, _, hlt⟩ := ready_get (before := []) hready
  refine ready_mono (fun n hn => ?_) (ready_remove (before := []) hready)
  show (readEw (writeEws s.regs ln.dsts (some e)) n).isSome = true
  rw [readEw_writeEws]
  split_ifs with hc
  · rfl
  · refine (Bool.or_eq_true_iff.mp hn).resolve_right fun hd => hc ?_
    have hd : n ∈ ln.dsts := by simpa using hd
    exact ⟨hd, hlt n hd⟩

/-- The one-lane order takes the lines one after another, and completes with the last. -/
theorem play_canonical {ans : Nat → AluRequest → EW} {s : State} {ln : Line} {rest : List Line}
    (hb : s.busy = true) (hlanes : 1 ≤ s.params.aluLanes) (hl : s.latch.isSome = true)
    (hpend : s.pending = []) (htodo : s.todo = ln :: rest) (hready : ready s.valid (ln :: rest) = true)
    (henc : s.params.encAvailable = true ∨ ∀ b ∈ ln :: rest, b.op.isEnc = false) :
    ∃ f, WritesInOrder (ln :: rest) s.regs f ∧
      play (okAlu ans) (canonical (rest.length + 1)) s = .next (s.completed f (rest.length + 1)) := by
  induction rest generalizing s ln with
  | nil =>
    obtain ⟨e, hline⟩ := play_ready_line (ans := ans) 0 hb hlanes hl hpend htodo hready
      (henc.imp_right fun h => h ln List.mem_cons_self)
    exact ⟨_, ⟨e, rfl⟩, hline⟩
  | cons ln' rest ih =>
    obtain ⟨e, hline⟩ := play_ready_line (ans := ans) (rest.length + 1) hb hlanes hl hpend htodo hready
      (henc.imp_right fun h => h ln List.mem_cons_self)
    obtain ⟨f, hf, hplay⟩ := ih (s := s.lineDone (ln' :: rest) ln e) hb hlanes hl rfl rfl
      (ready_lineDone hready e) (henc.imp_right fun h b hm => h b (List.mem_cons_of_mem _ hm))
    refine ⟨f, ⟨e, hf⟩, hline.trans (hplay.trans ?_)⟩
    simp only [State.completed, State.lineDone, List.length_cons, Nat.add_assoc, Nat.add_comm 1]

theorem noSubmission_canonical (n : Nat) : noSubmission (canonical n) := by
  intro tx h
  simp [canonical] at h

/-- Every ALU command whose checks pass is accepted and completes in the canonical order, after one request for
each of its lines: it writes its destination set, all of it, and nothing else, and the ALU's laws give the values
its pseudocode computes. -/
theorem command_completes {ans : Nat → AluRequest → EW} {s : State} {i : Instr} (hb : s.busy = false)
    (he : s.err = false) (hlanes : 1 ≤ s.params.aluLanes) (hf : s.failure i = none)
    (hi : isAluCommand i = true)
    (henc : s.params.encAvailable = true ∨ ∀ ln ∈ linesOf i, ln.op.isEnc = false) :
    ∃ f, exec i s = .next (s.started i) ∧ s.accepts i (s.started i) ∧
      play (okAlu ans) (canonical (linesOf i).length) (s.started i) =
        .next (s.finished f (linesOf i).length).unscheduled ∧
      WritesInOrder (linesOf i) (startRegs i s.regs) f ∧
      (∀ n, n ∉ destSet i → readEw f n = s.reg n) ∧ (∀ n ∈ destSet i, (readEw f n).isSome = true) ∧
      ∀ (h : Scheme) (V : Plain), LawfulAlu h (okAlu ans) → h.Shows (startRegs i s.regs) V →
        h.Shows f (plainRun s.sample (linesOf i) V) := by
  obtain ⟨ln, rest, hlines⟩ := List.exists_cons_of_ne_nil (linesOf_ne_nil hi)
  have hwf := ((failure_eq_none_iff i s).mp hf).1
  obtain ⟨f, hwrites, hplay⟩ := play_canonical (ans := ans) (s := s.started i) rfl hlanes rfl rfl hlines
    (hlines ▸ ready_started hf hi) (hlines ▸ henc)
  rw [← hlines] at hwrites
  rw [← List.length_cons (a := ln), ← hlines] at hplay
  refine ⟨f, exec_of_alu hb he hf hi, accepts_started s i, hplay, hwrites, fun n hn => ?_, fun n hn => ?_,
    fun h V hlaw hV => ?_⟩
  · rw [writesInOrder_of_notMem hwrites fun b hb hd => hn (linesOf_dsts hb n hd)]
    exact readEw_startRegs_of_notMem hn s.regs
  · exact writesInOrder_isSome hwrites (destSet_lt hwf n hn) (linesOf_cover hf hi n hn)
  · rcases command_outcome hlaw hf hi hV (noSubmission_canonical _) hplay with hbusy | hfail | hsucc
    · cases hbusy
    · have herr := (hfail.error fun width off v hm => by simp [canonical] at hm).1
      cases he.symm.trans herr
    · exact hsucc.shown

/-! ### The round commands complete (R210 to R216) -/

theorem isEnc_of_mem_qrLines {a b c d : Nat} {ln : Line} (h : ln ∈ qrLines a b c d) : ln.op.isEnc = false := by
  revert ln h
  simp [qrLines, quarterLines, LineOp.isEnc]

theorem isEnc_of_mem_droundLines {r : Nat} {ln : Line} (h : ln ∈ droundLines r) : ln.op.isEnc = false := by
  rcases List.mem_append.mp h with h | h <;>
  · obtain ⟨_, _, _, _, _, b, hb, rfl⟩ := mem_halfLines.mp h
    exact (isEnc_of_mem_qrLines hb : b.op.isEnc = false)

theorem isEnc_of_mem_ffLines : ∀ ln ∈ ffLines, ln.op.isEnc = false := by decide

theorem isEnc_of_mem_mixLines {ln : Line} (h : ln ∈ roundsLines ++ ffLines) : ln.op.isEnc = false := by
  rcases List.mem_append.mp h with h | h
  · obtain ⟨_, _, hr⟩ := mem_roundsLines.mp h
    exact isEnc_of_mem_droundLines hr
  · exact isEnc_of_mem_ffLines ln h

theorem length_droundLines (r : Nat) : (droundLines r).length = 96 := rfl

theorem length_mixLines : (roundsLines ++ ffLines).length = 976 := by
  simp [roundsLines, List.length_flatMap, length_droundLines, ffLines]

theorem length_blockLines : (initLines ++ roundsLines ++ ffLines).length = 984 := by
  rw [List.append_assoc, List.length_append, length_mixLines]
  rfl

/-- Settles O32: whatever the four indices, QR-body computes `qr`. -/
theorem qrCompletes : Obligations.QrCompletes := by
  intro h ans s qa qb qc qd hb he hlanes hs
  have hsrc : ∀ n ∈ sourceSet (.qr qa qb qc qd), (s.reg n).isSome = true := by
    simpa [sourceSet, sReg] using hs
  obtain ⟨f, hexec, hacc, hplay, _, hframe, hsome, hval⟩ := command_completes (ans := ans) hb he hlanes
    (failure_of_sources rfl rfl (fun hk => by cases hk) hsrc) rfl (.inr fun _ => isEnc_of_mem_qrLines)
  exact ⟨_, f, hexec, hacc, rfl, hplay, hframe, hsome, fun x hlaw hx =>
    holdsS_of_shows (hval h _ hlaw (shows_plainState hx))
      (isS_qrLines (isS_plainState x) qa.isLt qb.isLt qc.isLt qd.isLt)⟩

/-- `command_completes` for the commands that write S from registers as they stand, in `k` requests. -/
theorem command_completes_S {ans : Nat → AluRequest → EW} {s : State} {i : Instr} {k : Nat} (hb : s.busy = false)
    (he : s.err = false) (hlanes : 1 ≤ s.params.aluLanes) (hf : s.failure i = none)
    (hi : isAluCommand i = true) (hdest : destSet i = sRegs) (hstart : startRegs i s.regs = s.regs)
    (hlength : (linesOf i).length = k) (henc : ∀ ln ∈ linesOf i, ln.op.isEnc = false) :
    ∃ t f, exec i s = .next t ∧ s.accepts i t ∧ t.regs = s.regs ∧
      play (okAlu ans) (canonical k) t = .next (s.finished f k).unscheduled ∧
      (∀ n, 16 ≤ n → readEw f n = s.reg n) ∧ (∀ j < 16, (readEw f j).isSome = true) ∧
      ∀ {h : Scheme} {V : Plain} {z : Block}, LawfulAlu h (okAlu ans) → h.Shows s.regs V →
        (plainRun s.sample (linesOf i) V).IsS z → (s.finished f k).holdsS h z := by
  obtain ⟨f, hexec, hacc, hplay, _, hframe, hsome, hval⟩ := command_completes (ans := ans) hb he hlanes hf hi
    (.inr henc)
  rw [hdest] at hframe hsome
  rw [hstart] at hval
  subst hlength
  exact ⟨_, f, hexec, hacc, hstart, hplay, fun n hn => hframe n ((mem_sRegs n).not.mpr (by omega)),
    fun j hj => hsome j ((mem_sRegs j).mpr hj), fun hlaw hV hz => holdsS_of_shows (hval _ _ hlaw hV) hz⟩

/-- Settles O33: DROUND-body computes `dround`. -/
theorem droundCompletes : Obligations.DroundCompletes := by
  intro h ans s hb he hlanes hs
  obtain ⟨t, f, hexec, hacc, hregs, hplay, hframe, hsome, hval⟩ := command_completes_S (i := .dround) (ans := ans)
    hb he hlanes (failure_of_sources rfl rfl (fun hk => by cases hk) (isSome_sRegs hs)) rfl rfl rfl
    (length_droundLines 0) fun _ => isEnc_of_mem_droundLines
  exact ⟨t, f, hexec, hacc, hregs, hplay, hframe, hsome, fun x hlaw hx =>
    hval hlaw (shows_plainState hx) (isS_droundLines (isS_plainState x) 0)⟩

/-- Settles O34: FF-body adds I to S word by word. -/
theorem ffCompletes : Obligations.FfCompletes := by
  intro h ans s hb he hlanes hs
  obtain ⟨t, f, hexec, hacc, hregs, hplay, hframe, hsome, hval⟩ := command_completes_S (i := .ff) (ans := ans)
    hb he hlanes (failure_of_sources rfl rfl (fun hk => by cases hk) (isSome_sRegs_iRegs hs)) rfl rfl rfl
    rfl isEnc_of_mem_ffLines
  exact ⟨t, f, hexec, hacc, hregs, hplay, hframe, hsome, fun x y hlaw hx hy =>
    hval hlaw (shows_plainLoaded hx hy) (isS_ffLines (isS_plainLoaded x y) (isI_plainLoaded x y))⟩

/-- Settles O37: ten DROUND-bodies and FF-body. -/
theorem mixCompletes : Obligations.MixCompletes := by
  intro h ans s hb he hlanes hs
  obtain ⟨t, f, hexec, hacc, hregs, hplay, hframe, hsome, hval⟩ := command_completes_S (i := .mix) (ans := ans)
    hb he hlanes (failure_of_sources rfl rfl (fun hk => by cases hk) (isSome_sRegs_iRegs hs)) rfl rfl rfl
    length_mixLines fun _ => isEnc_of_mem_mixLines
  exact ⟨t, f, hexec, hacc, hregs, hplay, hframe, hsome, fun x y hlaw hx hy =>
    hval hlaw (shows_plainLoaded hx hy) (isS_mixLines (isS_plainLoaded x y) (isI_plainLoaded x y))⟩

theorem mem_sRegs_iRegs (n : Nat) : n ∈ sRegs ++ iRegs ↔ n < 32 := by
  rw [List.mem_append, mem_sRegs, mem_iRegs]
  omega

/-- INIT writes a word of I with the same handle as the word of S (R213). -/
theorem initLines_both : ∀ j < 16, ∀ ln ∈ initLines, 16 + j ∈ ln.dsts ↔ j ∈ ln.dsts := by decide

/-- INIT-body's requests write all words but the key words. -/
theorem initLines_written : ∀ j < 16, (4 ≤ j ∧ j < 12) ∨ ∃ ln ∈ initLines, 16 + j ∈ ln.dsts := by decide

theorem initLines_keys : ∀ j < 8, ∀ ln ∈ initLines, 4 + j ∉ ln.dsts := by decide

/-- Settles O35: the key copies are made at accept, and each of the 8 lines writes one handle to S and to I. -/
theorem initCompletes : Obligations.InitCompletes := by
  intro h ans s hb he hlanes havail hk
  obtain ⟨f, hexec, hacc, hplay, hwrites, hframe, hsome, hval⟩ := command_completes (ans := ans) (i := .init) hb he
    hlanes (failure_of_sources rfl rfl (fun _ => rfl) (isSome_kRegs hk)) rfl (.inl havail)
  refine ⟨_, f, hexec, hacc, hplay, fun n hn => hframe n ((mem_sRegs_iRegs n).not.mpr (by omega)),
    fun j hj => hsome j ((mem_sRegs_iRegs j).mpr (by omega)), fun j hj => ?_, fun j hj => ?_,
    fun k hlaw hkeys => ?_⟩
  · refine writesInOrder_same hwrites (by omega) (by omega) (initLines_both j hj) ?_
    refine (initLines_written j hj).imp_left fun hkey => ?_
    rw [readEw_startRegs, if_neg (by omega), if_pos ⟨rfl, by omega⟩, readEw_startRegs, if_pos ⟨rfl, hkey⟩]
    congr 1
    omega
  · rw [writesInOrder_of_notMem hwrites (initLines_keys j hj), readEw_startRegs, if_pos ⟨rfl, by omega⟩,
      show 4 + j + 28 = 32 + j by omega, State.reg_eq]
  · obtain ⟨hS, hI⟩ := plainRun_initLines s.sample k
    have hshown := hval h _ hlaw (shows_plainKeys rfl hkeys)
    exact ⟨holdsS_of_shows hshown hS, holdsI_of_shows hshown hI⟩

/-- Settles O36: BLOCK's lines compute `chacha_block` in S and keep the initial state in I. -/
theorem blockCompletes : Obligations.BlockCompletes := by
  intro h ans s hb he hlanes havail hk
  obtain ⟨f, hexec, hacc, hplay, _, hframe, hsome, hval⟩ := command_completes (ans := ans) (i := .block) hb he
    hlanes (failure_of_sources rfl rfl (fun _ => rfl) (isSome_kRegs hk)) rfl (.inl havail)
  have hlength : (linesOf .block).length = 984 := length_blockLines
  rw [hlength] at hplay
  refine ⟨_, f, hexec, hacc, hplay, fun n hn => hframe n ((mem_sRegs_iRegs n).not.mpr (by omega)),
    fun j hj => hsome j ((mem_sRegs_iRegs j).mpr hj), fun k hlaw hkeys => ?_⟩
  obtain ⟨hS, hI⟩ := plainRun_blockLines s.sample k
  have hshown := hval h _ hlaw (shows_plainKeys rfl hkeys)
  exact ⟨holdsS_of_shows hshown hS, holdsI_of_shows hshown hI⟩

/-! ### The requests of a command by kind (R219) -/

/-- Tallies of lists of lines put together. -/
def RequestTally.plus (a b : RequestTally) : RequestTally :=
  ⟨a.add + b.add, a.xor + b.xor, a.and + b.and, a.or + b.or, a.rotl + b.rotl, a.rotr + b.rotr, a.enc + b.enc⟩

theorem tally_append (as bs : List Line) : tally (as ++ bs) = (tally as).plus (tally bs) := by
  simp only [tally, RequestTally.plus, List.countP_append]

theorem tally_droundLines (r : Nat) : tally (droundLines r) = ⟨32, 32, 0, 0, 32, 0, 0⟩ := rfl

theorem tally_droundsLines (rs : List Nat) :
    tally (rs.flatMap droundLines) = ⟨32 * rs.length, 32 * rs.length, 0, 0, 32 * rs.length, 0, 0⟩ := by
  induction rs with
  | nil => rfl
  | cons r rs ih =>
    rw [List.flatMap_cons, tally_append, tally_droundLines, ih]
    simp [RequestTally.plus, Nat.mul_succ, Nat.add_comm]

theorem tally_mixLines : tally (roundsLines ++ ffLines) = ⟨336, 320, 0, 0, 320, 0, 0⟩ := by
  rw [tally_append, roundsLines, tally_droundsLines]
  rfl

theorem tally_linesOf (i : Instr) : tally (linesOf i) = requestTally i := by
  cases i with
  | mix => exact tally_mixLines
  | block =>
    rw [linesOf, List.append_assoc, tally_append, tally_mixLines]
    rfl
  | dround => exact tally_droundLines 0
  | _ => rfl

/-- All the requests of a tally. -/
def RequestTally.total (a : RequestTally) : Nat := a.add + a.xor + a.and + a.or + a.rotl + a.rotr + a.enc

/-- A line issues one request, of one kind. -/
theorem total_tally_singleton (ln : Line) : (tally [ln]).total = 1 := by
  obtain ⟨dsts, op, stage⟩ := ln
  cases op with
  | bin op a b => cases op <;> rfl
  | rotl | rotr | enc => rfl

theorem length_eq_total_tally (ls : List Line) : ls.length = (tally ls).total := by
  induction ls with
  | nil => rfl
  | cons ln ls ih =>
    have htotal : ((tally [ln]).plus (tally ls)).total = (tally [ln]).total + (tally ls).total := by
      simp only [RequestTally.total, RequestTally.plus]
      omega
    rw [← List.singleton_append, tally_append, htotal, total_tally_singleton, ← ih, List.length_append,
      List.length_singleton]

/-- Settles O41: an ALU command starts with its own lines, and any other submission leaves none. -/
theorem requestCounts : Obligations.RequestCounts := by
  intro i s t hb he hx
  rcases exec_cases i s with ⟨hd, _⟩ | ⟨_, _, c, _, hy⟩ | ⟨_, _, _, _, hy⟩ | ⟨_, _, _, _, hy⟩
  · simp [hb, he] at hd
  · cases hy.symm.trans hx
    rfl
  · cases hy.symm.trans hx
    exact ⟨tally_linesOf i, tally_linesOf i ▸ length_eq_total_tally (linesOf i)⟩
  · cases hy.symm.trans hx
    obtain ⟨f, o, c, w, hbody⟩ := bodyOf_frame i s.sample (s.accept (encode i) s.sample)
    rw [hbody]
    rfl

/-! ### One lane issues in canonical order (R220) -/

theorem HostEffect.nextTag_eq {s t : State} (h : HostEffect s t) : t.nextTag = s.nextTag := by
  cases h <;> rfl

theorem hostStep_nextTag {tx : HostTx} {s t : State} (h : s.hostStep tx = .next t) : t.nextTag = s.nextTag := by
  rcases hostStep_cases tx s with ⟨v, _, hx⟩ | ⟨u, hu, hx⟩
  · rcases submitWord_cases v (s.respond .done) with ⟨_, hy⟩ | ⟨_, _, _, _, _, hy⟩ | ⟨_, _, _, _, _, _, hy⟩ |
      ⟨_, _, i, _, _, _, hy⟩ <;> cases (hx.trans hy).symm.trans h
    · rfl
    · rfl
    · rfl
    · obtain ⟨f, o, c, w, hbody⟩ := bodyOf_frame i (s.respond .done).sample
        ((s.respond .done).accept (encode i) (s.respond .done).sample)
      rw [hbody]
      rfl
  · cases hx.symm.trans h
    exact hu.nextTag_eq

theorem receive_nextTag (tag : Nat) (s : State) : (s.receive tag).nextTag = s.nextTag := by
  rcases receive_cases tag s with hx | ⟨p, _, _, _, ⟨r, _, hx⟩ | ⟨e, _, hx⟩⟩ <;> rw [hx]
  · rfl
  · rcases completeIfEnded_cases (s.received p e) with ⟨_, hy⟩ | ⟨_, _, hy⟩ <;> rw [hy] <;> rfl

/-- Of all events only an issue uses a tag. -/
theorem event_nextTag {ev : Event} {s t : State} (h : State.event ev s = .next t)
    (htag : t.nextTag ≠ s.nextTag) : ∃ k, ev = .issue k := by
  cases ev with
  | issue k => exact ⟨k, rfl⟩
  | host tx => exact absurd (hostStep_nextTag h) htag
  | alu tag a => cases h; exact absurd rfl htag
  | receive tag => cases h; exact absurd (receive_nextTag tag s) htag
  | reset => cases h; exact absurd rfl htag

/-- Settles O42: with one lane only the next line may be chosen, and only with the lane free. -/
theorem oneLaneIssuesInOrder : Obligations.OneLaneIssuesInOrder := by
  intro s t hlanes hstep htag
  obtain ⟨ev, hev⟩ := step_eq_event s
  obtain ⟨k, rfl⟩ := event_nextTag (s := { s with env := s.env.tail }) (hev ▸ hstep) htag
  rcases issue_cases k { s with env := s.env.tail } with hx | ⟨ln, hln, _, hchoose, hfree, _,
    ⟨req, hreq, hx⟩ | ⟨_, _, hx⟩⟩ <;> cases (hev.trans hx).symm.trans hstep
  · exact absurd rfl htag
  · obtain rfl := eq_zero_of_mayChoose (s := { s with env := s.env.tail }) hlanes hchoose
    have hpend : s.pending = [] := List.length_eq_zero_iff.mp (Nat.lt_one_iff.mp (hlanes ▸ hfree))
    obtain ⟨rest, htodo⟩ : ∃ rest, s.todo = ln :: rest :=
      List.head?_eq_some_iff.mp (List.head?_eq_getElem?.trans hln)
    refine ⟨hpend, ln, req, ?_, hreq, ?_⟩
    · simp [State.issued, htodo]
    · simp [State.issued, hpend, Line.pend]

end Sys2Proof.Machine

/-! The transfer and control commands (spec 44_transfer_control.md R240 to R246). Each is an immediate command, so
`exec_of_immediate` gives its next state once its checks pass; what remains is which register each number reads. -/

namespace Sys2Proof.Machine

/-! ### Their checks pass (R123, R127) -/

theorem wf_of_regFields {i : Instr} (hsel : i.selOk = true) (hregs : ∀ r ∈ i.regFields, r.toNat < 48) :
    i.wf = true := by
  simpa [Instr.wf, hsel, Instr.regsOk, RegNum.implemented] using hregs

/-- A command without operands, sources or keys fails no check. -/
theorem failure_of_no_source {i : Instr} (s : State) (hw : i.wf = true) (hK : needsKey i = false)
    (hE : needsEwin i = false) (hsrc : sourceSet i = []) : s.failure i = none :=
  failure_of_sources hw hE (by simp [hK]) (by simp [hsrc])

theorem failure_mov {s : State} {rd ra : RegNum} {e : EW} (hrd : rd.toNat < 48) (hra : ra.toNat < 48)
    (hreg : s.reg ra.toNat = some e) : s.failure (.mov rd ra) = none :=
  failure_of_sources (wf_of_regFields rfl (by simp [Instr.regFields, hrd, hra])) rfl (fun hk => by cases hk)
    (by simp [sourceSet, hreg])

theorem failure_stx {s : State} {ra : RegNum} {e : EW} (hra : ra.toNat < 48)
    (hreg : s.reg ra.toNat = some e) : s.failure (.stx ra) = none :=
  failure_of_sources (wf_of_regFields rfl (by simp [Instr.regFields, hra])) rfl (fun hk => by cases hk)
    (by simp [sourceSet, hreg])

/-- LDX reads no register; its own check is the latched EWIN (R123 item 4). -/
theorem failure_ldx {s : State} {rd : RegNum} {e : EW} (hrd : rd.toNat < 48) (hewin : s.ewin = some e) :
    s.failure (.ldx rd) = none :=
  (failure_eq_none_iff _ s).mpr ⟨wf_of_regFields rfl (by simp [Instr.regFields, hrd]), (fun hk => by cases hk),
    fun _ => by simp [hewin], by simp [sourceSet]⟩

/-! ### What the registers read afterwards -/

theorem readEw_writeEw_of_lt (f : EwFile) {d : Nat} (hd : d < 48) (v : Option EW) (n : Nat) :
    readEw (writeEw f d v) n = if n = d then v else readEw f n := by
  rw [readEw_writeEw]
  exact if_congr (and_iff_left_of_imp fun h => h ▸ hd) rfl rfl

/-- CLRS (R245): of the 48 registers only K is none of S, I and T. -/
theorem readEw_clearedSIT (f : EwFile) (n : Nat) :
    readEw (writeEws f (sRegs ++ iRegs ++ tRegs) none) n = if 32 ≤ n ∧ n < 40 then readEw f n else none := by
  have hmem : n ∈ sRegs ++ iRegs ++ tRegs ↔ n < 32 ∨ (40 ≤ n ∧ n < 48) := by
    rw [List.mem_append, mem_sRegs_iRegs, mem_tRegs]
  simp only [readEw_writeEws, hmem]
  by_cases hk : 32 ≤ n ∧ n < 40
  · rw [if_neg (by omega), if_pos hk]
  · rw [if_neg hk]
    by_cases hn : n < 48
    · exact if_pos ⟨by omega, hn⟩
    · rw [if_neg fun h => hn h.2, readEw_of_ge (Nat.le_of_not_lt hn)]

/-- CLRK (R246). -/
theorem readEw_clearedK (f : EwFile) (n : Nat) :
    readEw (writeEws f kRegs none) n = if 32 ≤ n ∧ n < 40 then none else readEw f n := by
  simp only [readEw_writeEws, mem_kRegs]
  exact if_congr (and_iff_left_of_imp fun h => by omega) rfl rfl

theorem kv_eq_zero {s : State} (hk : ∀ n, 32 ≤ n → n < 40 → s.reg n = none) : s.kv = 0#8 := by
  refine BitVec.eq_of_getLsbD_eq fun j hj => ?_
  rw [getLsbD_kv s hj, hk (32 + j) (by omega) (by omega), BitVec.getLsbD_zero, Option.isSome_none]

/-! ### The commands complete -/

/-- An immediate command whose body replaces the register file, and nothing else, completes with that file. -/
theorem exec_of_regs {i : Instr} {s : State} {f : EwFile} (hb : s.busy = false) (he : s.err = false)
    (hf : s.failure i = none) (hi : isAluCommand i = false)
    (hbody : ∀ t : State, t.regs = s.regs → bodyOf i s.sample t = { t with regs := f }) :
    exec i s = .next (s.finished f 0) := by
  rw [exec_of_immediate hb he hf hi, hbody (s.accept (encode i) s.sample) rfl]
  rfl

/-- Settles O26: both clears have no check to fail, and KV is a view of the cleared K. -/
theorem clearsComplete : Obligations.ClearsComplete := by
  intro s hb he
  refine ⟨⟨writeEws s.regs (sRegs ++ iRegs ++ tRegs) none, ?_, readEw_clearedSIT s.regs⟩,
    writeEws s.regs kRegs none, ?_, readEw_clearedK s.regs, kv_eq_zero fun n h1 h2 => ?_⟩
  · exact exec_of_regs hb he (failure_of_no_source s rfl rfl rfl rfl) rfl fun t ht => by rw [bodyOf, ht]
  · exact exec_of_regs hb he (failure_of_no_source s rfl rfl rfl rfl) rfl fun t ht => by rw [bodyOf, ht]
  · rw [reg_finished, readEw_clearedK, if_pos ⟨h1, h2⟩]

/-- The counter wraps from its last value only (R32, R244). -/
theorem wrapFlag_add_one (old : Bool) (c : Word) :
    wrapFlag old (c + 1#32) = if c = 0xFFFFFFFF#32 then true else old := by
  have hwrap : c + 1#32 = 0#32 ↔ c = 0xFFFFFFFF#32 := by bv_omega
  by_cases hc : c = 0xFFFFFFFF#32
  · simp [wrapFlag, hc]
  · simp [wrapFlag, hwrap, hc]

/-- Settles O23: neither has a check to fail, and CTRINC's flag is set exactly at the last counter value. -/
theorem nopAndCtrincComplete : Obligations.NopAndCtrincComplete := by
  intro s hb he
  refine ⟨exec_of_regs hb he (failure_of_no_source s rfl rfl rfl rfl) rfl fun t ht => by rw [bodyOf, ← ht], ?_⟩
  rw [exec_of_immediate hb he (failure_of_no_source s rfl rfl rfl rfl) rfl, ← wrapFlag_add_one]
  rfl

/-- Settles O24: each is one register write, of the source register's or the latched EWIN's handle. -/
theorem movAndLdxComplete : Obligations.MovAndLdxComplete := by
  intro s rd ra e hb he hrd hra
  have hwritten : ∀ n, readEw (writeEw s.regs rd.toNat (some e)) n = if n = rd.toNat then some e else s.reg n :=
    readEw_writeEw_of_lt s.regs hrd (some e)
  refine ⟨fun hreg => ⟨_, ?_, hwritten⟩, fun hewin => ⟨_, ?_, hwritten⟩⟩
  · refine exec_of_regs hb he (failure_mov hrd hra hreg) rfl fun t ht => ?_
    rw [bodyOf, ht, ← hreg]
    rfl
  · refine exec_of_regs hb he (failure_ldx hrd hewin) rfl fun t ht => ?_
    rw [bodyOf, ht, ← hewin]
    rfl

/-- Settles O25: EWOUT gets the handle the source register holds. -/
theorem stxCompletes : Obligations.StxCompletes := by
  intro s ra e hb he hra hreg
  rw [exec_of_immediate hb he (failure_stx hra hreg) rfl, ← hreg]
  rfl

end Sys2Proof.Machine

/-! The exceptions' statements (spec 60_exceptions.md): a submission that is dropped (R277), the errors raised at
accept in the order of the checks (R271 to R275), the interrupt output (R283), and what writes COUNTER and CTRWRAP
(R292). -/

namespace Sys2Proof.Machine

/-! ### A dropped submission, and words that are no command (R271, R272, R277) -/

/-- Settles O17: a drop is the same for a word and for a command, and looks at neither. -/
theorem busyOrErrorDrops : Obligations.BusyOrErrorDrops := fun s hd =>
  ⟨fun _ => exec_of_drop hd, fun _ rest henv => (step_of_cons henv).trans
    (submitWord_of_drop (s := State.respond .done { s with env := rest }) hd)⟩

/-- Settles O18: what `decode` answers is the code of the failed check. -/
theorem badWordsFail : Obligations.BadWordsFail := fun _ s rest hb he henv =>
  ⟨fun hdec => (step_of_cons henv).trans
    (submitWord_of_illegal (s := State.respond .done { s with env := rest }) hb he hdec),
   fun hdec => (step_of_cons henv).trans
    (submitWord_of_badReg (s := State.respond .done { s with env := rest }) hb he hdec)⟩

/-! ### The checks that look at the state (R123 items 3 to 5) -/

/-- With every key word held KV is all ones (R36); `kv_eq_zero` is the other end. -/
theorem kv_eq_allOnes {s : State} (hk : ∀ n ∈ kRegs, (s.reg n).isSome = true) : s.kv = 0xFF#8 := by
  refine BitVec.eq_of_getLsbD_eq fun j hj => ?_
  rw [getLsbD_kv s hj, hk (32 + j) ((mem_kRegs _).mpr (by omega))]
  exact (BitVec.getLsbD_allOnes.trans (decide_eq_true hj)).symm

theorem all_valid_eq_false {s : State} {ns : List Nat} (h : ∃ n ∈ ns, s.reg n = none) :
    ns.all s.valid = false := by
  obtain ⟨n, hn, hreg⟩ := h
  exact List.all_eq_false.mpr ⟨n, hn, by simp [State.valid_eq, hreg]⟩

section
variable {i : Instr} {s : State}

theorem failure_of_kv (hw : i.wf = true) (hK : needsKey i = true) (hkv : s.kv ≠ 0xFF#8) :
    s.failure i = some .keyIncomplete := by
  have hkeys : kRegs.all s.valid = false := Bool.eq_false_iff.mpr fun hall =>
    hkv (kv_eq_allOnes (List.all_eq_true.mp hall))
  obtain ⟨hsel, hregs⟩ := Bool.and_eq_true_iff.mp hw
  simp [State.failure, State.firstFailure, hsel, hregs, hK, hkeys]

theorem failure_of_ewin (hw : i.wf = true) (hK : needsKey i = false) (hE : needsEwin i = true)
    (hewin : s.ewin = none) : s.failure i = some .ewinEmpty := by
  obtain ⟨hsel, hregs⟩ := Bool.and_eq_true_iff.mp hw
  simp [State.failure, State.firstFailure, hsel, hregs, hK, hE, State.sample, hewin]

theorem failure_of_missing_source (hw : i.wf = true) (hK : needsKey i = false) (hE : needsEwin i = false)
    (hsrc : ∃ n ∈ sourceSet i, s.reg n = none) : s.failure i = some .uninitRead := by
  obtain ⟨hsel, hregs⟩ := Bool.and_eq_true_iff.mp hw
  simp [State.failure, State.firstFailure, hsel, hregs, hK, hE, all_valid_eq_false hsrc]

theorem exec_of_missing_source (hb : s.busy = false) (he : s.err = false) (hw : i.wf = true)
    (hK : needsKey i = false) (hE : needsEwin i = false) (hsrc : ∃ n ∈ sourceSet i, s.reg n = none) :
    exec i s = .next (s.checkFailed .uninitRead) :=
  exec_of_failure hb he (failure_of_missing_source hw hK hE hsrc)

end

/-- Settles O20: INIT and BLOCK have no operand to fail an earlier check. -/
theorem keyIncompleteFails : Obligations.KeyIncompleteFails := fun _ hb he hkv =>
  ⟨exec_of_failure hb he (failure_of_kv rfl rfl hkv), exec_of_failure hb he (failure_of_kv rfl rfl hkv)⟩

/-- Settles O21: the latched EWIN is EWIN as it stands, and LDX checks nothing else but its operand. -/
theorem emptyEwinFails : Obligations.EmptyEwinFails := fun _ _ hb he hrd hewin =>
  exec_of_failure hb he
    (failure_of_ewin (wf_of_regFields rfl (by simpa [Instr.regFields] using hrd)) rfl rfl hewin)

/-- Settles O22: of each command one register of the source set (R127) holds no value, and no earlier check
fails. -/
theorem uninitReadFails : Obligations.UninitReadFails := by
  intro s hb he
  have fails {i : Instr} := exec_of_missing_source (i := i) hb he
  refine ⟨fun rd ra rb hrd hra hrb hreg => ?_, fun rd ra sh hrd hra hreg => ?_, fun qa qb qc qd hreg => ?_,
    fun ⟨j, hj, hreg⟩ => ?_, fun ⟨j, hj, hreg⟩ => ?_⟩
  · have hfields : ∀ r ∈ [rd, ra, rb], r.toNat < 48 := by simp [hrd, hra, hrb]
    have hsrc : ∃ n ∈ [ra.toNat, rb.toNat], s.reg n = none := by simpa using hreg
    exact ⟨fails (wf_of_regFields rfl hfields) rfl rfl hsrc, fails (wf_of_regFields rfl hfields) rfl rfl hsrc,
      fails (wf_of_regFields rfl hfields) rfl rfl hsrc, fails (wf_of_regFields rfl hfields) rfl rfl hsrc⟩
  · have hra' : ∀ r ∈ [ra], r.toNat < 48 := by simp [hra]
    have hboth : ∀ r ∈ [rd, ra], r.toNat < 48 := by simp [hrd, hra]
    have hsrc : ∃ n ∈ [ra.toNat], s.reg n = none := by simpa using hreg
    exact ⟨fails (wf_of_regFields rfl hboth) rfl rfl hsrc, fails (wf_of_regFields rfl hboth) rfl rfl hsrc,
      fails (wf_of_regFields rfl hboth) rfl rfl hsrc, fails (wf_of_regFields rfl hra') rfl rfl hsrc⟩
  · exact fails rfl rfl rfl (by simpa [sourceSet, sReg] using hreg)
  · have hsrc : ∃ n ∈ sRegs, s.reg n = none := ⟨j, (mem_sRegs j).mpr hj, hreg⟩
    exact ⟨fails rfl rfl rfl hsrc, fails rfl rfl rfl hsrc⟩
  · have hsrc : ∃ n ∈ sRegs ++ iRegs, s.reg n = none := ⟨j, (mem_sRegs_iRegs j).mpr hj, hreg⟩
    exact ⟨fails rfl rfl rfl hsrc, fails rfl rfl rfl hsrc⟩

/-! ### The interrupt output (R283) -/

/-- Settles O52: the output is R283's expression of the four bits. -/
theorem interruptOutput : Obligations.InterruptOutput := fun s => by
  simp only [State.irq, Bool.or_eq_true, Bool.and_eq_true]

/-! ### COUNTER and CTRWRAP (R32, R244, R292) -/

/-- COUNTER is as it was and CTRWRAP has not been set. -/
def CounterKept (s t : State) : Prop := t.counter = s.counter ∧ (s.ctrWrap = false → t.ctrWrap = false)

/-- An accepted CTRINC has added 1 to COUNTER and set CTRWRAP where that wraps (R244). -/
def CounterIncremented (s t : State) : Prop :=
  s.busy = false ∧ s.err = false ∧ t.counter = s.counter + 1#32 ∧
    t.ctrWrap = wrapFlag s.ctrWrap (s.counter + 1#32)

/-- The three ways an event may do otherwise: a host write to COUNTER, an accepted CTRINC, reset. -/
def CounterWritten (s t : State) (ev : Event) : Prop :=
  (ev = .host (.regWrite 32 0x10 t.counter) ∧ t.ctrWrap = s.ctrWrap) ∨
  (ev = .host (submission 0x60000000#32) ∧ CounterIncremented s t) ∨
  (ev = .reset ∧ t.ctrWrap = false)

theorem bodyOf_counter_of_ne_ctrinc {i : Instr} (hi : i ≠ .ctrinc) (l : Latches) (s : State) :
    (bodyOf i l s).counter = s.counter ∧ (bodyOf i l s).ctrWrap = s.ctrWrap := by
  cases i with
  | ctrinc => exact absurd rfl hi
  | _ => simp only [bodyOf, and_self]

/-- CTRINC has no other word than its own (R102). -/
theorem eq_of_decode_ctrinc {v : Word} (h : decode v = .command .ctrinc) : v = 0x60000000#32 := by
  obtain ⟨hv, _⟩ := encodeOfDecode v .ctrinc h
  exact hv.symm

/-- Of the submissions only an accepted CTRINC reaches COUNTER or CTRWRAP. -/
theorem submitWord_counter {v : Word} {s t : State} (h : s.submitWord v = .next t) :
    CounterKept s t ∨ v = 0x60000000#32 ∧ CounterIncremented s t := by
  rcases submitWord_cases v s with ⟨_, hx⟩ | ⟨_, _, _, _, _, hx⟩ | ⟨_, _, _, _, _, _, hx⟩ |
    ⟨hb, he, i, hdec, _, _, hx⟩ <;> cases hx.symm.trans h
  · exact .inl ⟨rfl, id⟩
  · exact .inl ⟨rfl, id⟩
  · exact .inl ⟨rfl, id⟩
  · by_cases hi : i = .ctrinc
    · subst hi
      exact .inr ⟨eq_of_decode_ctrinc hdec, hb, he, rfl, rfl⟩
    · obtain ⟨hcounter, hwrap⟩ := bodyOf_counter_of_ne_ctrinc hi s.sample (s.accept (encode i) s.sample)
      exact .inl ⟨hcounter, hwrap.trans⟩

theorem hostStep_regRead_answers (width off : Nat) (s : State) :
    ∃ r, s.hostStep (.regRead width off) = .next (s.respond r) := by
  simp only [State.hostStep]
  split
  · split
    · exact ⟨_, rfl⟩
    · exact ⟨_, rfl⟩
  · exact ⟨_, rfl⟩

theorem hostStep_ewGet_answers (s : State) : ∃ r, s.hostStep .ewGet = .next (s.respond r) := by
  cases hout : s.ewout with
  | some e => exact ⟨_, hostStep_ewGet_of_some hout⟩
  | none => exact ⟨_, hostStep_ewGet_of_none hout⟩

theorem counter_regWrite {width off : Nat} {v : Word} {s t : State}
    (h : s.hostStep (.regWrite width off v) = .next t) :
    CounterKept s t ∨ CounterWritten s t (.host (.regWrite width off v)) := by
  by_cases hbad : width ≠ 32 ∨ off % 4 ≠ 0 ∨ 0x20 < off
  · cases (hostStep_regWrite_of_bad hbad v s).symm.trans h
    exact .inl ⟨rfl, id⟩
  · -- Of the nine registers STATUS, CMD and COUNTER come first: only a write to one of them reaches the pair.
    obtain ⟨rfl, hoff⟩ : width = 32 ∧ (off = 0x08 ∨ off = 0x0C ∨ off = 0x10 ∨
        off = 0x00 ∨ off = 0x04 ∨ off = 0x14 ∨ off = 0x18 ∨ off = 0x1C ∨ off = 0x20) := by omega
    rcases hoff with rfl | rfl | rfl | rfl | rfl | rfl | rfl | rfl | rfl
    · cases h
      exact .inl ⟨rfl, fun hwrap => by simp [hwrap]⟩
    · rcases submitWord_counter (s := s.respond .done) h with hkept | ⟨rfl, hinc⟩
      · exact .inl hkept
      · exact .inr (.inr (.inl ⟨rfl, hinc⟩))
    · cases h
      exact .inr (.inl ⟨rfl, rfl⟩)
    all_goals
      cases h
      exact .inl ⟨rfl, id⟩

theorem counterKept_receive (tag : Nat) (s : State) : CounterKept s (s.receive tag) := by
  rcases receive_cases tag s with h | ⟨p, _, _, _, ⟨r, _, h⟩ | ⟨e, _, h⟩⟩ <;> rw [h]
  · exact ⟨rfl, id⟩
  · exact ⟨rfl, id⟩
  · rcases completeIfEnded_cases (s.received p e) with ⟨_, hend⟩ | ⟨_, _, hend⟩ <;> rw [hend] <;>
      exact ⟨rfl, id⟩

theorem counterKept_issue {k : Nat} {s t : State} (h : s.issue k = .next t) : CounterKept s t := by
  rcases issue_cases k s with hk | ⟨_, _, _, _, _, _, ⟨_, _, hk⟩ | ⟨_, _, hk⟩⟩ <;>
    cases hk.symm.trans h <;> exact ⟨rfl, id⟩

theorem counter_event {ev : Event} {s t : State} (h : State.event ev s = .next t) :
    CounterKept s t ∨ CounterWritten s t ev := by
  cases ev with
  | host tx =>
    cases tx with
    | regRead width off =>
      obtain ⟨r, hr⟩ := hostStep_regRead_answers width off s
      cases hr.symm.trans h
      exact .inl ⟨rfl, id⟩
    | regWrite width off v => exact counter_regWrite h
    | ewPut e =>
      cases h
      exact .inl ⟨rfl, id⟩
    | ewGet =>
      obtain ⟨r, hr⟩ := hostStep_ewGet_answers s
      cases hr.symm.trans h
      exact .inl ⟨rfl, id⟩
  | issue k => exact .inl (counterKept_issue h)
  | alu tag a =>
    cases h
    exact .inl ⟨rfl, id⟩
  | receive tag =>
    cases h
    exact .inl (counterKept_receive tag s)
  | reset =>
    cases h
    exact .inr (.inr (.inr ⟨rfl, rfl⟩))

theorem counterKept_blockStep {s t : State} (h : s.blockStep = .next t) : CounterKept s t := by
  rcases blockStep_cases s with ⟨p, _, _, hx⟩ | ⟨_, hx⟩
  · cases hx.symm.trans h
    exact counterKept_receive p.tag s
  · exact counterKept_issue (hx.symm.trans h)

/-- A step keeps COUNTER and does not set CTRWRAP, or it is one of the three events that may. -/
theorem counter_step {s t : State} (h : step s = .next t) :
    CounterKept s t ∨ ∃ ev rest, s.env = ev :: rest ∧ CounterWritten s t ev := by
  cases henv : s.env with
  | nil => exact .inl (counterKept_blockStep ((step_of_nil henv).symm.trans h))
  | cons ev rest =>
    have hev := counter_event ((step_of_cons henv).symm.trans h)
    exact hev.imp id fun hwritten => ⟨ev, rest, rfl, hwritten⟩

theorem CounterIncremented.wraps {s t : State} (h : CounterIncremented s t) (hs : s.ctrWrap = false)
    (ht : t.ctrWrap = true) : s.counter = 0xFFFFFFFF#32 ∧ t.counter = 0x00000000#32 := by
  obtain ⟨_, _, hcounter, hwrap⟩ := h
  rw [hs, wrapFlag_add_one, ht] at hwrap
  have hlast : s.counter = 0xFFFFFFFF#32 := by
    by_contra hne
    rw [if_neg hne] at hwrap
    cases hwrap
  exact ⟨hlast, by rw [hcounter, hlast]; rfl⟩

/-- Settles O57: only the three events write COUNTER, and of them only CTRINC sets CTRWRAP. -/
theorem counterAndWrapRules : Obligations.CounterAndWrapRules := by
  intro s t h
  rcases counter_step h with ⟨hcounter, hwrap⟩ |
    ⟨ev, rest, henv, ⟨rfl, hwrap⟩ | ⟨rfl, hinc⟩ | ⟨rfl, hwrap⟩⟩
  · exact ⟨fun hne => absurd hcounter hne, fun hclear hset => by cases (hwrap hclear).symm.trans hset⟩
  · exact ⟨fun _ => .inl ⟨_, rest, henv, rfl⟩,
      fun hclear hset => by cases (hwrap.trans hclear).symm.trans hset⟩
  · have hwraps := hinc.wraps
    obtain ⟨hb, he, hcounter, _⟩ := hinc
    exact ⟨fun _ => .inr (.inl ⟨rest, henv, hb, he, hcounter⟩),
      fun hclear hset => ⟨rest, henv, hb, he, hwraps hclear hset⟩⟩
  · exact ⟨fun _ => .inr (.inr ⟨rest, henv⟩), fun _ hset => by cases hwrap.symm.trans hset⟩

end Sys2Proof.Machine

/-! Reset and what it abandons (spec 70_reset_and_hazards.md): the reset input gives every register its reset
value in one step (R310), and no answer to a request outstanding before it changes anything after it (R312). -/

namespace Sys2Proof.Machine

/-- The reset input is taken from the schedule and answers the reset state at the parameters it met (R310). -/
theorem step_of_reset {s : State} {rest : List Event} (henv : s.env = .reset :: rest) :
    step s = .next (State.resetInput { s with env := rest }) :=
  step_of_cons henv

theorem reg_resetInput (s : State) (n : Nat) : s.resetInput.reg n = none :=
  reg_resetWith s.params n

theorem statusWord_resetInput (s : State) : s.resetInput.statusWord = 0#32 :=
  statusWord_resetWith s.params

theorem ctrlWord_resetInput (s : State) : s.resetInput.ctrlWord = 0#32 :=
  ctrlWord_resetWith s.params

/-- Settles O9: the step is the reset input, whose words are those of the state after reset. -/
theorem resetInputResets : Obligations.ResetInputResets := fun _ _ henv =>
  ⟨_, step_of_reset henv, reg_resetInput _, rfl, rfl, ctrlWord_resetInput _, statusWord_resetInput _, rfl, rfl,
    rfl, rfl, rfl, rfl, rfl, rfl, rfl, rfl, rfl, rfl⟩

/-- Settles O10: reset empties what is outstanding and keeps the tag count, so every later request has a tag
no abandoned request had. -/
theorem staleAnswersDiscarded : Obligations.StaleAnswersDiscarded := by
  intro s n u hinv hrun
  obtain ⟨_, hseq, _, _⟩ := hinv
  exact aluAnswer_abandoned hseq hrun s.resetInput_pending s.resetInput_nextTag

end Sys2Proof.Machine
